-- ==== Sys2Proof/Word.lean ====
section
/-! DEFINITION. The two word types of the block: the codeword (spec 00_scope.md R9, R12) and the 32-bit
command, response and register word (30_encoding.md R80, R81). -/

namespace Sys2Proof

/-- A codeword: 8 bits, also an element of GF(256) (R9, R140). -/
abbrev Byte := BitVec 8

/-- A command word, a response value or a register as read: 32 bits (R80, R21). -/
abbrev Word := BitVec 32

end Sys2Proof
end

