-- ==== Sys2Proof/Syntax.lean ====
section
/-! DEFINITION. The command set, one constructor per row of spec/opcode_table.json (30_encoding.md R86).
Every operand is the unsigned integer its field holds (R84); the fields' widths are checked in
WellFormed.lean. -/

namespace Sys2Proof

/-- The 26 commands (R2, R86). Field names are those of the formats of R83. -/
inductive Instr where
  /-- `NOP` (R110). -/
  | nop
  /-- `RST` (R111). -/
  | rst
  /-- `CFG ver, ecl` (R112). -/
  | cfg (ver ecl : Nat)
  /-- `PUTB width, value` (R122). -/
  | putb (width value : Nat)
  /-- `PHDR mode, count` (R125). -/
  | phdr (mode count : Nat)
  /-- `PNUM1 c0` (R127). -/
  | pnum1 (c0 : Nat)
  /-- `PNUM2 c0, c1` (R129). -/
  | pnum2 (c0 c1 : Nat)
  /-- `PNUM3 c0, c1, c2` (R130). -/
  | pnum3 (c0 c1 c2 : Nat)
  /-- `PALN1 c0` (R131). -/
  | paln1 (c0 : Nat)
  /-- `PALN2 c0, c1` (R132). -/
  | paln2 (c0 c1 : Nat)
  /-- `PBYTE c0` (R133). -/
  | pbyte (c0 : Nat)
  /-- `PFIN` (R134). -/
  | pfin
  /-- `ECC` (R166). -/
  | ecc
  /-- `ILV` (R168). -/
  | ilv
  /-- `MSET row, col, tag, dark` (R181). -/
  | mset (row col tag : Nat) (dark : Bool)
  /-- `SCORE` (R193). -/
  | score
  /-- `RDR addr` (R210). -/
  | rdr (addr : Nat)
  /-- `RDD idx` (R211). -/
  | rdd (idx : Nat)
  /-- `RDE idx` (R212). -/
  | rde (idx : Nat)
  /-- `RDO idx` (R213). -/
  | rdo (idx : Nat)
  /-- `RDM row, col, msel` (R214). -/
  | rdm (row col msel : Nat)
  /-- `GFMUL a, b` (R149). -/
  | gfmul (a b : Nat)
  /-- `GFDIV a, b` (R150). -/
  | gfdiv (a b : Nat)
  /-- `GFEXP i` (R151). -/
  | gfexp (b : Nat)
  /-- `GFLOG a` (R152). -/
  | gflog (b : Nat)
  /-- `GENC k, i` (R153). -/
  | genc (a b : Nat)
deriving DecidableEq, Repr

end Sys2Proof
end

