-- ==== Sys2Proof/WellFormed.lean ====
section
/-! DEFINITION. A command is well formed when every operand fits the field its format gives it
(spec 30_encoding.md R83, R84). An operand that fits its field and lies outside its legal range is well
formed: it is a command word, and executing it faults (R90 steps 4 and 5). -/

namespace Sys2Proof

/-- Every operand fits its field (R83). -/
def Instr.wf : Instr → Bool
  | .nop | .rst | .pfin | .ecc | .ilv | .score => true
  | .cfg ver ecl => decide (ver < 2 ^ 6) && decide (ecl < 2 ^ 2)
  | .putb width value => decide (width < 2 ^ 5) && decide (value < 2 ^ 16)
  | .phdr mode count => decide (mode < 2 ^ 4) && decide (count < 2 ^ 16)
  | .pnum1 c0 | .paln1 c0 | .pbyte c0 => decide (c0 < 2 ^ 8)
  | .pnum2 c0 c1 | .paln2 c0 c1 => decide (c0 < 2 ^ 8) && decide (c1 < 2 ^ 8)
  | .pnum3 c0 c1 c2 => decide (c0 < 2 ^ 8) && decide (c1 < 2 ^ 8) && decide (c2 < 2 ^ 8)
  | .mset row col tag _ => decide (row < 2 ^ 8) && decide (col < 2 ^ 8) && decide (tag < 2 ^ 2)
  | .rdr addr => decide (addr < 2 ^ 8)
  | .rdd idx | .rde idx | .rdo idx => decide (idx < 2 ^ 12)
  | .rdm row col msel => decide (row < 2 ^ 8) && decide (col < 2 ^ 8) && decide (msel < 2 ^ 4)
  | .gfmul a b | .gfdiv a b | .genc a b => decide (a < 2 ^ 8) && decide (b < 2 ^ 8)
  | .gfexp b | .gflog b => decide (b < 2 ^ 8)

end Sys2Proof
end

