-- ==== Sys2Proof/Decode.lean ====
section
/-! DEFINITION. Decoding of a command word and its inverse (spec 30_encoding.md R81 to R89). A command is
exactly one 32-bit word, taken as a number; the byte order in which a bus carries it is not observable
(20_memory.md R63), so the decoder reads a word and no bytes. -/

namespace Sys2Proof

/-- `cw[hi:lo]`, read as an unsigned integer (00_scope.md R12). -/
def field (cw : Word) (hi lo : Nat) : Nat := cw.toNat / 2 ^ lo % 2 ^ (hi + 1 - lo)

/-- Why a word is an illegal command (R85, R87, R88). -/
inductive DecodeError where
  /-- The opcode is in no row of the opcode map (R88). -/
  | unknownOpcode
  /-- A reserved bit of the command's format is 1 (R87). -/
  | reservedBit
deriving DecidableEq, Repr

/-- The command `i`, if the reserved bits `cw[hi:lo]` of its format are 0 (R82, R87). -/
def whenReservedZero (cw : Word) (hi lo : Nat) (i : Instr) : Except DecodeError Instr :=
  if field cw hi lo = 0 then .ok i else .error .reservedBit

/-- The command a word selects (R83, R85, R86), or why it is illegal. -/
def decode (cw : Word) : Except DecodeError Instr :=
  match field cw 31 24 with
  | 0x00 => whenReservedZero cw 23 0 .nop
  | 0x01 => whenReservedZero cw 23 0 .rst
  | 0x02 => whenReservedZero cw 23 8 (.cfg (field cw 5 0) (field cw 7 6))
  | 0x10 => whenReservedZero cw 23 21 (.putb (field cw 20 16) (field cw 15 0))
  | 0x11 => whenReservedZero cw 23 20 (.phdr (field cw 19 16) (field cw 15 0))
  | 0x12 => whenReservedZero cw 23 8 (.pnum1 (field cw 7 0))
  | 0x13 => whenReservedZero cw 23 16 (.pnum2 (field cw 7 0) (field cw 15 8))
  | 0x14 => .ok (.pnum3 (field cw 7 0) (field cw 15 8) (field cw 23 16))
  | 0x15 => whenReservedZero cw 23 8 (.paln1 (field cw 7 0))
  | 0x16 => whenReservedZero cw 23 16 (.paln2 (field cw 7 0) (field cw 15 8))
  | 0x17 => whenReservedZero cw 23 8 (.pbyte (field cw 7 0))
  | 0x18 => whenReservedZero cw 23 0 .pfin
  | 0x20 => whenReservedZero cw 23 0 .ecc
  | 0x21 => whenReservedZero cw 23 0 .ilv
  | 0x30 => whenReservedZero cw 7 3
      (.mset (field cw 23 16) (field cw 15 8) (field cw 2 1) (decide (field cw 0 0 = 1)))
  | 0x31 => whenReservedZero cw 23 0 .score
  | 0x40 => whenReservedZero cw 23 8 (.rdr (field cw 7 0))
  | 0x41 => whenReservedZero cw 23 12 (.rdd (field cw 11 0))
  | 0x42 => whenReservedZero cw 23 12 (.rde (field cw 11 0))
  | 0x43 => whenReservedZero cw 23 12 (.rdo (field cw 11 0))
  | 0x44 => whenReservedZero cw 7 4 (.rdm (field cw 23 16) (field cw 15 8) (field cw 3 0))
  | 0x50 => whenReservedZero cw 23 16 (.gfmul (field cw 15 8) (field cw 7 0))
  | 0x51 => whenReservedZero cw 23 16 (.gfdiv (field cw 15 8) (field cw 7 0))
  | 0x52 => whenReservedZero cw 23 8 (.gfexp (field cw 7 0))
  | 0x53 => whenReservedZero cw 23 8 (.gflog (field cw 7 0))
  | 0x54 => whenReservedZero cw 23 16 (.genc (field cw 15 8) (field cw 7 0))
  | _ => .error .unknownOpcode

/-- The opcode of a command, `cw[31:24]` of its word (R86). -/
def Instr.opcode : Instr → Nat
  | .nop => 0x00
  | .rst => 0x01
  | .cfg .. => 0x02
  | .putb .. => 0x10
  | .phdr .. => 0x11
  | .pnum1 .. => 0x12
  | .pnum2 .. => 0x13
  | .pnum3 .. => 0x14
  | .paln1 .. => 0x15
  | .paln2 .. => 0x16
  | .pbyte .. => 0x17
  | .pfin => 0x18
  | .ecc => 0x20
  | .ilv => 0x21
  | .mset .. => 0x30
  | .score => 0x31
  | .rdr .. => 0x40
  | .rdd .. => 0x41
  | .rde .. => 0x42
  | .rdo .. => 0x43
  | .rdm .. => 0x44
  | .gfmul .. => 0x50
  | .gfdiv .. => 0x51
  | .gfexp .. => 0x52
  | .gflog .. => 0x53
  | .genc .. => 0x54

/-- `cw[23:0]` of a command's word: each operand at the place its format gives it (R83, R91). -/
def Instr.operands : Instr → Nat
  | .nop | .rst | .pfin | .ecc | .ilv | .score => 0
  | .cfg ver ecl => ecl * 2 ^ 6 + ver
  | .putb width value => width * 2 ^ 16 + value
  | .phdr mode count => mode * 2 ^ 16 + count
  | .pnum1 c0 | .paln1 c0 | .pbyte c0 => c0
  | .pnum2 c0 c1 | .paln2 c0 c1 => c1 * 2 ^ 8 + c0
  | .pnum3 c0 c1 c2 => c2 * 2 ^ 16 + c1 * 2 ^ 8 + c0
  | .mset row col tag dark => row * 2 ^ 16 + col * 2 ^ 8 + tag * 2 + dark.toNat
  | .rdr addr => addr
  | .rdd idx | .rde idx | .rdo idx => idx
  | .rdm row col msel => row * 2 ^ 16 + col * 2 ^ 8 + msel
  | .gfmul a b | .gfdiv a b | .genc a b => a * 2 ^ 8 + b
  | .gfexp b | .gflog b => b

/-- The command word of a well-formed command: `op << 24` with each field at its place (R91). -/
def encode (i : Instr) : Word := BitVec.ofNat 32 (i.opcode * 2 ^ 24 + i.operands)

/-- The mnemonic of a command, as the opcode map spells it (R86). -/
def Instr.mnemonic : Instr → String
  | .nop => "NOP"
  | .rst => "RST"
  | .cfg .. => "CFG"
  | .putb .. => "PUTB"
  | .phdr .. => "PHDR"
  | .pnum1 .. => "PNUM1"
  | .pnum2 .. => "PNUM2"
  | .pnum3 .. => "PNUM3"
  | .paln1 .. => "PALN1"
  | .paln2 .. => "PALN2"
  | .pbyte .. => "PBYTE"
  | .pfin => "PFIN"
  | .ecc => "ECC"
  | .ilv => "ILV"
  | .mset .. => "MSET"
  | .score => "SCORE"
  | .rdr .. => "RDR"
  | .rdd .. => "RDD"
  | .rde .. => "RDE"
  | .rdo .. => "RDO"
  | .rdm .. => "RDM"
  | .gfmul .. => "GFMUL"
  | .gfdiv .. => "GFDIV"
  | .gfexp .. => "GFEXP"
  | .gflog .. => "GFLOG"
  | .genc .. => "GENC"

/-- A row of the opcode map: mnemonic, `mask` and `match` (R85, R86). -/
structure OpcodeRow where
  mnemonic : String
  mask : Word
  fixed : Word
deriving DecidableEq, Repr

/-- The opcode map as R86 prints it, for stating R85 in the spec's own form. -/
def opcodeTable : List OpcodeRow := [
  ⟨"NOP", 0xFFFFFFFF, 0x00000000⟩, ⟨"RST", 0xFFFFFFFF, 0x01000000⟩, ⟨"CFG", 0xFFFFFF00, 0x02000000⟩,
  ⟨"PUTB", 0xFFE00000, 0x10000000⟩, ⟨"PHDR", 0xFFF00000, 0x11000000⟩,
  ⟨"PNUM1", 0xFFFFFF00, 0x12000000⟩, ⟨"PNUM2", 0xFFFF0000, 0x13000000⟩,
  ⟨"PNUM3", 0xFF000000, 0x14000000⟩, ⟨"PALN1", 0xFFFFFF00, 0x15000000⟩,
  ⟨"PALN2", 0xFFFF0000, 0x16000000⟩, ⟨"PBYTE", 0xFFFFFF00, 0x17000000⟩,
  ⟨"PFIN", 0xFFFFFFFF, 0x18000000⟩, ⟨"ECC", 0xFFFFFFFF, 0x20000000⟩, ⟨"ILV", 0xFFFFFFFF, 0x21000000⟩,
  ⟨"MSET", 0xFF0000F8, 0x30000000⟩, ⟨"SCORE", 0xFFFFFFFF, 0x31000000⟩,
  ⟨"RDR", 0xFFFFFF00, 0x40000000⟩, ⟨"RDD", 0xFFFFF000, 0x41000000⟩, ⟨"RDE", 0xFFFFF000, 0x42000000⟩,
  ⟨"RDO", 0xFFFFF000, 0x43000000⟩, ⟨"RDM", 0xFF0000F0, 0x44000000⟩,
  ⟨"GFMUL", 0xFFFF0000, 0x50000000⟩, ⟨"GFDIV", 0xFFFF0000, 0x51000000⟩,
  ⟨"GFEXP", 0xFFFFFF00, 0x52000000⟩, ⟨"GFLOG", 0xFFFFFF00, 0x53000000⟩,
  ⟨"GENC", 0xFFFF0000, 0x54000000⟩]

/-- The instruction the decoder reads from a word of the opcode table's numbering: a command is one 32-bit
word (R81), so a number with a bit above bit 31 is no command. -/
def decodeTableWord (nbits w : Nat) : Option Instr :=
  if w % 2 ^ nbits < 2 ^ 32 then
    match decode (BitVec.ofNat 32 (w % 2 ^ nbits)) with
    | .ok i => some i
    | .error _ => none
  else none

end Sys2Proof
end

