-- ==== Sys2Proof/Config.lean ====
section
/-! DEFINITION. What is fixed for every instance of the block: the sizes of spec 00_scope.md R9, the
identification word of 10_state.md R36, and the default values the spec prints for the scalar parameters of
00_scope.md R10. The parameters themselves are the fields of `Params` in Machine/Params.lean, and every
operation that uses a table takes them as an argument. -/

namespace Sys2Proof.Config

/-- `VERMIN` (R9). -/
def VERMIN : Nat := 1

/-- `VERMAX` (R9). -/
def VERMAX : Nat := 40

/-- `NMAX`, the side of the largest matrix (R9). -/
def NMAX : Nat := 177

/-- `DMAX`, the number of codewords of DBUF (R9). -/
def DMAX : Nat := 2956

/-- `EMAX`, the number of codewords of EBUF (R9). -/
def EMAX : Nat := 2430

/-- `TMAX`, the number of codewords of OBUF (R9). -/
def TMAX : Nat := 3706

/-- `KMAX`, the largest generator degree (R9). -/
def KMAX : Nat := 30

/-- `NMASK`, the number of mask patterns (R9). -/
def NMASK : Nat := 8

/-- The constant register `ID` (R36). -/
def ID : Word := 0x42534501

/-- Default of `PRIM`, the field polynomial `x^8 + x^4 + x^3 + x^2 + 1` as a 9-bit number (R10, R140). -/
def PRIM : Nat := 0x11D

/-- Default of `ALPHA`, the base of the log and antilog tables (R10, R141; supplied by the spec). -/
def ALPHA : Byte := 0x02

/-- Default of `GENROOT0`, the exponent of the first root of every generator polynomial (R10, R147). -/
def GENROOT0 : Nat := 0

/-- Default of `W1`, the weight of penalty rule (a) (R10, R187). -/
def W1 : Nat := 3

/-- Default of `W2`, the weight of penalty rule (b) (R10, R188). -/
def W2 : Nat := 3

/-- Default of `W3`, the weight of penalty rule (c) (R10, R189). -/
def W3 : Nat := 40

/-- Default of `W4`, the weight of penalty rule (d) (R10, R190). -/
def W4 : Nat := 10

end Sys2Proof.Config
end

