-- ==== Sys2Proof/Machine/State.lean ====
section
/-! DEFINITION. The state of one BS-EPM block (spec 10_state.md R20) and of its two ports
(30_encoding.md R80), as plain data, and their state after reset (R45, 70_reset_and_hazards.md R251). -/

namespace Sys2Proof.Machine

/-- `PHASE` (R22). Value 6 is never held. -/
inductive Phase where
  | unbuilt
  | packing
  | filled
  | coded
  | streamed
  | masked
  | fault
deriving DecidableEq, Repr

/-- The fault codes 1 to 9 (60_exceptions.md R221). -/
inductive FaultCode where
  | invalidOption
  | dataTooLong
  | unsupportedCharacter
  | illegalCommand
  | badPhase
  | badOperand
  | reservedOverwrite
  | unsetCell
  | gfDomain
deriving DecidableEq, Repr

/-- The tag of a module (R33). Value 3 is never held. -/
inductive Tag where
  | unset
  | data
  | reserved
deriving DecidableEq, Repr

/-- One module of the matrix (R32); `dark` is true for dark, false for light. -/
structure Module where
  tag : Tag
  dark : Bool
deriving DecidableEq, Repr

/-- What a module holds at reset: `(Unset, light)` (R45). -/
def Module.blank : Module := ⟨.unset, false⟩

/-- A codeword buffer as the list of its non-zero codewords by rising index; an index that is not listed
holds 0, the reset contents (R45; log entry 6). -/
abbrev Buffer := List Host.Cell

/-- The module matrix as the list of the modules that are not `(Unset, light)`, by rising address; the
address of module `(row, col)` is the 16-bit number `row:col` (20_memory.md R60; log entry 6). -/
abbrev Matrix := List (Nat × Module)

/-- A response `(ok, resp)` (R80, R93). -/
structure Response where
  ok : Bool
  resp : Word
deriving DecidableEq, Repr

/-- What the host does next at the block's inputs: it presents a command word (R80), or it pulses the
hardware reset input (R250). -/
inductive HostInput where
  | command (cw : Word)
  | resetPulse
deriving DecidableEq, Repr

/-- The state of the block: the items of R20, in its order, and nothing else (00_scope.md R7). -/
structure Block where
  /-- `PHASE` (R22). -/
  phase : Phase
  /-- `ERR`: `none` is code 0 (R23). -/
  err : Option FaultCode
  /-- `FINFO` (R24). -/
  finfo : Word
  /-- `VER` (R25). -/
  ver : BitVec 6
  /-- `ECL` (R25, R26). -/
  ecl : BitVec 2
  /-- `N` (R27). -/
  n : BitVec 8
  /-- `TOT` (R27). -/
  tot : BitVec 12
  /-- `DCAP` (R27). -/
  dcap : BitVec 12
  /-- `K` (R27). -/
  k : BitVec 5
  /-- `NB1` (R27). -/
  nb1 : BitVec 7
  /-- `DC1` (R27). -/
  dc1 : BitVec 8
  /-- `NB2` (R27). -/
  nb2 : BitVec 7
  /-- `DC2` (R27). -/
  dc2 : BitVec 8
  /-- `BITLEN` (R28). -/
  bitlen : BitVec 15
  /-- `DBUF` (R29). -/
  dbuf : Buffer
  /-- `EBUF` (R30). -/
  ebuf : Buffer
  /-- `OBUF` (R31). -/
  obuf : Buffer
  /-- `MOD` (R32). -/
  mod : Matrix
  /-- `PEN[0..7]` (R34). -/
  pen : Vector Word 8
  /-- `PENR[0..7][0..3]` (R34). -/
  penr : Vector (Vector Word 4) 8
  /-- `BEST` (R35). -/
  best : BitVec 3
deriving DecidableEq, Repr

/-- The state of the machine: the block's, and the model's own two fields for its ports (R80): `inputs`, what
the host presents next, oldest first (log entry 2), and `response`, the response given last (log entry 3).
Neither is state of the block: `blockStep` takes the command word as an argument and returns the response. -/
structure State extends Block where
  /-- The model's own: what the host presents next (log entry 2). -/
  inputs : List HostInput
  /-- The model's own: the response given last (log entry 3). -/
  response : Option Response
deriving DecidableEq, Repr

/-- What stops the machine with a fault: nothing. The block's step is total (30_encoding.md R80), and every
fault of 60_exceptions.md R221 is recorded in `ERR` and `FINFO` of a next state (R226), so no command of
the spec ends a run (log entry 8). -/
inductive Fault
deriving DecidableEq, Repr

/-- Why a command has no meaning in the model. -/
inductive Refusal where
  /-- Raised by a refused arm of `exec` alone: the command has no meaning yet. Safe: the run stops. -/
  | notModelled (mnemonic : String)
deriving DecidableEq, Repr

/-- The answer of one command or one step. -/
abbrev Result := Host.Outcome State Fault Refusal

/-- `ResetState` (R45, R251). -/
def Block.reset : Block where
  phase := .unbuilt
  err := none
  finfo := 0
  ver := 0
  ecl := 0
  n := 0
  tot := 0
  dcap := 0
  k := 0
  nb1 := 0
  dc1 := 0
  nb2 := 0
  dc2 := 0
  bitlen := 0
  dbuf := []
  ebuf := []
  obuf := []
  mod := []
  pen := Vector.replicate 8 0
  penr := Vector.replicate 8 (Vector.replicate 4 0)
  best := 0

/-- The machine after reset: the block in `ResetState`, with no command presented and no response given yet
(log entries 2, 3). -/
def State.reset : State where
  toBlock := Block.reset
  inputs := []
  response := none

end Sys2Proof.Machine
end

