-- ==== Sys2Proof/Machine/Flags.lean ====
section
/-! DEFINITION. The block has no flags and no condition codes (spec 10_state.md R43). What stands in their
place is here: the codes of `PHASE`, `ERR` and the tags, the words `STATUS` and `CFGR`, and the phases in
which a command is legal (30_encoding.md R86). -/

namespace Sys2Proof.Machine

/-- The value `PHASE` holds in a phase (R22). -/
def Phase.code : Phase → BitVec 3
  | .unbuilt => 0
  | .packing => 1
  | .filled => 2
  | .coded => 3
  | .streamed => 4
  | .masked => 5
  | .fault => 7

/-- The value `ERR` takes for a fault (60_exceptions.md R221). -/
def FaultCode.code : FaultCode → BitVec 4
  | .invalidOption => 1
  | .dataTooLong => 2
  | .unsupportedCharacter => 3
  | .illegalCommand => 4
  | .badPhase => 5
  | .badOperand => 6
  | .reservedOverwrite => 7
  | .unsetCell => 8
  | .gfDomain => 9

/-- The value of `ERR`: 0 when no fault has occurred since reset (R23). -/
def errCode : Option FaultCode → BitVec 4
  | none => 0
  | some c => c.code

/-- The value of a tag (R33). -/
def Tag.code : Tag → BitVec 2
  | .unset => 0
  | .data => 1
  | .reserved => 2

/-- `STATUS`: bits 2:0 `PHASE`, bit 3 zero, bits 7:4 `ERR`, bits 31:8 zero (R21). -/
def statusWord (s : Block) : Word :=
  BitVec.ofNat 32 ((errCode s.err).toNat * 2 ^ 4 + s.phase.code.toNat)

/-- `CFGR`: bits 5:0 `VER`, bits 7:6 `ECL`, bits 31:8 zero (R25). -/
def cfgrWord (s : Block) : Word := BitVec.ofNat 32 (s.ecl.toNat * 2 ^ 6 + s.ver.toNat)

/-- The phases in which a command is legal (R86; for `FAULT` 60_exceptions.md R227). -/
def legalIn : Instr → Phase → Bool
  | .nop, _ | .rst, _ | .rdr _, _ => true
  | .cfg .., p => p == .unbuilt
  | .putb .., p | .phdr .., p | .pnum1 .., p | .pnum2 .., p | .pnum3 .., p | .paln1 .., p
  | .paln2 .., p | .pbyte .., p | .pfin, p => p == .packing
  | .ecc, p => p == .filled
  | .ilv, p => p == .coded
  | .mset .., p | .score, p => p == .streamed
  | .rdd _, p => p == .filled || p == .coded || p == .streamed || p == .masked
  | .rde _, p => p == .coded || p == .streamed || p == .masked
  | .rdo _, p | .rdm .., p => p == .streamed || p == .masked
  | .gfmul .., p | .gfdiv .., p | .gfexp .., p | .gflog .., p | .genc .., p => p != .fault

end Sys2Proof.Machine
end

