-- ==== Sys2Proof/Machine/Ops.lean ====
section
/-! DEFINITION. The named operations every command is written with: reading and writing one element of a
buffer or of the matrix (spec 20_memory.md R64, 45_readout.md R215), the bits of the data stream
(20_memory.md R61), giving a response (30_encoding.md R93), taking a fault and refusing
(60_exceptions.md R226, R227), the order of checks of every command (30_encoding.md R90), and the machine
around the block: its ports (R80) and the reset input (70_reset_and_hazards.md R250). -/

namespace Sys2Proof.Machine

/-! ### One element of a space -/

/-- The element at address `a`; an address that is not listed holds `d`. -/
def Memory.read {α : Type} (d : α) : List (Nat × α) → Nat → α
  | [], _ => d
  | (k, v) :: rest, a => if k = a then v else Memory.read d rest a

/-- Replace the whole element at address `a` by `v`, keeping the canonical form: addresses rise, and an
element equal to what an unlisted address holds is not listed. -/
def Memory.write {α : Type} [DecidableEq α] (d : α) : List (Nat × α) → Nat → α → List (Nat × α)
  | [], a, v => if v = d then [] else [(a, v)]
  | (k, x) :: rest, a, v =>
    if a < k then (if v = d then (k, x) :: rest else (a, v) :: (k, x) :: rest)
    else if a = k then (if v = d then rest else (a, v) :: rest)
    else (k, x) :: Memory.write d rest a v

/-- The canonical form of a list of elements whose addresses are all at least `lo`. -/
def Memory.wfFrom {α : Type} [DecidableEq α] (d : α) : Nat → List (Nat × α) → Bool
  | _, [] => true
  | lo, (k, v) :: rest => decide (lo ≤ k) && decide (v ≠ d) && Memory.wfFrom d (k + 1) rest

/-- The canonical form: addresses strictly rising, no listed element equal to what an unlisted address
holds. -/
def Memory.wf {α : Type} [DecidableEq α] (d : α) (m : List (Nat × α)) : Bool := Memory.wfFrom d 0 m

/-- Every listed address is below `size`. -/
def Memory.below {α : Type} (size : Nat) (m : List (Nat × α)) : Bool := m.all fun e => decide (e.1 < size)

/-- Codeword `i` of a buffer (00_scope.md R14). -/
def readCodeword (m : Buffer) (i : Nat) : Byte := Memory.read 0 m i

/-- A buffer of `size` codewords (00_scope.md R9) with codeword `i` replaced; an index that names no codeword
of it writes nothing (20_memory.md R68; log entry 7). -/
def writeCodeword (size : Nat) (m : Buffer) (i : Nat) (v : Byte) : Buffer :=
  if i < size then Memory.write 0 m i v else m

/-- A buffer of `size` codewords with consecutive codewords replaced, the first at index `i`. -/
def writeCodewords (size : Nat) : Buffer → Nat → List Byte → Buffer
  | m, _, [] => m
  | m, i, v :: rest => writeCodewords size (writeCodeword size m i v) (i + 1) rest

/-- The address of module `(row, col)`: the 16-bit number `row:col` (R60). -/
def moduleAddress (row col : Nat) : Nat := row * 2 ^ 8 + col

/-- Module `(row, col)` of the matrix (00_scope.md R14, R15). -/
def readModule (m : Matrix) (row col : Nat) : Module := Memory.read Module.blank m (moduleAddress row col)

/-- Matrix with module `(row, col)` replaced; coordinates that name no module of its `NMAX` by `NMAX`
(00_scope.md R9) write nothing (20_memory.md R68; log entry 7). -/
def writeModule (m : Matrix) (row col : Nat) (v : Module) : Matrix :=
  if row < Config.NMAX ∧ col < Config.NMAX then Memory.write Module.blank m (moduleAddress row col) v
  else m

/-- Every listed module is one of the matrix. -/
def modulesInside (m : Matrix) : Bool :=
  m.all fun e => decide (e.1 / 2 ^ 8 < Config.NMAX) && decide (e.1 % 2 ^ 8 < Config.NMAX)

/-! ### Bits of the data stream -/

/-- A codeword with bit `j` (0 the least significant) set to `v`. -/
def setBit (b : Byte) (j : Nat) (v : Bool) : Byte :=
  if v then b ||| (1#8 <<< j) else b &&& ~~~(1#8 <<< j)

/-- Stream bit `p`: bit `7 - p mod 8` of codeword `p div 8` (00_scope.md R12, 10_state.md R29). -/
def readStreamBit (m : Buffer) (p : Nat) : Bool := (readCodeword m (p / 8)).getLsbD (7 - p % 8)

/-- The stream's buffer, `DBUF`, with stream bit `p` set to `v`. -/
def writeStreamBit (m : Buffer) (p : Nat) (v : Bool) : Buffer :=
  writeCodeword Config.DMAX m (p / 8) (setBit (readCodeword m (p / 8)) (7 - p % 8) v)

/-- `DBUF` with the low `w` bits of `v` written at stream positions `p`, `p + 1`, …, most significant
first (R61, R120). -/
def writeField (m : Buffer) (p v : Nat) : Nat → Buffer
  | 0 => m
  | w + 1 => writeField (writeStreamBit m p (v.testBit w)) (p + 1) v w

/-! ### Responses, faults -/

/-- Complete a command: response `(1, v)` (R93). -/
def respond (v : Word) (s : Block) : Block × Response := (s, ⟨true, v⟩)

/-- Refuse a command: response `(0, 0)`, and no state changes (R227, R93). -/
def refuse (s : Block) : Block × Response := (s, ⟨false, 0⟩)

/-- Take a fault: record its code and the whole command word, enter `FAULT`, keep everything else, respond
`(0, 0)` (R226). -/
def raiseFault (c : FaultCode) (cw : Word) (s : Block) : Block × Response :=
  ({ s with phase := .fault, err := some c, finfo := cw }, ⟨false, 0⟩)

/-- A command that meets a fault condition: it takes the fault, unless the block is in `FAULT`, where it is
refused, so that faults do not nest (R226, R227, R230). The way out of `FAULT` is the return to
`Block.reset` (R229). -/
def fail (c : FaultCode) (cw : Word) (s : Block) : Block × Response :=
  if s.phase = .fault then refuse s else raiseFault c cw s

/-! ### The order of checks -/

/-- What the checks and the writes of a command come to, past the phase check: a fault, or the block after
its writes and the value of its response. -/
abbrev Body := Block → Except FaultCode (Block × Word)

/-- One command (R90, R228): the phase check, which in `FAULT` lets only the commands of R227 through; then
the operand checks and the state-dependent checks of `body`, in its order; then its writes and its
response. A body that meets a fault condition answers with the fault alone, so a fault writes nothing else
(R226). The word a fault records is the command's own, which its operands determine (log entry 4). -/
def perform (i : Instr) (body : Body) (s : Block) : Block × Response :=
  if legalIn i s.phase then
    match body s with
    | .ok (t, v) => respond v t
    | .error c => fail c (encode i) s
  else fail .badPhase (encode i) s

/-- A word that is no command (R85, R87, R88; in `FAULT` R227). -/
def illegalWord (cw : Word) (s : Block) : Block × Response := fail .illegalCommand cw s

/-! ### The machine around the block -/

/-- The machine with what a command made of the block, and its response at the response port (log
entry 3). -/
def State.give (s : State) (r : Block × Response) : State :=
  { s with toBlock := r.1, response := some r.2 }

/-- One command of the machine: the block performs it and gives its response. -/
def command (i : Instr) (body : Body) (s : State) : Result := .next (s.give (perform i body s.toBlock))

/-- A pulse of the reset input: the block is in `ResetState`, no response is given, and what the host will
present next is the host's and stays (70_reset_and_hazards.md R250, R251; log entries 2, 3). -/
def resetInput (s : State) : State := { State.reset with inputs := s.inputs }

/-! ### The host's next input -/

/-- What the block finds at its inputs: nothing, a pulse of the reset input, or a command word, each with
that input taken (R80, R250; log entry 2). -/
inductive Taken where
  | idle
  | resetPulse (s : State)
  | command (cw : Word) (s : State)
deriving DecidableEq, Repr

/-- Take the host's next input. -/
def takeInput (s : State) : Taken :=
  match s.inputs with
  | [] => .idle
  | .resetPulse :: rest => .resetPulse { s with inputs := rest }
  | .command cw :: rest => .command cw { s with inputs := rest }

end Sys2Proof.Machine
end

