-- ==== Sys2Proof/Machine/Tables.lean ====
section
/-! DEFINITION. The tables the spec prints as defaults of the parameters of 00_scope.md R10: the block table
`BLKTAB` (43_rs_coder.md R160), the mode indicators and length-field widths (41_packer.md R123, R124), the
alphanumeric set (R128) and the mask formulas (44_mask_scorer.md R184); and the module count of
43_rs_coder.md R161, which the block itself does not use. -/

namespace Sys2Proof.Machine

/-! ### The block table -/

/-- One entry of `BLKTAB`: `K` correction codewords per block, `NB1` blocks of `DC1` data codewords, `NB2`
blocks of `DC2` (R160). -/
structure BlockEntry where
  k : Nat
  nb1 : Nat
  dc1 : Nat
  nb2 : Nat
  dc2 : Nat
deriving DecidableEq, Repr

/-- `BLKTAB`, versions 1 to 8: per version the entries for L, M, Q, H (R160). -/
def blktab01to08 : List (List BlockEntry) := [
  [⟨7, 1, 19, 0, 0⟩, ⟨10, 1, 16, 0, 0⟩, ⟨13, 1, 13, 0, 0⟩, ⟨17, 1, 9, 0, 0⟩],
  [⟨10, 1, 34, 0, 0⟩, ⟨16, 1, 28, 0, 0⟩, ⟨22, 1, 22, 0, 0⟩, ⟨28, 1, 16, 0, 0⟩],
  [⟨15, 1, 55, 0, 0⟩, ⟨26, 1, 44, 0, 0⟩, ⟨18, 2, 17, 0, 0⟩, ⟨22, 2, 13, 0, 0⟩],
  [⟨20, 1, 80, 0, 0⟩, ⟨18, 2, 32, 0, 0⟩, ⟨26, 2, 24, 0, 0⟩, ⟨16, 4, 9, 0, 0⟩],
  [⟨26, 1, 108, 0, 0⟩, ⟨24, 2, 43, 0, 0⟩, ⟨18, 2, 15, 2, 16⟩, ⟨22, 2, 11, 2, 12⟩],
  [⟨18, 2, 68, 0, 0⟩, ⟨16, 4, 27, 0, 0⟩, ⟨24, 4, 19, 0, 0⟩, ⟨28, 4, 15, 0, 0⟩],
  [⟨20, 2, 78, 0, 0⟩, ⟨18, 4, 31, 0, 0⟩, ⟨18, 2, 14, 4, 15⟩, ⟨26, 4, 13, 1, 14⟩],
  [⟨24, 2, 97, 0, 0⟩, ⟨22, 2, 38, 2, 39⟩, ⟨22, 4, 18, 2, 19⟩, ⟨26, 4, 14, 2, 15⟩]]

/-- `BLKTAB`, versions 9 to 16: per version the entries for L, M, Q, H (R160). -/
def blktab09to16 : List (List BlockEntry) := [
  [⟨30, 2, 116, 0, 0⟩, ⟨22, 3, 36, 2, 37⟩, ⟨20, 4, 16, 4, 17⟩, ⟨24, 4, 12, 4, 13⟩],
  [⟨18, 2, 68, 2, 69⟩, ⟨26, 4, 43, 1, 44⟩, ⟨24, 6, 19, 2, 20⟩, ⟨28, 6, 15, 2, 16⟩],
  [⟨20, 4, 81, 0, 0⟩, ⟨30, 1, 50, 4, 51⟩, ⟨28, 4, 22, 4, 23⟩, ⟨24, 3, 12, 8, 13⟩],
  [⟨24, 2, 92, 2, 93⟩, ⟨22, 6, 36, 2, 37⟩, ⟨26, 4, 20, 6, 21⟩, ⟨28, 7, 14, 4, 15⟩],
  [⟨26, 4, 107, 0, 0⟩, ⟨22, 8, 37, 1, 38⟩, ⟨24, 8, 20, 4, 21⟩, ⟨22, 12, 11, 4, 12⟩],
  [⟨30, 3, 115, 1, 116⟩, ⟨24, 4, 40, 5, 41⟩, ⟨20, 11, 16, 5, 17⟩, ⟨24, 11, 12, 5, 13⟩],
  [⟨22, 5, 87, 1, 88⟩, ⟨24, 5, 41, 5, 42⟩, ⟨30, 5, 24, 7, 25⟩, ⟨24, 11, 12, 7, 13⟩],
  [⟨24, 5, 98, 1, 99⟩, ⟨28, 7, 45, 3, 46⟩, ⟨24, 15, 19, 2, 20⟩, ⟨30, 3, 15, 13, 16⟩]]

/-- `BLKTAB`, versions 17 to 24: per version the entries for L, M, Q, H (R160). -/
def blktab17to24 : List (List BlockEntry) := [
  [⟨28, 1, 107, 5, 108⟩, ⟨28, 10, 46, 1, 47⟩, ⟨28, 1, 22, 15, 23⟩, ⟨28, 2, 14, 17, 15⟩],
  [⟨30, 5, 120, 1, 121⟩, ⟨26, 9, 43, 4, 44⟩, ⟨28, 17, 22, 1, 23⟩, ⟨28, 2, 14, 19, 15⟩],
  [⟨28, 3, 113, 4, 114⟩, ⟨26, 3, 44, 11, 45⟩, ⟨26, 17, 21, 4, 22⟩, ⟨26, 9, 13, 16, 14⟩],
  [⟨28, 3, 107, 5, 108⟩, ⟨26, 3, 41, 13, 42⟩, ⟨30, 15, 24, 5, 25⟩, ⟨28, 15, 15, 10, 16⟩],
  [⟨28, 4, 116, 4, 117⟩, ⟨26, 17, 42, 0, 0⟩, ⟨28, 17, 22, 6, 23⟩, ⟨30, 19, 16, 6, 17⟩],
  [⟨28, 2, 111, 7, 112⟩, ⟨28, 17, 46, 0, 0⟩, ⟨30, 7, 24, 16, 25⟩, ⟨24, 34, 13, 0, 0⟩],
  [⟨30, 4, 121, 5, 122⟩, ⟨28, 4, 47, 14, 48⟩, ⟨30, 11, 24, 14, 25⟩, ⟨30, 16, 15, 14, 16⟩],
  [⟨30, 6, 117, 4, 118⟩, ⟨28, 6, 45, 14, 46⟩, ⟨30, 11, 24, 16, 25⟩, ⟨30, 30, 16, 2, 17⟩]]

/-- `BLKTAB`, versions 25 to 32: per version the entries for L, M, Q, H (R160). -/
def blktab25to32 : List (List BlockEntry) := [
  [⟨26, 8, 106, 4, 107⟩, ⟨28, 8, 47, 13, 48⟩, ⟨30, 7, 24, 22, 25⟩, ⟨30, 22, 15, 13, 16⟩],
  [⟨28, 10, 114, 2, 115⟩, ⟨28, 19, 46, 4, 47⟩, ⟨28, 28, 22, 6, 23⟩, ⟨30, 33, 16, 4, 17⟩],
  [⟨30, 8, 122, 4, 123⟩, ⟨28, 22, 45, 3, 46⟩, ⟨30, 8, 23, 26, 24⟩, ⟨30, 12, 15, 28, 16⟩],
  [⟨30, 3, 117, 10, 118⟩, ⟨28, 3, 45, 23, 46⟩, ⟨30, 4, 24, 31, 25⟩, ⟨30, 11, 15, 31, 16⟩],
  [⟨30, 7, 116, 7, 117⟩, ⟨28, 21, 45, 7, 46⟩, ⟨30, 1, 23, 37, 24⟩, ⟨30, 19, 15, 26, 16⟩],
  [⟨30, 5, 115, 10, 116⟩, ⟨28, 19, 47, 10, 48⟩, ⟨30, 15, 24, 25, 25⟩, ⟨30, 23, 15, 25, 16⟩],
  [⟨30, 13, 115, 3, 116⟩, ⟨28, 2, 46, 29, 47⟩, ⟨30, 42, 24, 1, 25⟩, ⟨30, 23, 15, 28, 16⟩],
  [⟨30, 17, 115, 0, 0⟩, ⟨28, 10, 46, 23, 47⟩, ⟨30, 10, 24, 35, 25⟩, ⟨30, 19, 15, 35, 16⟩]]

/-- `BLKTAB`, versions 33 to 40: per version the entries for L, M, Q, H (R160). -/
def blktab33to40 : List (List BlockEntry) := [
  [⟨30, 17, 115, 1, 116⟩, ⟨28, 14, 46, 21, 47⟩, ⟨30, 29, 24, 19, 25⟩, ⟨30, 11, 15, 46, 16⟩],
  [⟨30, 13, 115, 6, 116⟩, ⟨28, 14, 46, 23, 47⟩, ⟨30, 44, 24, 7, 25⟩, ⟨30, 59, 16, 1, 17⟩],
  [⟨30, 12, 121, 7, 122⟩, ⟨28, 12, 47, 26, 48⟩, ⟨30, 39, 24, 14, 25⟩, ⟨30, 22, 15, 41, 16⟩],
  [⟨30, 6, 121, 14, 122⟩, ⟨28, 6, 47, 34, 48⟩, ⟨30, 46, 24, 10, 25⟩, ⟨30, 2, 15, 64, 16⟩],
  [⟨30, 17, 122, 4, 123⟩, ⟨28, 29, 46, 14, 47⟩, ⟨30, 49, 24, 10, 25⟩, ⟨30, 24, 15, 46, 16⟩],
  [⟨30, 4, 122, 18, 123⟩, ⟨28, 13, 46, 32, 47⟩, ⟨30, 48, 24, 14, 25⟩, ⟨30, 42, 15, 32, 16⟩],
  [⟨30, 20, 117, 4, 118⟩, ⟨28, 40, 47, 7, 48⟩, ⟨30, 43, 24, 22, 25⟩, ⟨30, 10, 15, 67, 16⟩],
  [⟨30, 19, 118, 6, 119⟩, ⟨28, 18, 47, 31, 48⟩, ⟨30, 34, 24, 34, 25⟩, ⟨30, 20, 15, 61, 16⟩]]

/-- `BLKTAB` (R160): entry `ver - 1` holds the four levels of version `ver`. -/
def BLKTAB : List (List BlockEntry) :=
  blktab01to08 ++ blktab09to16 ++ blktab17to24 ++ blktab25to32 ++ blktab33to40

/-- `DCAP` of an entry (R112, R160). -/
def BlockEntry.dcap (e : BlockEntry) : Nat := e.nb1 * e.dc1 + e.nb2 * e.dc2

/-- `TOT` of an entry (R112, R161). -/
def BlockEntry.tot (e : BlockEntry) : Nat := e.dcap + (e.nb1 + e.nb2) * e.k

/-- `N(ver)` (00_scope.md R9). -/
def sideLength (ver : Nat) : Nat := 4 * ver + 17

/-- `RAW(ver)`: the modules not taken by function patterns, format or version information (R161). Given so
that the host can check its matrix; no command uses it. -/
def rawModules (ver : Nat) : Nat :=
  (16 * ver + 128) * ver + 64
    - (if ver ≥ 2 then let a := ver / 7 + 2; (25 * a - 10) * a - 55 else 0)
    - (if ver ≥ 7 then 36 else 0)

/-! ### The packer's tables -/

/-- The three segment modes (R123). -/
inductive Mode where
  | numeric
  | alphanumeric
  | byte
deriving DecidableEq, Repr

/-- `MODEIND`: the 4-bit indicator of a mode (R123, values the spec supplies). -/
def MODEIND : Mode → Nat
  | .numeric => 1
  | .alphanumeric => 2
  | .byte => 4

/-- `CCIW`: the width of the length field by mode and tier (R124, widths the spec supplies). -/
def CCIW (m : Mode) (t : Nat) : Nat :=
  match m, t with
  | .numeric, 0 => 10
  | .numeric, 1 => 12
  | .numeric, _ => 14
  | .alphanumeric, 0 => 9
  | .alphanumeric, 1 => 11
  | .alphanumeric, _ => 13
  | .byte, 0 => 8
  | .byte, _ => 16

/-- `ALNUM`: the codes of the 45 characters in the order of their values 0..44, `0`–`9`, `A`–`Z`, space,
`$ % * + - . / :` (R128, a table the spec supplies). -/
def ALNUM : List Nat :=
  [0x30, 0x31, 0x32, 0x33, 0x34, 0x35, 0x36, 0x37, 0x38, 0x39,
   0x41, 0x42, 0x43, 0x44, 0x45, 0x46, 0x47, 0x48, 0x49, 0x4A, 0x4B, 0x4C, 0x4D,
   0x4E, 0x4F, 0x50, 0x51, 0x52, 0x53, 0x54, 0x55, 0x56, 0x57, 0x58, 0x59, 0x5A,
   0x20, 0x24, 0x25, 0x2A, 0x2B, 0x2D, 0x2E, 0x2F, 0x3A]

/-! ### The masks -/

/-- `MASKF(k, r, c)`: mask `k` flips the module at row `r`, column `c` (R184, formulas the spec
supplies). -/
def MASKF (k r c : Nat) : Bool :=
  match k with
  | 0 => (r + c) % 2 == 0
  | 1 => r % 2 == 0
  | 2 => c % 3 == 0
  | 3 => (r + c) % 3 == 0
  | 4 => (r / 2 + c / 3) % 2 == 0
  | 5 => r * c % 2 + r * c % 3 == 0
  | 6 => (r * c % 2 + r * c % 3) % 2 == 0
  | 7 => ((r + c) % 2 + r * c % 3) % 2 == 0
  | _ => false

end Sys2Proof.Machine
end

