-- ==== Sys2Proof/Machine/Params.lean ====
section
/-! DEFINITION. The parameters of the block: the read-only tables of spec 00_scope.md R10, which are no state
(R7, 10_state.md R44) and which every operation that uses one takes as an argument, with the values the spec
prints as defaults. -/

namespace Sys2Proof.Machine

/-- The table parameters of R10, each with its printed default. -/
structure Params where
  /-- The field polynomial as a 9-bit number (42_gf256.md R140). -/
  PRIM : Nat := Config.PRIM
  /-- The base of the log and antilog tables (42_gf256.md R141). -/
  ALPHA : Byte := Config.ALPHA
  /-- The exponent of the first root of every generator polynomial (42_gf256.md R147). -/
  GENROOT0 : Nat := Config.GENROOT0
  /-- Per version the block structures of L, M, Q, H (43_rs_coder.md R160). -/
  BLKTAB : List (List BlockEntry) := Sys2Proof.Machine.BLKTAB
  /-- The 4-bit mode indicators (41_packer.md R123). -/
  MODEIND : Mode → Nat := Sys2Proof.Machine.MODEIND
  /-- The length-field widths by mode and tier (41_packer.md R124). -/
  CCIW : Mode → Nat → Nat := Sys2Proof.Machine.CCIW
  /-- The codes of the alphanumeric characters in the order of their values (41_packer.md R128). -/
  ALNUM : List Nat := Sys2Proof.Machine.ALNUM
  /-- The mask predicates, by mask, row and column (44_mask_scorer.md R184). -/
  MASKF : Nat → Nat → Nat → Bool := Sys2Proof.Machine.MASKF
  /-- The weights of the four penalty rules (44_mask_scorer.md R187 to R190). -/
  W1 : Nat := Config.W1
  W2 : Nat := Config.W2
  W3 : Nat := Config.W3
  W4 : Nat := Config.W4

/-- The block with the tables the spec prints. -/
def standard : Params := {}

/-- `BLKTAB[ver][ecl]` for `ver` in 1..40 and `ecl` in 0..3 (43_rs_coder.md R160). -/
def blockEntry (p : Params) (ver ecl : Nat) : BlockEntry :=
  ((p.BLKTAB[ver - 1]?).getD [])[ecl]?.getD ⟨0, 0, 0, 0, 0⟩

end Sys2Proof.Machine
end

