-- ==== Sys2Proof/Machine/Gf256.lean ====
section
/-! DEFINITION. GF(256), the generator polynomials, and the field queries `GFMUL`, `GFDIV`, `GFEXP`, `GFLOG`,
`GENC` (spec 42_gf256.md). The parameters `PRIM`, `ALPHA` and `GENROOT0` are arguments (00_scope.md R10). -/

namespace Sys2Proof.Machine

/-! ### The field -/

/-- `x` times an element: shift left and, when bit 7 was 1, subtract `PRIM`; kept to 8 bits (R140, R141). -/
def xtime (p : Params) (a : Byte) : Byte :=
  (a <<< 1) ^^^ (if a.getLsbD 7 then BitVec.ofNat 8 p.PRIM else 0)

/-- `gmul(a, b)`: the product of the two polynomials reduced modulo `PRIM`, bits of `b` from the highest to
the lowest (R140; R142 lets a model use this form). -/
def gmul (p : Params) (a b : Byte) : Byte :=
  [7, 6, 5, 4, 3, 2, 1, 0].foldl (fun acc j => xtime p acc ^^^ (if b.getLsbD j then a else 0)) 0

/-- `gexp(i) = EXP[i] = ALPHA^i` (R141, R144). -/
def gexp (p : Params) : Nat → Byte
  | 0 => 1
  | i + 1 => gmul p (gexp p i) p.ALPHA

/-- The least exponent `j ≥ i` with `ALPHA^j = a`, where `e` is `ALPHA^i`, looking at `fuel` exponents. -/
def glogFrom (p : Params) (a : Byte) : Nat → Nat → Byte → Nat
  | 0, i, _ => i
  | fuel + 1, i, e => if e = a then i else glogFrom p a fuel (i + 1) (gmul p e p.ALPHA)

/-- `glog(a) = LOG[a]` for `a ≠ 0`: the exponent in 0..254 with `EXP[glog a] = a` (R141, R145). -/
def glog (p : Params) (a : Byte) : Nat := glogFrom p a 254 0 1

/-- `gdiv(a, b)` for `b ≠ 0` (R143). -/
def gdiv (p : Params) (a b : Byte) : Byte :=
  if a = 0 then 0 else gexp p ((glog p a + 255 - glog p b) % 255)

/-! ### Generator polynomials -/

/-- A polynomial, coefficient of `x^j` at place `j`, times `x + r` (R147). -/
def mulByRoot (p : Params) (g : List Byte) (r : Byte) : List Byte :=
  List.zipWith (· ^^^ ·) (0 :: g) (g.map (gmul p r) ++ [0])

/-- `gen(k)`, coefficient of `x^j` at place `j` (R147). -/
def gen (p : Params) : Nat → List Byte
  | 0 => [1]
  | k + 1 => mulByRoot p (gen p k) (gexp p (p.GENROOT0 + k))

/-- `gen(k)[j]`, the coefficient of `x^j` (R147). -/
def genCoefficient (p : Params) (k j : Nat) : Byte := (gen p k).getD j 0

/-! ### The queries -/

/-- A codeword returned in `resp[7:0]`, the bits above zero (00_scope.md R14). -/
def codewordResponse (b : Byte) : Word := b.setWidth 32

/-- `GFMUL a, b` (R149). -/
def gfmulBody (p : Params) (a b : Nat) : Body := fun s =>
  .ok (s, codewordResponse (gmul p (BitVec.ofNat 8 a) (BitVec.ofNat 8 b)))

/-- `GFMUL a, b` (R149). -/
def execGfmul (a b : Nat) (s : State) : Result := command (.gfmul a b) (gfmulBody standard a b) s

/-- `GFDIV a, b` (R150). -/
def gfdivBody (p : Params) (a b : Nat) : Body := fun s =>
  if b = 0 then .error .gfDomain
  else .ok (s, codewordResponse (gdiv p (BitVec.ofNat 8 a) (BitVec.ofNat 8 b)))

/-- `GFDIV a, b` (R150). -/
def execGfdiv (a b : Nat) (s : State) : Result := command (.gfdiv a b) (gfdivBody standard a b) s

/-- `GFEXP i` (R151). -/
def gfexpBody (p : Params) (b : Nat) : Body := fun s => .ok (s, codewordResponse (gexp p b))

/-- `GFEXP i` (R151). -/
def execGfexp (b : Nat) (s : State) : Result := command (.gfexp b) (gfexpBody standard b) s

/-- `GFLOG a` (R152). -/
def gflogBody (p : Params) (b : Nat) : Body := fun s =>
  if b = 0 then .error .gfDomain
  else .ok (s, BitVec.ofNat 32 (glog p (BitVec.ofNat 8 b)))

/-- `GFLOG a` (R152). -/
def execGflog (b : Nat) (s : State) : Result := command (.gflog b) (gflogBody standard b) s

/-- `GENC k, i` (R153). -/
def gencBody (p : Params) (a b : Nat) : Body := fun s =>
  if a < 1 ∨ Config.KMAX < a then .error .badOperand
  else if a < b then .error .badOperand
  else .ok (s, codewordResponse (genCoefficient p a b))

/-- `GENC k, i` (R153). -/
def execGenc (a b : Nat) (s : State) : Result := command (.genc a b) (gencBody standard a b) s

end Sys2Proof.Machine
end

