-- ==== Sys2Proof/Machine/Coder.lean ====
section
/-! DEFINITION. The Reed–Solomon coder and the interleaver: `ECC`, `ILV` (spec 43_rs_coder.md). -/

namespace Sys2Proof.Machine

/-! ### The block split -/

/-- `NB`, the number of blocks (R162). -/
def blockCount (s : Block) : Nat := s.nb1.toNat + s.nb2.toNat

/-- `len(b)` (R162). -/
def blockLength (s : Block) (b : Nat) : Nat := if b < s.nb1.toNat then s.dc1.toNat else s.dc2.toNat

/-- `start(b)` (R162). -/
def blockStart (s : Block) (b : Nat) : Nat :=
  if b ≤ s.nb1.toNat then b * s.dc1.toNat
  else s.nb1.toNat * s.dc1.toNat + (b - s.nb1.toNat) * s.dc2.toNat

/-- Block `b` of the filled codeword sequence (R162). -/
def blockData (s : Block) (b : Nat) : List Byte :=
  (List.range (blockLength s b)).map fun i => readCodeword s.dbuf (blockStart s b + i)

/-! ### The remainder -/

/-- `g[K-1], …, g[0]`: the coefficients of `gen(K)` below the leading 1, highest first (R164). -/
def feedback (p : Params) (k : Nat) : List Byte := ((gen p k).take k).reverse

/-- One round of `rsrem` (R164): with `f = d xor r[0]`, each `r[j]` becomes `r[j+1] xor gmul(g[K-1-j], f)`,
and `r[K-1]` becomes `gmul(g[0], f)`. -/
def rsStep (p : Params) (fb r : List Byte) (d : Byte) : List Byte :=
  let f := d ^^^ r.headD 0
  List.zipWith (fun x g => x ^^^ gmul p g f) (r.drop 1 ++ [0]) fb

/-- `rsrem(d, K)`: the remainder of `d(x) x^K` by `gen(K)`, highest power first (R163, R164). -/
def rsrem (p : Params) (d : List Byte) (k : Nat) : List Byte :=
  d.foldl (rsStep p (feedback p k)) (List.replicate k 0)

/-! ### The commands -/

/-- EBUF with the correction codewords of every block, block after block (R166, R167). -/
def correctionBuffer (p : Params) (s : Block) : Buffer :=
  (List.range (blockCount s)).foldl
    (fun m b => writeCodewords Config.EMAX m (b * s.k.toNat) (rsrem p (blockData s b) s.k.toNat)) s.ebuf

/-- Correction codewords computed; phase `CODED` (R166). -/
def codeBlocks (p : Params) (s : Block) : Block :=
  { s with phase := .coded, ebuf := correctionBuffer p s }

/-- `ECC` (R166). -/
def eccBody (p : Params) : Body := fun s => .ok (codeBlocks p s, 0)

/-- `ECC` (R166). -/
def execEcc (s : State) : Result := command .ecc (eccBody standard) s

/-- Round `i` of the data part: codeword `i` of every block that has one, in block order (R169). -/
def dataRound (s : Block) (i : Nat) : List Byte :=
  ((List.range (blockCount s)).filter fun b => decide (i < blockLength s b)).map
    fun b => readCodeword s.dbuf (blockStart s b + i)

/-- Round `i` of the correction part (R169). -/
def correctionRound (s : Block) (i : Nat) : List Byte :=
  (List.range (blockCount s)).map fun b => readCodeword s.ebuf (b * s.k.toNat + i)

/-- The interleaved stream (R169). -/
def interleaved (s : Block) : List Byte :=
  (List.range (max s.dc1.toNat s.dc2.toNat)).flatMap (dataRound s)
    ++ (List.range s.k.toNat).flatMap (correctionRound s)

/-- The interleaved stream in OBUF; phase `STREAMED` (R168). -/
def interleaveStream (s : Block) : Block :=
  { s with phase := .streamed, obuf := writeCodewords Config.TMAX s.obuf 0 (interleaved s) }

/-- `ILV` (R168). -/
def ilvBody : Body := fun s => .ok (interleaveStream s, 0)

/-- `ILV` (R168). -/
def execIlv (s : State) : Result := command .ilv ilvBody s

end Sys2Proof.Machine
end

