-- ==== Sys2Proof/Machine/Control.lean ====
section
/-! DEFINITION. The control commands `NOP`, `RST`, `CFG` (spec 40_control.md): of each command the checks and
writes past the phase check, and the command itself. -/

namespace Sys2Proof.Machine

/-- `NOP` (R110): nothing is written. -/
def nopBody : Body := fun s => .ok (s, 0)

/-- `NOP` (R110). -/
def execNop (s : State) : Result := command .nop nopBody s

/-- `RST` (R111): every item of state takes its reset value. -/
def rstBody : Body := fun _ => .ok (Block.reset, 0)

/-- `RST` (R111). -/
def execRst (s : State) : Result := command .rst rstBody s

/-- Version and level fixed and the geometry loaded from `BLKTAB`; phase `PACKING` (R112). -/
def configure (p : Params) (ver ecl : Nat) (s : Block) : Block :=
  let e := blockEntry p ver ecl
  { s with
    phase := .packing
    ver := BitVec.ofNat 6 ver
    ecl := BitVec.ofNat 2 ecl
    n := BitVec.ofNat 8 (sideLength ver)
    tot := BitVec.ofNat 12 e.tot
    dcap := BitVec.ofNat 12 e.dcap
    k := BitVec.ofNat 5 e.k
    nb1 := BitVec.ofNat 7 e.nb1
    dc1 := BitVec.ofNat 8 e.dc1
    nb2 := BitVec.ofNat 7 e.nb2
    dc2 := BitVec.ofNat 8 e.dc2
    bitlen := 0 }

/-- `CFG ver, ecl` (R112). -/
def cfgBody (p : Params) (ver ecl : Nat) : Body := fun s =>
  if ver < Config.VERMIN ∨ Config.VERMAX < ver then .error .invalidOption
  else .ok (configure p ver ecl s, 0)

/-- `CFG ver, ecl` (R112). -/
def execCfg (ver ecl : Nat) (s : State) : Result :=
  command (.cfg ver ecl) (cfgBody standard ver ecl) s

end Sys2Proof.Machine
end

