-- ==== Sys2Proof/Machine/Operands.lean ====
section
/-! DEFINITION. The operand forms: digits and alphanumeric characters (spec 41_packer.md R126, R128), modes
and length fields (R123, R124), module tags (10_state.md R33), and the register map `RDR` reads
(10_state.md R37). -/

namespace Sys2Proof.Machine

/-! ### Characters -/

/-- A character code is a digit (R126). -/
def isDigit (ch : Nat) : Bool := decide (0x30 ≤ ch) && decide (ch ≤ 0x39)

/-- The value of a digit (R126). -/
def digitValue (ch : Nat) : Nat := ch - 0x30

/-- The position of `x` in a list, counted from `i`. -/
def positionFrom (x i : Nat) : List Nat → Option Nat
  | [] => none
  | y :: rest => if y = x then some i else positionFrom x (i + 1) rest

/-- The value of an alphanumeric character, none for a code outside the set (R128). -/
def alnumValue (p : Params) (ch : Nat) : Option Nat := positionFrom ch 0 p.ALNUM

/-! ### Modes and length fields -/

/-- The mode an indicator value stands for; every other value is not accepted (R123). -/
def modeOfIndicator (p : Params) (m : Nat) : Option Mode :=
  if m = p.MODEIND .numeric then some .numeric
  else if m = p.MODEIND .alphanumeric then some .alphanumeric
  else if m = p.MODEIND .byte then some .byte
  else none

/-- The tier of a version (R124). -/
def tier (ver : Nat) : Nat := if ver ≤ 9 then 0 else if ver ≤ 26 then 1 else 2

/-! ### Module tags -/

/-- The tag a commanded tag value writes; 0 and 3 write nothing (10_state.md R33, 44_mask_scorer.md
R182). -/
def commandedTag (t : Nat) : Option Tag :=
  if t = 1 then some .data else if t = 2 then some .reserved else none

/-! ### The register map -/

/-- The 32-bit value of the register at `addr`, none at an unmapped address (10_state.md R37, R38). -/
def readRegister (s : Block) (addr : Nat) : Option Word :=
  if addr = 0x00 then some (statusWord s)
  else if addr = 0x01 then some (cfgrWord s)
  else if addr = 0x02 then some (s.n.setWidth 32)
  else if addr = 0x03 then some (s.tot.setWidth 32)
  else if addr = 0x04 then some (s.dcap.setWidth 32)
  else if addr = 0x05 then some (s.k.setWidth 32)
  else if addr = 0x06 then some (s.nb1.setWidth 32)
  else if addr = 0x07 then some (s.dc1.setWidth 32)
  else if addr = 0x08 then some (s.nb2.setWidth 32)
  else if addr = 0x09 then some (s.dc2.setWidth 32)
  else if addr = 0x0A then some (s.bitlen.setWidth 32)
  else if addr = 0x0B then some (s.best.setWidth 32)
  else if addr = 0x0C then some s.finfo
  else if addr = 0x0F then some Config.ID
  else if h : 0x10 ≤ addr ∧ addr < 0x18 then some (s.pen[addr - 0x10])
  else if h : 0x20 ≤ addr ∧ addr < 0x40 then some (s.penr[(addr - 0x20) / 4][(addr - 0x20) % 4])
  else none

end Sys2Proof.Machine
end

