-- ==== Sys2Proof/Machine/Packer.lean ====
section
/-! DEFINITION. The bitstream packer: `PUTB`, `PHDR`, `PNUM1`, `PNUM2`, `PNUM3`, `PALN1`, `PALN2`, `PBYTE`,
`PFIN` (spec 41_packer.md). -/

namespace Sys2Proof.Machine

/-- The capacity of the data bitstream in bits (R121). -/
def capacityBits (s : Block) : Nat := 8 * s.dcap.toNat

/-- `w` more bits fit the stream (R121). -/
def fits (s : Block) (w : Nat) : Bool := decide (s.bitlen.toNat + w ≤ capacityBits s)

/-- The writes of `AppendBits(v, w)` (R120): the `w` bits of `v` at the end of the stream, most significant
first, and `BITLEN` advanced by `w`. -/
def appendField (v w : Nat) (s : Block) : Block :=
  { s with
    dbuf := writeField s.dbuf s.bitlen.toNat v w
    bitlen := BitVec.ofNat 15 (s.bitlen.toNat + w) }

/-- `AppendBits(v, w)` (R120): the fit test, then the writes; the command returns 0. -/
def appendBits (v w : Nat) (s : Block) : Except FaultCode (Block × Word) :=
  if fits s w then .ok (appendField v w s, 0) else .error .dataTooLong

/-- `PUTB width, value` (R122). -/
def putbBody (width value : Nat) : Body := fun s =>
  if width < 1 ∨ 16 < width then .error .badOperand
  else if 2 ^ width ≤ value then .error .badOperand
  else appendBits value width s

/-- `PUTB width, value` (R122). -/
def execPutb (width value : Nat) (s : State) : Result :=
  command (.putb width value) (putbBody width value) s

/-- `PHDR mode, count` (R125): both fields or neither. -/
def phdrBody (p : Params) (mode count : Nat) : Body := fun s =>
  match modeOfIndicator p mode with
  | none => .error .badOperand
  | some m =>
    let w := p.CCIW m (tier s.ver.toNat)
    if 2 ^ w ≤ count then .error .badOperand
    else if fits s (4 + w) then .ok (appendField count w (appendField mode 4 s), 0)
    else .error .dataTooLong

/-- `PHDR mode, count` (R125). -/
def execPhdr (mode count : Nat) (s : State) : Result :=
  command (.phdr mode count) (phdrBody standard mode count) s

/-- `PNUM1 c0` (R127). -/
def pnum1Body (c0 : Nat) : Body := fun s =>
  if isDigit c0 then appendBits (digitValue c0) 4 s else .error .unsupportedCharacter

/-- `PNUM1 c0` (R127). -/
def execPnum1 (c0 : Nat) (s : State) : Result := command (.pnum1 c0) (pnum1Body c0) s

/-- `PNUM2 c0, c1` (R129). -/
def pnum2Body (c0 c1 : Nat) : Body := fun s =>
  if isDigit c0 && isDigit c1 then appendBits (10 * digitValue c0 + digitValue c1) 7 s
  else .error .unsupportedCharacter

/-- `PNUM2 c0, c1` (R129). -/
def execPnum2 (c0 c1 : Nat) (s : State) : Result := command (.pnum2 c0 c1) (pnum2Body c0 c1) s

/-- `PNUM3 c0, c1, c2` (R130). -/
def pnum3Body (c0 c1 c2 : Nat) : Body := fun s =>
  if isDigit c0 && isDigit c1 && isDigit c2 then
    appendBits (100 * digitValue c0 + 10 * digitValue c1 + digitValue c2) 10 s
  else .error .unsupportedCharacter

/-- `PNUM3 c0, c1, c2` (R130). -/
def execPnum3 (c0 c1 c2 : Nat) (s : State) : Result := command (.pnum3 c0 c1 c2) (pnum3Body c0 c1 c2) s

/-- `PALN1 c0` (R131). -/
def paln1Body (p : Params) (c0 : Nat) : Body := fun s =>
  match alnumValue p c0 with
  | some a => appendBits a 6 s
  | none => .error .unsupportedCharacter

/-- `PALN1 c0` (R131). -/
def execPaln1 (c0 : Nat) (s : State) : Result := command (.paln1 c0) (paln1Body standard c0) s

/-- `PALN2 c0, c1` (R132). -/
def paln2Body (p : Params) (c0 c1 : Nat) : Body := fun s =>
  match alnumValue p c0, alnumValue p c1 with
  | some a, some b => appendBits (45 * a + b) 11 s
  | _, _ => .error .unsupportedCharacter

/-- `PALN2 c0, c1` (R132). -/
def execPaln2 (c0 c1 : Nat) (s : State) : Result := command (.paln2 c0 c1) (paln2Body standard c0 c1) s

/-- `PBYTE c0` (R133). -/
def pbyteBody (c0 : Nat) : Body := fun s => appendBits c0 8 s

/-- `PBYTE c0` (R133). -/
def execPbyte (c0 : Nat) (s : State) : Result := command (.pbyte c0) (pbyteBody c0) s

/-! ### Finishing -/

/-- The bits of the terminator: four, or what remains (R134). -/
def terminatorBits (s : Block) : Nat := min 4 (capacityBits s - s.bitlen.toNat)

/-- The stream's length once the terminator and the zero bits to the next codeword boundary are counted in
(R134). Those bits are zero already (10_state.md R29). -/
def paddedLength (s : Block) : Nat :=
  let b := s.bitlen.toNat + terminatorBits s
  b + (8 - b % 8) % 8

/-- Pad codeword `i`, counted from the first pad codeword (R134). -/
def padCodeword (i : Nat) : Byte := if i % 2 = 0 then 0xEC else 0x11

/-- The pad codewords that fill the stream to its capacity (R134). -/
def padCodewords (s : Block) : List Byte :=
  (List.range (s.dcap.toNat - paddedLength s / 8)).map padCodeword

/-- The stream completed to its capacity; phase `FILLED` (R134). -/
def fillStream (s : Block) : Block :=
  { s with
    phase := .filled
    dbuf := writeCodewords Config.DMAX s.dbuf (paddedLength s / 8) (padCodewords s)
    bitlen := BitVec.ofNat 15 (paddedLength s + 8 * (padCodewords s).length) }

/-- `PFIN` (R134, R135). -/
def pfinBody : Body := fun s => .ok (fillStream s, 0)

/-- `PFIN` (R134, R135). -/
def execPfin (s : State) : Result := command .pfin pfinBody s

end Sys2Proof.Machine
end

