-- ==== Sys2Proof/Machine/Scorer.lean ====
section
/-! DEFINITION. The module matrix and the mask scorer: `MSET`, `SCORE` (spec 44_mask_scorer.md). -/

namespace Sys2Proof.Machine

/-! ### The matrix -/

/-- One module of the matrix written (R181). -/
def loadModule (row col : Nat) (v : Module) (s : Block) : Block :=
  { s with mod := writeModule s.mod row col v }

/-- `MSET row, col, tag, dark` (R181, R182). -/
def msetBody (row col tag : Nat) (dark : Bool) : Body := fun s =>
  if s.n.toNat ≤ row ∨ s.n.toNat ≤ col then .error .badOperand
  else
    match commandedTag tag with
    | none => .error .badOperand
    | some t =>
      if (readModule s.mod row col).tag = .reserved then .error .reservedOverwrite
      else .ok (loadModule row col ⟨t, dark⟩ s, 0)

/-- `MSET row, col, tag, dark` (R181, R182). -/
def execMset (row col tag : Nat) (dark : Bool) (s : State) : Result :=
  command (.mset row col tag dark) (msetBody row col tag dark) s

/-! ### Masks -/

/-- The colour of module `m` at `(r, c)` under mask `k`: only Data modules are flipped (R185). -/
def maskedDark (p : Params) (k r c : Nat) (m : Module) : Bool :=
  if m.tag = .data && p.MASKF k r c then !m.dark else m.dark

/-- The modules of row `r` that are listed. -/
def listedInRow (m : Matrix) (r : Nat) : Matrix := m.filter fun e => e.1 / 2 ^ 8 == r

/-- Row `r` of the matrix, columns `0 .. n-1`. -/
def moduleRow (n : Nat) (m : Matrix) (r : Nat) : List Module :=
  let row := listedInRow m r
  (List.range n).map fun c => readModule row r c

/-- Candidate `C_k`: the `n` rows of its `n` modules, true for dark (R185). -/
def candidate (p : Params) (k n : Nat) (m : Matrix) : List (List Bool) :=
  (List.range n).map fun r => List.zipWith (maskedDark p k r) (List.range n) (moduleRow n m r)

/-! ### The four penalty rules -/

/-- The columns of a matrix with `n` columns. -/
def columns (n : Nat) (rows : List (List Bool)) : List (List Bool) :=
  (List.range n).map fun c => rows.map fun row => row.getD c false

/-- The `2N` lines: the rows, then the columns, each read by increasing index (section 3). -/
def linesOf (n : Nat) (rows : List (List Bool)) : List (List Bool) := rows ++ columns n rows

/-- The lengths of the runs of a line, where `len` modules of value `v` stand before it. -/
def runLengthsFrom (v : Bool) (len : Nat) : List Bool → List Nat
  | [] => [len]
  | x :: rest => if x = v then runLengthsFrom v (len + 1) rest else len :: runLengthsFrom x 1 rest

/-- The lengths of the runs of a line, in order (R186). -/
def runLengths : List Bool → List Nat
  | [] => []
  | x :: rest => runLengthsFrom x 1 rest

/-- What a run of length `len` adds under rule (a) (R187). -/
def runPenalty (p : Params) (len : Nat) : Nat := if 5 ≤ len then p.W1 + (len - 5) else 0

/-- Penalty rule (a), `PA` (R187). -/
def penaltyRuns (p : Params) (n : Nat) (rows : List (List Bool)) : Nat :=
  ((linesOf n rows).map fun line => ((runLengths line).map (runPenalty p)).sum).sum

/-- The 2 by 2 windows of one colour between two neighbouring rows (R188). -/
def uniformWindows : List Bool → List Bool → Nat
  | a :: b :: upper, c :: d :: lower =>
    (if a = b ∧ a = c ∧ a = d then 1 else 0) + uniformWindows (b :: upper) (d :: lower)
  | _, _ => 0

/-- Penalty rule (b), `PB` (R188). -/
def penaltyWindows (p : Params) (rows : List (List Bool)) : Nat :=
  p.W2 * (List.zipWith uniformWindows rows (rows.drop 1)).sum

/-- `P1`, dark true (R189). -/
def finderPattern1 : List Bool :=
  [true, false, true, true, true, false, true, false, false, false, false]

/-- `P2`, dark true (R189). -/
def finderPattern2 : List Bool :=
  [false, false, false, false, true, false, true, true, true, false, true]

/-- How many places of a line hold the pattern `p`, wholly inside the line (R189). -/
def patternMatches (p : List Bool) : List Bool → Nat
  | [] => 0
  | x :: rest => (if p.isPrefixOf (x :: rest) then 1 else 0) + patternMatches p rest

/-- Penalty rule (c), `PC` (R189). -/
def penaltyFinders (p : Params) (n : Nat) (rows : List (List Bool)) : Nat :=
  p.W3 * ((linesOf n rows).map fun line =>
    patternMatches finderPattern1 line + patternMatches finderPattern2 line).sum

/-- The dark modules of a matrix (R190). -/
def darkCount (rows : List (List Bool)) : Nat := (rows.map fun row => row.count true).sum

/-- `abs(a - b)` over the integers, for naturals (00_scope.md R13). -/
def absDifference (a b : Nat) : Nat := (a - b) + (b - a)

/-- Penalty rule (d), `PD` (R190). -/
def penaltyBalance (p : Params) (n : Nat) (rows : List (List Bool)) : Nat :=
  p.W4 * (absDifference (2 * darkCount rows) (n * n) * 10 / (n * n))

/-- The penalties of a matrix under rules (a), (b), (c), (d) (R187 to R190). -/
def rulePenalties (p : Params) (n : Nat) (rows : List (List Bool)) : Vector Word 4 :=
  #v[BitVec.ofNat 32 (penaltyRuns p n rows), BitVec.ofNat 32 (penaltyWindows p rows),
     BitVec.ofNat 32 (penaltyFinders p n rows), BitVec.ofNat 32 (penaltyBalance p n rows)]

/-- `PEN(C)`, the sum of the four (R191, R193). -/
def totalPenalty (p : Vector Word 4) : Word := p[0] + p[1] + p[2] + p[3]

/-! ### The command -/

/-- Some module inside the N by N area is still `Unset` (R194). -/
def hasUnset (n : Nat) (m : Matrix) : Bool :=
  (List.range n).any fun r => (moduleRow n m r).any fun md => md.tag == .unset

/-- One value for each of the eight masks. -/
def perMask {α : Type} (f : Fin 8 → α) : Vector α 8 := #v[f 0, f 1, f 2, f 3, f 4, f 5, f 6, f 7]

/-- `best`: the least index whose penalty is minimal (R192). -/
def bestMask (pen : Vector Word 8) : Fin 8 :=
  [1, 2, 3, 4, 5, 6, 7].foldl (fun b j => if pen.get j < pen.get b then j else b) 0

/-- The eight candidates scored and the lowest chosen; phase `MASKED` (R193). -/
def scoreMatrix (p : Params) (s : Block) : Block :=
  let penr := perMask fun j => rulePenalties p s.n.toNat (candidate p j.val s.n.toNat s.mod)
  let pen := perMask fun j => totalPenalty (penr.get j)
  { s with phase := .masked, penr := penr, pen := pen, best := BitVec.ofNat 3 (bestMask pen).val }

/-- `SCORE` (R193, R194). -/
def scoreBody (p : Params) : Body := fun s =>
  if hasUnset s.n.toNat s.mod then .error .unsetCell else .ok (scoreMatrix p s, 0)

/-- `SCORE` (R193, R194). -/
def execScore (s : State) : Result := command .score (scoreBody standard) s

end Sys2Proof.Machine
end

