-- ==== Sys2Proof/Machine/Readout.lean ====
section
/-! DEFINITION. The read-out commands `RDR`, `RDD`, `RDE`, `RDO`, `RDM` (spec 45_readout.md). -/

namespace Sys2Proof.Machine

/-- `RDR addr` (R210): the register's value before the command. In `FAULT` an unmapped address is refused
and not faulted (60_exceptions.md R227), which `fail` decides. -/
def rdrBody (addr : Nat) : Body := fun s =>
  match readRegister s addr with
  | some v => .ok (s, v)
  | none => .error .badOperand

/-- `RDR addr` (R210). -/
def execRdr (addr : Nat) (s : State) : Result := command (.rdr addr) (rdrBody addr) s

/-- Return codeword `idx` of a buffer with `valid` entries (45_readout.md R215; 20_memory.md R68). -/
def readEntry (m : Buffer) (valid idx : Nat) (s : Block) : Except FaultCode (Block × Word) :=
  if valid ≤ idx then .error .badOperand else .ok (s, codewordResponse (readCodeword m idx))

/-- `RDD idx` (R211). -/
def rddBody (idx : Nat) : Body := fun s => readEntry s.dbuf s.dcap.toNat idx s

/-- `RDD idx` (R211). -/
def execRdd (idx : Nat) (s : State) : Result := command (.rdd idx) (rddBody idx) s

/-- `RDE idx` (R212). -/
def rdeBody (idx : Nat) : Body := fun s => readEntry s.ebuf (s.tot.toNat - s.dcap.toNat) idx s

/-- `RDE idx` (R212). -/
def execRde (idx : Nat) (s : State) : Result := command (.rde idx) (rdeBody idx) s

/-- `RDO idx` (R213). -/
def rdoBody (idx : Nat) : Body := fun s => readEntry s.obuf s.tot.toNat idx s

/-- `RDO idx` (R213). -/
def execRdo (idx : Nat) (s : State) : Result := command (.rdo idx) (rdoBody idx) s

/-- A module in a response: bits 2:1 the tag, bit 0 its colour (R214). -/
def moduleResponse (m : Module) : Word := BitVec.ofNat 32 (m.tag.code.toNat * 2 + m.dark.toNat)

/-- Module `m` at `(row, col)` as `msel` selects it: under mask `msel` for 0..7, as loaded for 8 (R214). -/
def selectedModule (p : Params) (row col msel : Nat) (m : Module) : Module :=
  if msel < Config.NMASK then ⟨m.tag, maskedDark p msel row col m⟩ else m

/-- `RDM row, col, msel` (R214). -/
def rdmBody (p : Params) (row col msel : Nat) : Body := fun s =>
  if s.n.toNat ≤ row ∨ s.n.toNat ≤ col then .error .badOperand
  else if Config.NMASK < msel then .error .badOperand
  else .ok (s, moduleResponse (selectedModule p row col msel (readModule s.mod row col)))

/-- `RDM row, col, msel` (R214). -/
def execRdm (row col msel : Nat) (s : State) : Result :=
  command (.rdm row col msel) (rdmBody standard row col msel) s

end Sys2Proof.Machine
end

