-- ==== Sys2Proof/Machine/Dispatch.lean ====
section
/-! DEFINITION. The dispatch: one arm per command, each one direct call of that command's meaning
(spec 30_encoding.md R86). -/

namespace Sys2Proof.Machine

/-- What a command does in a state (R80, R90). -/
def exec (i : Instr) (s : State) : Host.Outcome State Fault Refusal :=
  match i with
  | .nop => Sys2Proof.Machine.execNop s
  | .rst => Sys2Proof.Machine.execRst s
  | .cfg ver ecl => Sys2Proof.Machine.execCfg ver ecl s
  | .putb width value => Sys2Proof.Machine.execPutb width value s
  | .phdr mode count => Sys2Proof.Machine.execPhdr mode count s
  | .pnum1 c0 => Sys2Proof.Machine.execPnum1 c0 s
  | .pnum2 c0 c1 => Sys2Proof.Machine.execPnum2 c0 c1 s
  | .pnum3 c0 c1 c2 => Sys2Proof.Machine.execPnum3 c0 c1 c2 s
  | .paln1 c0 => Sys2Proof.Machine.execPaln1 c0 s
  | .paln2 c0 c1 => Sys2Proof.Machine.execPaln2 c0 c1 s
  | .pbyte c0 => Sys2Proof.Machine.execPbyte c0 s
  | .pfin => Sys2Proof.Machine.execPfin s
  | .ecc => Sys2Proof.Machine.execEcc s
  | .ilv => Sys2Proof.Machine.execIlv s
  | .mset row col tag dark => Sys2Proof.Machine.execMset row col tag dark s
  | .score => Sys2Proof.Machine.execScore s
  | .rdr addr => Sys2Proof.Machine.execRdr addr s
  | .rdd idx => Sys2Proof.Machine.execRdd idx s
  | .rde idx => Sys2Proof.Machine.execRde idx s
  | .rdo idx => Sys2Proof.Machine.execRdo idx s
  | .rdm row col msel => Sys2Proof.Machine.execRdm row col msel s
  | .gfmul a b => Sys2Proof.Machine.execGfmul a b s
  | .gfdiv a b => Sys2Proof.Machine.execGfdiv a b s
  | .gfexp b => Sys2Proof.Machine.execGfexp b s
  | .gflog b => Sys2Proof.Machine.execGflog b s
  | .genc a b => Sys2Proof.Machine.execGenc a b s

end Sys2Proof.Machine
end

