-- ==== Sys2Proof/Machine/Step.lean ====
section
/-! DEFINITION. One step of the block: it takes the host's next input and completes it
(spec 30_encoding.md R80, R90). -/

namespace Sys2Proof.Machine

/-- One step. With nothing at its inputs the block is idle (60_exceptions.md R239; log entry 2); a pulse of
the reset input brings it to the reset state with no response (70_reset_and_hazards.md R250); a command word
is decoded and executed, or is illegal (R85, R90 step 2). -/
def step (s : State) : Host.Outcome State Fault Refusal :=
  match takeInput s with
  | .idle => .next s
  | .resetPulse t => .next (resetInput t)
  | .command cw t =>
    match decode cw with
    | .ok i => exec i t
    | .error _ => .next (t.give (illegalWord cw t.toBlock))

/-- `s` with the command word `w` presented as the host's very next input (log entry 2). -/
def State.withFetchWord (s : State) (nbits w : Nat) : State :=
  { s with inputs := .command (BitVec.ofNat 32 (w % 2 ^ nbits)) :: s.inputs }

end Sys2Proof.Machine
end

