-- ==== Sys2Proof/Machine/Assembler.lean ====
section
/-! DEFINITION. The host's notation for command words: the pseudo-instructions and the assembler lines of
spec 30_encoding.md R91 and R92. The block never sees them; they stand beside the machine so that a program
written in the notation has one meaning, the list of its commands. -/

namespace Sys2Proof.Machine

/-! ### Pseudo-instructions (R92), on character codes -/

/-- `PNUMS`: groups of three digits, then the two or the one left over. -/
def pnums : List Nat → List Instr
  | c0 :: c1 :: c2 :: rest => .pnum3 c0 c1 c2 :: pnums rest
  | [c0, c1] => [.pnum2 c0 c1]
  | [c0] => [.pnum1 c0]
  | [] => []

/-- `PALNS`: pairs of characters, then the one left over. -/
def palns : List Nat → List Instr
  | c0 :: c1 :: rest => .paln2 c0 c1 :: palns rest
  | [c0] => [.paln1 c0]
  | [] => []

/-- `PBYTES`: one command per byte. -/
def pbytes (cs : List Nat) : List Instr := cs.map .pbyte

/-- `SEGNUM`. -/
def segnum (cs : List Nat) : List Instr := .phdr (MODEIND .numeric) cs.length :: pnums cs

/-- `SEGALN`. -/
def segaln (cs : List Nat) : List Instr := .phdr (MODEIND .alphanumeric) cs.length :: palns cs

/-- `SEGBYTE`. -/
def segbyte (cs : List Nat) : List Instr := .phdr (MODEIND .byte) cs.length :: pbytes cs

/-- What a character of an `MROW` line loads: `#` and `.` a Reserved module, `1` and `0` a Data module. -/
def mrowModule : Char → Option (Nat × Bool)
  | '#' => some (2, true)
  | '.' => some (2, false)
  | '1' => some (1, true)
  | '0' => some (1, false)
  | _ => none

/-- `MROW r`, from column `c` on. -/
def mrowFrom (r c : Nat) : List Char → Option (List Instr)
  | [] => some []
  | x :: rest =>
    match mrowModule x, mrowFrom r (c + 1) rest with
    | some (tag, dark), some is => some (.mset r c tag dark :: is)
    | _, _ => none

/-! ### The text of a line (R91) -/

/-- The single quotation mark. -/
def singleQuote : Char := Char.ofNat 0x27

/-- The double quotation mark. -/
def doubleQuote : Char := Char.ofNat 0x22

/-- Where a position of a line stands with respect to quotations. A character operand is one character
between single quotation marks, whichever character it is, so the one after the opening mark is taken as it
stands, a quotation mark, a comma or a semicolon too; a text is closed by the next double quotation mark. R91
gives no quoting rule: this one is the model's choice (DESIGN CHOICE, log entry 12). -/
inductive Quotation where
  | none
  | opened
  | character
  | text
deriving DecidableEq, Repr

/-- Where the position after character `c` stands (log entry 12). -/
def quotationAfter (q : Quotation) (c : Char) : Quotation :=
  match q with
  | .none => if c = singleQuote then .opened else if c = doubleQuote then .text else .none
  | .opened => .character
  | .character => .none
  | .text => if c = doubleQuote then .none else .text

/-- A line up to its comment: `;` outside a quotation starts one. -/
def withoutComment (q : Quotation) : List Char → List Char
  | [] => []
  | c :: rest => if q = .none ∧ c = ';' then [] else c :: withoutComment (quotationAfter q c) rest

/-- A text cut at its commas outside quotations; `part` is the reversed text since the last comma. -/
def cutAtCommas (q : Quotation) (part : List Char) : List Char → List (List Char)
  | [] => [part.reverse]
  | c :: rest =>
    if q = .none ∧ c = ',' then part.reverse :: cutAtCommas .none [] rest
    else cutAtCommas (quotationAfter q c) (c :: part) rest

/-- A text without the spaces around it. -/
def trimmed (t : List Char) : List Char :=
  ((t.dropWhile Char.isWhitespace).reverse.dropWhile Char.isWhitespace).reverse

/-- The value of a hexadecimal digit. -/
def hexDigitValue (c : Char) : Option Nat :=
  let n := c.toNat
  if 0x30 ≤ n ∧ n ≤ 0x39 then some (n - 0x30)
  else if 0x41 ≤ n ∧ n ≤ 0x46 then some (n - 0x41 + 10)
  else if 0x61 ≤ n ∧ n ≤ 0x66 then some (n - 0x61 + 10)
  else none

/-- The number digits to a base spell, after those that spell `acc`. -/
def numberFrom (base acc : Nat) : List Char → Option Nat
  | [] => some acc
  | c :: rest =>
    match hexDigitValue c with
    | some d => if d < base then numberFrom base (acc * base + d) rest else none
    | none => none

/-- A number, decimal or hexadecimal with `0x`. -/
def parseNumber : List Char → Option Nat
  | '0' :: 'x' :: c :: rest => numberFrom 16 0 (c :: rest)
  | c :: rest => numberFrom 10 0 (c :: rest)
  | [] => none

/-- A number, or a quoted ASCII character as its code (R91). -/
def parsePlain (t : List Char) : Option Nat :=
  match t with
  | [a, c, b] => if a = singleQuote ∧ b = singleQuote ∧ c.toNat < 128 then some c.toNat else parseNumber t
  | _ => parseNumber t

/-- The names an operand may be written with: levels, modes and tags, and `RAW` of `RDM`. -/
def operandNames (mnemonic : String) : List (String × Nat) :=
  match mnemonic with
  | "CFG" => [("L", 0), ("M", 1), ("Q", 2), ("H", 3)]
  | "PHDR" => [("NUM", MODEIND .numeric), ("ALN", MODEIND .alphanumeric), ("BYTE", MODEIND .byte)]
  | "MSET" => [("D", 1), ("R", 2)]
  | "RDM" => [("RAW", 8)]
  | "RDR" => [("STATUS", 0x00), ("CFGR", 0x01), ("N", 0x02), ("TOT", 0x03), ("DCAP", 0x04), ("K", 0x05),
      ("NB1", 0x06), ("DC1", 0x07), ("NB2", 0x08), ("DC2", 0x09), ("BITLEN", 0x0A), ("BEST", 0x0B),
      ("FINFO", 0x0C), ("ID", 0x0F)]
  | _ => []

/-- A register name with an index, `PEN[k]` or `PENR[k][j]` (10_state.md R37). -/
def parseIndexedRegister : List Char → Option Nat
  | ['P', 'E', 'N', '[', k, ']'] =>
    match hexDigitValue k with
    | some k => if k < 8 then some (0x10 + k) else none
    | none => none
  | ['P', 'E', 'N', 'R', '[', k, ']', '[', j, ']'] =>
    match hexDigitValue k, hexDigitValue j with
    | some k, some j => if k < 8 ∧ j < 4 then some (0x20 + 4 * k + j) else none
    | _, _ => none
  | _ => none

/-- The name at operand place `place` of a mnemonic's line, as a number: `lvl` of `CFG`, `mode` of `PHDR`,
`tag` of `MSET`, `msel` of `RDM`, `addr` of `RDR`. -/
def parseName (mnemonic : String) (place : Nat) (t : List Char) : Option Nat :=
  let named := (operandNames mnemonic).find? fun e => e.1 == String.ofList t
  let here := match mnemonic with
    | "CFG" => place == 1
    | "PHDR" => place == 0
    | "MSET" => place == 2
    | "RDM" => place == 2
    | "RDR" => place == 0
    | _ => false
  if here then
    match named with
    | some e => some e.2
    | none => if mnemonic = "RDR" then parseIndexedRegister t else none
  else none

/-- The operands of a line as numbers, from operand place `place` on. -/
def parseOperands (mnemonic : String) (place : Nat) : List (List Char) → Option (List Nat)
  | [] => some []
  | t :: rest =>
    match (parseName mnemonic place t).or (parsePlain t), parseOperands mnemonic (place + 1) rest with
    | some n, some ns => some (n :: ns)
    | _, _ => none

/-- The command of a mnemonic and its operands, in the order R91 gives them. -/
def instrOf (mnemonic : String) (ops : List Nat) : Option Instr :=
  match mnemonic, ops with
  | "NOP", [] => some .nop
  | "RST", [] => some .rst
  | "CFG", [ver, lvl] => some (.cfg ver lvl)
  | "PUTB", [width, value] => some (.putb width value)
  | "PHDR", [mode, count] => some (.phdr mode count)
  | "PNUM1", [c0] => some (.pnum1 c0)
  | "PNUM2", [c0, c1] => some (.pnum2 c0 c1)
  | "PNUM3", [c0, c1, c2] => some (.pnum3 c0 c1 c2)
  | "PALN1", [c0] => some (.paln1 c0)
  | "PALN2", [c0, c1] => some (.paln2 c0 c1)
  | "PBYTE", [c0] => some (.pbyte c0)
  | "PFIN", [] => some .pfin
  | "ECC", [] => some .ecc
  | "ILV", [] => some .ilv
  | "MSET", [row, col, tag, 0] => some (.mset row col tag false)
  | "MSET", [row, col, tag, 1] => some (.mset row col tag true)
  | "SCORE", [] => some .score
  | "RDR", [addr] => some (.rdr addr)
  | "RDD", [idx] => some (.rdd idx)
  | "RDE", [idx] => some (.rde idx)
  | "RDO", [idx] => some (.rdo idx)
  | "RDM", [row, col, msel] => some (.rdm row col msel)
  | "GFMUL", [a, b] => some (.gfmul a b)
  | "GFDIV", [a, b] => some (.gfdiv a b)
  | "GFEXP", [i] => some (.gfexp i)
  | "GFLOG", [a] => some (.gflog a)
  | "GENC", [k, i] => some (.genc k i)
  | _, _ => none

/-- The characters of a text in double quotation marks. -/
def parseString : List Char → Option (List Char)
  | a :: rest =>
    match rest.reverse with
    | b :: body => if a = doubleQuote ∧ b = doubleQuote then some body.reverse else none
    | [] => none
  | [] => none

/-- The expansion of a pseudo-instruction (R92), none if the line is not one. -/
def expand (mnemonic : String) (parts : List (List Char)) : Option (List Instr) :=
  match mnemonic, parts with
  | "PNUMS", [t] => (parseString t).map fun cs => pnums (cs.map Char.toNat)
  | "PALNS", [t] => (parseString t).map fun cs => palns (cs.map Char.toNat)
  | "PBYTES", [t] => (parseString t).map fun cs => pbytes (cs.map Char.toNat)
  | "SEGNUM", [t] => (parseString t).map fun cs => segnum (cs.map Char.toNat)
  | "SEGALN", [t] => (parseString t).map fun cs => segaln (cs.map Char.toNat)
  | "SEGBYTE", [t] => (parseString t).map fun cs => segbyte (cs.map Char.toNat)
  | "MROW", [r, t] =>
    match parsePlain r, parseString t with
    | some r, some cs => mrowFrom r 0 cs
    | _, _ => none
  | _, _ => none

/-- The well-formed commands a line stands for: one command (R91), the expansion of a pseudo-instruction
(R92), or none for an empty line or a comment; `none` where the text is no line of the syntax. -/
def assembleLine (text : List Char) : Option (List Instr) :=
  let t := trimmed (withoutComment .none text)
  let mnemonic := String.ofList (t.takeWhile fun c => !c.isWhitespace)
  let rest := trimmed (t.dropWhile fun c => !c.isWhitespace)
  let parts := if rest = [] then [] else (cutAtCommas .none [] rest).map trimmed
  if t = [] then some []
  else
    let is :=
      match expand mnemonic parts with
      | some is => some is
      | none =>
        match parseOperands mnemonic 0 parts with
        | some ops => (instrOf mnemonic ops).map fun i => [i]
        | none => none
    match is with
    | some is => if is.all Instr.wf then some is else none
    | none => none

end Sys2Proof.Machine
end

