-- ==== Sys2Proof/Machine/BlockStep.lean ====
section
/-! DEFINITION. The block as the spec's function `Step` (30_encoding.md R80): from its state and a command
word to its state and a response, with the tables of 00_scope.md R10 as an argument; and the run of a
sequence of host events with its outcome (70_reset_and_hazards.md R256). -/

namespace Sys2Proof.Machine

/-- What a command checks and writes past the phase check, with the tables `p` (30_encoding.md R90). -/
def bodyOf (p : Params) (i : Instr) : Body :=
  match i with
  | .nop => nopBody
  | .rst => rstBody
  | .cfg ver ecl => cfgBody p ver ecl
  | .putb width value => putbBody width value
  | .phdr mode count => phdrBody p mode count
  | .pnum1 c0 => pnum1Body c0
  | .pnum2 c0 c1 => pnum2Body c0 c1
  | .pnum3 c0 c1 c2 => pnum3Body c0 c1 c2
  | .paln1 c0 => paln1Body p c0
  | .paln2 c0 c1 => paln2Body p c0 c1
  | .pbyte c0 => pbyteBody c0
  | .pfin => pfinBody
  | .ecc => eccBody p
  | .ilv => ilvBody
  | .mset row col tag dark => msetBody row col tag dark
  | .score => scoreBody p
  | .rdr addr => rdrBody addr
  | .rdd idx => rddBody idx
  | .rde idx => rdeBody idx
  | .rdo idx => rdoBody idx
  | .rdm row col msel => rdmBody p row col msel
  | .gfmul a b => gfmulBody p a b
  | .gfdiv a b => gfdivBody p a b
  | .gfexp b => gfexpBody p b
  | .gflog b => gflogBody p b
  | .genc a b => gencBody p a b

/-- `Step` of R80: the block takes one command word, executes it to completion and gives one response. -/
def blockStep (p : Params) (s : Block) (cw : Word) : Block × Response :=
  match decode cw with
  | .ok i => perform i (bodyOf p i) s
  | .error _ => illegalWord cw s

/-- A run (R256), which ends when its sequence is exhausted, and its outcome: the list of responses, one for
each command word in order, and the final state. A pulse of the reset input gives no response (R250). -/
def run (p : Params) : Block → List HostInput → List Response × Block
  | s, [] => ([], s)
  | s, .command cw :: rest =>
    let (t, r) := blockStep p s cw
    let (rs, u) := run p t rest
    (r :: rs, u)
  | _, .resetPulse :: rest => run p Block.reset rest

end Sys2Proof.Machine
end

