-- ==== Sys2Proof/Safety.lean ====
section
/-! DEFINITION. What a safe state is, in the terms the statements use: the invariants of spec 10_state.md
R39, clause by clause, with the canonical form and the sizes of the buffers; the runs of a list of commands; and
the terms of the statements. -/

namespace Sys2Proof.Machine

/-- The buffers and the matrix are in their canonical form and list nothing outside their sizes of
00_scope.md R9 (log entries 6, 7). -/
def MemoriesCanonical (s : Block) : Prop :=
  (Memory.wf 0 s.dbuf = true ∧ Memory.below Config.DMAX s.dbuf = true) ∧
  (Memory.wf 0 s.ebuf = true ∧ Memory.below Config.EMAX s.ebuf = true) ∧
  (Memory.wf 0 s.obuf = true ∧ Memory.below Config.TMAX s.obuf = true) ∧
  (Memory.wf Module.blank s.mod = true ∧ modulesInside s.mod = true)

/-- The geometry fits the sizes of the buffers and the matrix (00_scope.md R9). -/
def WithinSizes (s : Block) : Prop :=
  s.dcap.toNat ≤ Config.DMAX ∧ (s.nb1.toNat + s.nb2.toNat) * s.k.toNat ≤ Config.EMAX ∧
    s.tot.toNat ≤ Config.TMAX ∧ s.n.toNat ≤ Config.NMAX

/-- R39 (1), R23, R24: `ERR ≠ 0` exactly in `FAULT`, and `FINFO = 0` exactly when `ERR = 0`. -/
def FaultRecorded (s : Block) : Prop :=
  (s.err ≠ none ↔ s.phase = .fault) ∧ (s.finfo = 0 ↔ s.err = none)

/-- R39 (2): in `UNBUILT` every register and buffer holds its reset value. -/
def UnbuiltIsReset (s : Block) : Prop :=
  s.phase = .unbuilt → s.err = none → s = Block.reset

/-- The phases 1 to 5, which follow `CFG` (R22). -/
def Phase.configured (p : Phase) : Prop := p ≠ .unbuilt ∧ p ≠ .fault

/-- R39 (3), R27: in phases 1 to 5 the version is legal and the geometry registers hold what `BLKTAB` gives
for it. -/
def GeometryFollowsTable (s : Block) : Prop :=
  s.phase.configured →
    1 ≤ s.ver.toNat ∧ s.ver.toNat ≤ 40 ∧
    s.n.toNat = 4 * s.ver.toNat + 17 ∧
    s.k.toNat = (blockEntry standard s.ver.toNat s.ecl.toNat).k ∧
    s.nb1.toNat = (blockEntry standard s.ver.toNat s.ecl.toNat).nb1 ∧
    s.dc1.toNat = (blockEntry standard s.ver.toNat s.ecl.toNat).dc1 ∧
    s.nb2.toNat = (blockEntry standard s.ver.toNat s.ecl.toNat).nb2 ∧
    s.dc2.toNat = (blockEntry standard s.ver.toNat s.ecl.toNat).dc2 ∧
    s.dcap.toNat = s.nb1.toNat * s.dc1.toNat + s.nb2.toNat * s.dc2.toNat ∧
    s.tot.toNat = s.dcap.toNat + (s.nb1.toNat + s.nb2.toNat) * s.k.toNat

/-- R39 (4), R28, R29: in `PACKING` the stream fits its capacity and every bit beyond its end is 0; from
`FILLED` on it is exactly full. -/
def StreamWithinCapacity (s : Block) : Prop :=
  (s.phase = .packing →
    s.bitlen.toNat ≤ capacityBits s ∧ ∀ p, s.bitlen.toNat ≤ p → readStreamBit s.dbuf p = false) ∧
  (s.phase = .filled ∨ s.phase = .coded ∨ s.phase = .streamed ∨ s.phase = .masked →
    s.bitlen.toNat = capacityBits s)

/-- Entries past the valid ones of R60 keep their reset values (93_implementation_defined.md section 1,
row 28). -/
def BuffersWithinValid (s : Block) : Prop :=
  (∀ i, s.dcap.toNat ≤ i → readCodeword s.dbuf i = 0) ∧
  (∀ i, s.tot.toNat - s.dcap.toNat ≤ i → readCodeword s.ebuf i = 0) ∧
  (∀ i, s.tot.toNat ≤ i → readCodeword s.obuf i = 0) ∧
  (∀ r c, c < 2 ^ 8 → s.n.toNat ≤ r ∨ s.n.toNat ≤ c → readModule s.mod r c = Module.blank)

/-- An Unset module is light: `(Unset, light)` at reset, and no command writes the tag Unset (10_state.md R45,
44_mask_scorer.md R182). -/
def UnsetIsLight (s : Block) : Prop :=
  ∀ a, (Memory.read Module.blank s.mod a).tag = .unset →
    (Memory.read Module.blank s.mod a).dark = false

/-- `PEN`, `PENR` and `BEST` hold 0. -/
def ScoresClear (s : Block) : Prop :=
  s.pen = Block.reset.pen ∧ s.penr = Block.reset.penr ∧ s.best = 0

/-- R39 (5): in phases 0 to 3 the matrix is untouched; and before `SCORE` the penalties are 0 (R34, R35). -/
def UntouchedBeforeUse (s : Block) : Prop :=
  (s.phase = .unbuilt ∨ s.phase = .packing ∨ s.phase = .filled ∨ s.phase = .coded →
    ∀ a, Memory.read Module.blank s.mod a = Module.blank) ∧
  (s.phase ≠ .masked → s.phase ≠ .fault → ScoresClear s)

/-- `b` is the least index whose penalty is minimal (44_mask_scorer.md R192). -/
def IsBest (pen : Vector Word 8) (b : Fin 8) : Prop :=
  (∀ j, (pen.get b).toNat ≤ (pen.get j).toNat) ∧ ∀ j, j < b → (pen.get b).toNat < (pen.get j).toNat

/-- R39 (6), R34, R35: in `MASKED` every module of the N by N area is Data or Reserved, each total is the
sum of its four rules, and `BEST` is the least minimal index. -/
def ScoredWhenMasked (s : Block) : Prop :=
  s.phase = .masked →
    (∀ r c, r < s.n.toNat → c < s.n.toNat →
      (readModule s.mod r c).tag = .data ∨ (readModule s.mod r c).tag = .reserved) ∧
    (∀ j : Fin 8, s.pen.get j =
      (s.penr.get j)[0] + (s.penr.get j)[1] + (s.penr.get j)[2] + (s.penr.get j)[3]) ∧
    ∃ b : Fin 8, s.best = BitVec.ofNat 3 b.val ∧ IsBest s.pen b

/-- The invariant of R39. -/
structure Inv (s : Block) : Prop where
  memories : MemoriesCanonical s
  sizes : WithinSizes s
  fault : FaultRecorded s
  unbuilt : UnbuiltIsReset s
  geometry : GeometryFollowsTable s
  stream : StreamWithinCapacity s
  valid : BuffersWithinValid s
  unset : UnsetIsLight s
  untouched : UntouchedBeforeUse s
  scored : ScoredWhenMasked s

/-- The commands of a list, one after another, stopping at the first that does not answer a next state
(20_memory.md R70); the run of a sequence of words with its outcome is `run`. -/
def execAll : List Instr → State → Result
  | [], s => .next s
  | i :: rest, s =>
    match exec i s with
    | .next t => execAll rest t
    | .fault r => .fault r
    | .refused r => .refused r

/-! ### Terms of the statements -/

/-- A word with opcode `op` and some bit of `hi:lo` set is no command (30_encoding.md R87). -/
def ReservedBitsRefused (op hi lo : Nat) : Prop :=
  ∀ cw : Word, field cw 31 24 = op → field cw hi lo ≠ 0 → decode cw = .error .reservedBit

/-- The machine after the block took fault `c` for the word `cw` (60_exceptions.md R226): the code, the word
and the phase `FAULT` recorded, the response `(0, 0)`, everything else as it was. -/
def afterFault (c : FaultCode) (cw : Word) (s : State) : State :=
  { s with phase := .fault, err := some c, finfo := cw, response := some ⟨false, 0⟩ }

/-- The machine after a command that completes with the value `v` and writes nothing (30_encoding.md R93). -/
def afterResponse (v : Word) (s : State) : State := { s with response := some ⟨true, v⟩ }

/-- `w` bits of `v` were appended to the stream, and nothing else changed (41_packer.md R120): the new bits,
every other bit, every codeword none of whose bits are new, `BITLEN`, and the rest of the block. -/
def Appended (s t : Block) (v w : Nat) : Prop :=
  t.bitlen.toNat = s.bitlen.toNat + w ∧
  (∀ j, j < w → readStreamBit t.dbuf (s.bitlen.toNat + j) = v.testBit (w - 1 - j)) ∧
  (∀ p, p < s.bitlen.toNat ∨ s.bitlen.toNat + w ≤ p →
    readStreamBit t.dbuf p = readStreamBit s.dbuf p) ∧
  (∀ i, i < s.bitlen.toNat / 8 ∨ s.bitlen.toNat + w ≤ 8 * i →
    readCodeword t.dbuf i = readCodeword s.dbuf i) ∧
  { t with bitlen := s.bitlen, dbuf := s.dbuf } = s

/-- What a packing command that appends the `w` bits of `v` does in every phase but `FAULT` (41_packer.md):
`BadPhase` outside `PACKING`; then its operand fault, if its operands meet one; then `DataTooLong` if the
field does not fit; else the field is appended and the response is `(1, 0)`. -/
def PacksField (i : Instr) (operandFault : Option FaultCode) (v w : Nat) (s : State) : Prop :=
  (s.phase ≠ .fault → s.phase ≠ .packing → exec i s = .next (afterFault .badPhase (encode i) s)) ∧
  (s.phase = .packing → ∀ c, operandFault = some c →
    exec i s = .next (afterFault c (encode i) s)) ∧
  (s.phase = .packing → operandFault = none → 8 * s.dcap.toNat < s.bitlen.toNat + w →
    exec i s = .next (afterFault .dataTooLong (encode i) s)) ∧
  (s.phase = .packing → operandFault = none → s.bitlen.toNat + w ≤ 8 * s.dcap.toNat →
    MemoriesCanonical s.toBlock → WithinSizes s.toBlock →
    ∃ t, exec i s = .next t ∧ t.response = some ⟨true, 0⟩ ∧ Appended s.toBlock t.toBlock v w ∧
      t.inputs = s.inputs)

/-- The `w` bits of `v`, most significant first. -/
def fieldBits (v w : Nat) : List Bool := (List.range w).map fun j => v.testBit (w - 1 - j)

/-- The bits of a sequence of fields, each a value and a width, one field after another. -/
def bitsOf (fields : List (Nat × Nat)) : List Bool := fields.flatMap fun f => fieldBits f.1 f.2

/-- The fields of a sequence of digits: three to 10 bits, then two to 7 or one to 4 (41_packer.md R127, R129,
R130; 30_encoding.md R92). -/
def digitFields : List Nat → List (Nat × Nat)
  | c0 :: c1 :: c2 :: rest =>
    (100 * (c0 - 0x30) + 10 * (c1 - 0x30) + (c2 - 0x30), 10) :: digitFields rest
  | [c0, c1] => [(10 * (c0 - 0x30) + (c1 - 0x30), 7)]
  | [c0] => [(c0 - 0x30, 4)]
  | [] => []

/-- The fields of a sequence of alphanumeric characters: two to 11 bits, then one to 6 (41_packer.md R131,
R132; 30_encoding.md R92). -/
def alnumFields : List Nat → List (Nat × Nat)
  | c0 :: c1 :: rest =>
    (45 * (alnumValue standard c0).getD 0 + (alnumValue standard c1).getD 0, 11) :: alnumFields rest
  | [c0] => [((alnumValue standard c0).getD 0, 6)]
  | [] => []

/-- The fields of a sequence of bytes, 8 bits each (41_packer.md R133; 30_encoding.md R92). -/
def byteFields (cs : List Nat) : List (Nat × Nat) := cs.map fun c => (c, 8)

/-- The commands `is` append the bits of `fields` and change nothing else, where these fit in `PACKING`. -/
def PacksFields (is : List Instr) (fields : List (Nat × Nat)) (s : State) : Prop :=
  s.phase = .packing → MemoriesCanonical s.toBlock → WithinSizes s.toBlock →
  s.bitlen.toNat + (bitsOf fields).length ≤ 8 * s.dcap.toNat →
  ∃ t : State, execAll is s = .next t ∧
    t.bitlen.toNat = s.bitlen.toNat + (bitsOf fields).length ∧
    (∀ j, j < (bitsOf fields).length →
      readStreamBit t.dbuf (s.bitlen.toNat + j) = (bitsOf fields).getD j false) ∧
    (∀ p, p < s.bitlen.toNat ∨ s.bitlen.toNat + (bitsOf fields).length ≤ p →
      readStreamBit t.dbuf p = readStreamBit s.dbuf p) ∧
    { t with bitlen := s.bitlen, dbuf := s.dbuf, response := s.response } = s

/-- The module a character of an `MROW` line loads (30_encoding.md R92). -/
def moduleOfChar (x : Char) : Module :=
  if x = '#' then ⟨.reserved, true⟩ else if x = '.' then ⟨.reserved, false⟩
  else if x = '1' then ⟨.data, true⟩ else ⟨.data, false⟩

/-- The value of a polynomial at `x`, coefficients highest power first (43_rs_coder.md R163, R165). -/
def evalPoly (x : Byte) (p : List Byte) : Byte := p.foldl (fun acc c => gmul standard acc x ^^^ c) 0

/-- The sum of two sequences, element by element (42_gf256.md R146). -/
def xorLists (d e : List Byte) : List Byte := List.zipWith (· ^^^ ·) d e

/-- A line with the given run lengths, whose first run has value `v` and whose colours alternate. -/
def alternating (v : Bool) : List Nat → List Bool
  | [] => []
  | len :: rest => List.replicate len v ++ alternating (!v) rest

/-- A matrix of `n` rows of `n` modules. -/
def IsSquare (n : Nat) (rows : List (List Bool)) : Prop :=
  rows.length = n ∧ ∀ row ∈ rows, row.length = n

/-- `C[r][c]` of a matrix of rows. -/
def cell (rows : List (List Bool)) (r c : Nat) : Bool := (rows.getD r []).getD c false

/-- The geometry of a block structure (43_rs_coder.md R160, R162): a second group, where there is one, has
blocks one codeword longer. -/
def SplitGeometry (s : Block) : Prop :=
  (s.nb2 = 0 ∧ s.dc2 = 0 ∨ s.nb2 ≠ 0 ∧ s.dc2.toNat = s.dc1.toNat + 1) ∧
  s.dcap.toNat = s.nb1.toNat * s.dc1.toNat + s.nb2.toNat * s.dc2.toNat ∧
  s.tot.toNat = s.dcap.toNat + (s.nb1.toNat + s.nb2.toNat) * s.k.toNat

/-- Row `r` of a matrix, as a line (44_mask_scorer.md section 3). -/
def rowLine (rows : List (List Bool)) (r : Nat) : List Bool := rows.getD r []

/-- Column `c` of a matrix of `n` rows, as a line (44_mask_scorer.md section 3). -/
def columnLine (n : Nat) (rows : List (List Bool)) (c : Nat) : List Bool :=
  (List.range n).map fun r => cell rows r c

/-- What the `2N` lines of a matrix add up to, each line measured by `f` (44_mask_scorer.md section 3). -/
def sumOverLines (n : Nat) (rows : List (List Bool)) (f : List Bool → Nat) : Nat :=
  ((List.range n).map fun r => f (rowLine rows r)).sum +
    ((List.range n).map fun c => f (columnLine n rows c)).sum

/-- The places `i`, `0 ≤ i ≤ n - 11`, where a line of `n` modules holds the 11 modules of `p`
(44_mask_scorer.md R189). -/
def windowsHolding (n : Nat) (p line : List Bool) : Nat :=
  (List.range (n - 10)).countP fun i =>
    (List.range 11).all fun t => line.getD (i + t) false == p.getD t false

/-- The phases in which a command is not legal, `FAULT` apart (30_encoding.md R86). -/
def WrongPhase : Instr → Phase → Prop
  | .nop, _ => False
  | .rst, _ => False
  | .cfg _ _, p => p ≠ .unbuilt
  | .putb _ _, p => p ≠ .packing
  | .phdr _ _, p => p ≠ .packing
  | .pnum1 _, p => p ≠ .packing
  | .pnum2 _ _, p => p ≠ .packing
  | .pnum3 _ _ _, p => p ≠ .packing
  | .paln1 _, p => p ≠ .packing
  | .paln2 _ _, p => p ≠ .packing
  | .pbyte _, p => p ≠ .packing
  | .pfin, p => p ≠ .packing
  | .ecc, p => p ≠ .filled
  | .ilv, p => p ≠ .coded
  | .mset _ _ _ _, p => p ≠ .streamed
  | .score, p => p ≠ .streamed
  | .rdr _, _ => False
  | .rdd _, p => p = .unbuilt ∨ p = .packing
  | .rde _, p => p = .unbuilt ∨ p = .packing ∨ p = .filled
  | .rdo _, p => p = .unbuilt ∨ p = .packing ∨ p = .filled ∨ p = .coded
  | .rdm _ _ _, p => p = .unbuilt ∨ p = .packing ∨ p = .filled ∨ p = .coded
  | .gfmul _ _, _ => False
  | .gfdiv _ _, _ => False
  | .gfexp _, _ => False
  | .gflog _, _ => False
  | .genc _ _, _ => False

/-- The commands that write the data stream: the packing commands and `PFIN` (20_memory.md R60). -/
def WritesStream : Instr → Prop
  | .putb _ _ | .phdr _ _ | .pnum1 _ | .pnum2 _ _ | .pnum3 _ _ _ | .paln1 _ | .paln2 _ _ | .pbyte _
  | .pfin => True
  | _ => False

/-- The read-out commands and the field queries (20_memory.md R66). -/
def IsRead : Instr → Prop
  | .rdr _ | .rdd _ | .rde _ | .rdo _ | .rdm _ _ _ | .gfmul _ _ | .gfdiv _ _ | .gfexp _ | .gflog _
  | .genc _ _ => True
  | _ => False

/-- `RDR addr` completes in `s` with the value `v` and changes nothing (45_readout.md R210). -/
def RdrReturns (s : State) (addr : Nat) (v : Word) : Prop :=
  exec (.rdr addr) s = .next (afterResponse v s)

/-- The bits `PNUMS` packs for `n` digits (30_encoding.md R92). -/
def digitBits (n : Nat) : Nat := 10 * (n / 3) + (if n % 3 = 2 then 7 else if n % 3 = 1 then 4 else 0)

/-- The bits `PALNS` packs for `n` characters (30_encoding.md R92). -/
def alnumBits (n : Nat) : Nat := 11 * (n / 2) + 6 * (n % 2)

end Sys2Proof.Machine
end

