-- ==== Sys2Proof/Certificates/Slice0/Obligations.lean ====
section
/-! DEFINITION. The statements for the provers. Each docstring names the rule of spec/ a statement
formalises, or the sections it is derived from. -/

open Sys2Proof Sys2Proof.Machine

/-! ### Encoding -/

/-- Decoding the word of a well-formed command gives the command back: no operand bit is dropped and no
command is taken for another. Derived from 30_encoding.md sections 2 and 3. -/
def Obligations.DecodeOfEncodeIsTheCommand : Prop :=
  ∀ i : Instr, i.wf = true → decode (encode i) = .ok i

/-- Every legal word is the word of the command it decodes to, which is well formed: a command determines
its word, so the word a fault records is the one presented. Derived from 30_encoding.md sections 2, 3. -/
def Obligations.EncodeOfDecodeIsTheWord : Prop :=
  ∀ (cw : Word) (i : Instr), decode cw = .ok i → encode i = cw ∧ i.wf = true

/-- R85: a word selects the command whose row of the opcode map it satisfies; a word that satisfies no row
is illegal; the rows are disjoint; each mask has a 1 at every opcode bit and at exactly the lower bits that
no operand of the command uses, and each match has nothing below the opcode. -/
def Obligations.DecoderFollowsTheOpcodeTable : Prop :=
  (∀ (cw : Word) (i : Instr), decode cw = .ok i →
    ∃ row ∈ opcodeTable, cw &&& row.mask = row.fixed ∧ row.mnemonic = i.mnemonic) ∧
  (∀ (cw : Word) (row : OpcodeRow), row ∈ opcodeTable → cw &&& row.mask = row.fixed →
    ∃ i, decode cw = .ok i ∧ row.mnemonic = i.mnemonic) ∧
  (∀ cw : Word, (∀ row ∈ opcodeTable, cw &&& row.mask ≠ row.fixed) → ∃ e, decode cw = .error e) ∧
  (∀ (cw : Word) (row row' : OpcodeRow), row ∈ opcodeTable → row' ∈ opcodeTable →
    cw &&& row.mask = row.fixed → cw &&& row'.mask = row'.fixed → row = row') ∧
  (∀ row ∈ opcodeTable, row.mask &&& 0xFF000000 = 0xFF000000 ∧ row.fixed &&& 0x00FFFFFF = 0) ∧
  (∀ (row : OpcodeRow) (b : Nat), row ∈ opcodeTable → b < 24 →
    (row.mask.getLsbD b = false ↔
      ∃ i : Instr, i.wf = true ∧ i.mnemonic = row.mnemonic ∧ (encode i).getLsbD b = true))

/-- Words the spec prints, of every family, decode to the commands it gives for them (30_encoding.md
section 7, 40_control.md, 41_packer.md, 42_gf256.md, 44_mask_scorer.md, 45_readout.md, examples). -/
def Obligations.PrintedWordsDecode : Prop :=
  decode 0x00000000 = .ok .nop ∧ decode 0x02000041 = .ok (.cfg 1 1) ∧
  decode 0x11010008 = .ok (.phdr 1 8) ∧ decode 0x14323130 = .ok (.pnum3 0x30 0x31 0x32) ∧
  decode 0x16004548 = .ok (.paln2 0x48 0x45) ∧ decode 0x21000000 = .ok .ilv ∧
  decode 0x30140305 = .ok (.mset 20 3 2 true) ∧ decode 0x44010203 = .ok (.rdm 1 2 3) ∧
  decode 0x54000703 = .ok (.genc 7 3)

/-! ### The step -/

/-- The next word at the command port, when it decodes to a command, is executed with that word taken; with
a well-formed command presented as the very next word, a step is that command. What it makes of the block and
its response are those of the block's function from state and word to state and response, with the tables the
spec prints. Derived from 30_encoding.md sections 1, 3 and 5 and 00_scope.md section 5; that the words wait in
a list is the model's choice (log entry 2). -/
def Obligations.StepRunsTheDecodedCommand : Prop :=
  (∀ (s : State) (cw : Word) (rest : List HostInput) (i : Instr),
    s.inputs = .command cw :: rest → decode cw = .ok i →
    step s = exec i { s with inputs := rest }) ∧
  (∀ (s : State) (i : Instr), i.wf = true →
    step (s.withFetchWord 32 (encode i).toNat) = exec i s) ∧
  (∀ (s : State) (cw : Word) (rest : List HostInput), s.inputs = .command cw :: rest →
    step s = .next { s with
      toBlock := (blockStep standard s.toBlock cw).1
      inputs := rest
      response := some (blockStep standard s.toBlock cw).2 })

/-- R87, R88: a word with a reserved bit set, and a word with an opcode in no row, take the fault
`IllegalCommand` in every phase but `FAULT`, with no other effect; no word but 0 executes as `NOP`. -/
def Obligations.IllegalWordsFault : Prop :=
  (∀ (s : State) (cw : Word) (rest : List HostInput) (row : OpcodeRow),
    s.inputs = .command cw :: rest → s.phase ≠ .fault → row ∈ opcodeTable →
    cw &&& 0xFF000000 = row.fixed → cw &&& row.mask ≠ row.fixed →
    step s = .next { s with
      phase := .fault, err := some .illegalCommand, finfo := cw, inputs := rest,
      response := some ⟨false, 0⟩ }) ∧
  (∀ (s : State) (cw : Word) (rest : List HostInput),
    s.inputs = .command cw :: rest → s.phase ≠ .fault →
    (0x03 ≤ field cw 31 24 ∧ field cw 31 24 ≤ 0x0F ∨ 0x19 ≤ field cw 31 24 ∧ field cw 31 24 ≤ 0x1F ∨
      0x22 ≤ field cw 31 24 ∧ field cw 31 24 ≤ 0x2F ∨ 0x32 ≤ field cw 31 24 ∧ field cw 31 24 ≤ 0x3F ∨
      0x45 ≤ field cw 31 24 ∧ field cw 31 24 ≤ 0x4F ∨ 0x55 ≤ field cw 31 24) →
    step s = .next { s with
      phase := .fault, err := some .illegalCommand, finfo := cw, inputs := rest,
      response := some ⟨false, 0⟩ }) ∧
  (∀ cw : Word, decode cw = .ok .nop → cw = 0)

/-- The step is total: every command word, whatever the state, is executed to completion and gets one
response, whose value is 0 where `ok` is 0; the reset input returns any state to reset. A run of a sequence of
words gives one response for each, and the machine, stepped to the end of what the host presents, ends in the
state of that run with its last response. Derived from 30_encoding.md sections 1 and 6 and
70_reset_and_hazards.md section 4; that only the word at hand leaves the list of waiting words, and that a
reset keeps the list, is the model's choice (log entry 2), and so is the field that holds the last response
(log entry 3). -/
def Obligations.EveryWordGetsOneResponse : Prop :=
  (∀ (s : State) (cw : Word) (rest : List HostInput), s.inputs = .command cw :: rest →
    ∃ (t : State) (r : Response),
      step s = .next t ∧ t.response = some r ∧ t.inputs = rest ∧ (r.ok = false → r.resp = 0)) ∧
  (∀ (s : State) (rest : List HostInput), s.inputs = .resetPulse :: rest →
    ∃ t : State, step s = .next t ∧ t.toBlock = Block.reset ∧ t.inputs = rest) ∧
  (∀ (p : Params) (s : Block) (words : List Word),
    (run p s (words.map .command)).1.length = words.length) ∧
  (∀ s : State, ∃ t : State,
    Host.Core.run Sys2Proof.core s.inputs.length s = .next t ∧ t.inputs = [] ∧
    t.toBlock = (run standard s.toBlock s.inputs).2 ∧
    ∀ (before : List HostInput) (cw : Word), s.inputs = before ++ [.command cw] →
      t.response = (run standard s.toBlock s.inputs).1.getLast?)

/-! ### Reset and the control commands -/

/-- R250, R111: the hardware reset input and `RST` both bring every state to the reset state; `RST` responds
`(1, 0)` in every phase, changes nothing in `UNBUILT`, and is the only command that leaves `MASKED`, but by
a fault, or `FAULT`. -/
def Obligations.BothResetsGiveTheResetState : Prop :=
  (∀ (s : State) (rest : List HostInput), s.inputs = .resetPulse :: rest →
    ∃ t : State, step s = .next t ∧ t.toBlock = Block.reset) ∧
  (∀ s : State, ∃ t : State,
    exec .rst s = .next t ∧ t.toBlock = Block.reset ∧ t.response = some ⟨true, 0⟩ ∧
    (s.phase = .unbuilt → s.err = none → UnbuiltIsReset s.toBlock → t.toBlock = s.toBlock)) ∧
  (∀ (i : Instr) (s t : State), exec i s = .next t → s.phase = .masked ∨ s.phase = .fault →
    i ≠ .rst → t.phase = s.phase ∨ t.phase = .fault) ∧
  encode .rst = 0x01000000 ∧ ReservedBitsRefused 0x01 23 0

/-- R251: the reset state, item by item. -/
def Obligations.ResetStateItemByItem : Prop :=
  Block.reset.phase = .unbuilt ∧ Block.reset.err = none ∧ Block.reset.finfo = 0 ∧
  Block.reset.ver = 0 ∧ Block.reset.ecl = 0 ∧ Block.reset.n = 0 ∧ Block.reset.tot = 0 ∧
  Block.reset.dcap = 0 ∧ Block.reset.k = 0 ∧ Block.reset.nb1 = 0 ∧ Block.reset.dc1 = 0 ∧
  Block.reset.nb2 = 0 ∧ Block.reset.dc2 = 0 ∧ Block.reset.bitlen = 0 ∧
  (∀ i, readCodeword Block.reset.dbuf i = 0) ∧ (∀ i, readCodeword Block.reset.ebuf i = 0) ∧
  (∀ i, readCodeword Block.reset.obuf i = 0) ∧
  (∀ r c, readModule Block.reset.mod r c = ⟨.unset, false⟩) ∧
  (∀ j, Block.reset.pen.get j = 0) ∧ (∀ j l, (Block.reset.penr.get j).get l = 0) ∧
  Block.reset.best = 0 ∧
  (∀ s : State, readRegister s.toBlock 0x0F = some 0x42534501)

/-- R110: `NOP` changes nothing in any phase, `FAULT` included, and responds `(1, 0)`; a word with opcode 0
and another bit set is not `NOP`. -/
def Obligations.NopChangesNothing : Prop :=
  (∀ s : State, exec .nop s = .next (afterResponse 0 s)) ∧
  encode .nop = 0 ∧ ReservedBitsRefused 0x00 23 0

/-- R112: `CFG` in `UNBUILT` fixes the version and level, loads the geometry `BLKTAB` gives, and enters
`PACKING`, leaving all else; a version outside 1..40 takes `InvalidOption`; another phase takes `BadPhase`. -/
def Obligations.CfgLoadsTheGeometry : Prop :=
  ReservedBitsRefused 0x02 23 8 ∧
  ∀ (s : State) (ver ecl : Nat), ver < 64 → ecl < 4 →
    (encode (.cfg ver ecl)).toNat = 0x02 * 2 ^ 24 + ecl * 2 ^ 6 + ver ∧
    (s.phase ≠ .fault → s.phase ≠ .unbuilt →
      exec (.cfg ver ecl) s = .next (afterFault .badPhase (encode (.cfg ver ecl)) s)) ∧
    (s.phase = .unbuilt → ver = 0 ∨ 41 ≤ ver →
      exec (.cfg ver ecl) s = .next (afterFault .invalidOption (encode (.cfg ver ecl)) s)) ∧
    (s.phase = .unbuilt → 1 ≤ ver → ver ≤ 40 →
      ∃ t : State, exec (.cfg ver ecl) s = .next t ∧ t.response = some ⟨true, 0⟩ ∧
        t.phase = .packing ∧ t.ver.toNat = ver ∧ t.ecl.toNat = ecl ∧
        t.k.toNat = (blockEntry standard ver ecl).k ∧ t.nb1.toNat = (blockEntry standard ver ecl).nb1 ∧
        t.dc1.toNat = (blockEntry standard ver ecl).dc1 ∧ t.nb2.toNat = (blockEntry standard ver ecl).nb2 ∧
        t.dc2.toNat = (blockEntry standard ver ecl).dc2 ∧
        t.dcap.toNat = t.nb1.toNat * t.dc1.toNat + t.nb2.toNat * t.dc2.toNat ∧
        t.tot.toNat = t.dcap.toNat + (t.nb1.toNat + t.nb2.toNat) * t.k.toNat ∧
        t.n.toNat = 4 * ver + 17 ∧ t.bitlen = 0 ∧
        { t with
          phase := s.phase, ver := s.ver, ecl := s.ecl, k := s.k, nb1 := s.nb1, dc1 := s.dc1,
          nb2 := s.nb2, dc2 := s.dc2, dcap := s.dcap, tot := s.tot, n := s.n, bitlen := s.bitlen,
          response := s.response } = s)

/-- R161: data and correction codewords of all blocks add up to the same total for every level of a
version, the module count divided by 8. -/
def Obligations.BlockTableMeetsTheSumProperty : Prop :=
  ∀ ver ecl : Nat, 1 ≤ ver → ver ≤ 40 → ecl < 4 →
    (blockEntry standard ver ecl).nb1 * ((blockEntry standard ver ecl).dc1 + (blockEntry standard ver ecl).k) +
      (blockEntry standard ver ecl).nb2 *
        ((blockEntry standard ver ecl).dc2 + (blockEntry standard ver ecl).k) =
      rawModules ver / 8

/-! ### Faults and phases -/

/-- R226: a command word that faults records its code and the word, enters `FAULT`, responds `(0, 0)`, and
changes nothing else; and it responds with `ok = 0` only then. -/
def Obligations.FaultsArePrecise : Prop :=
  ∀ (s t : State) (cw : Word) (rest : List HostInput),
    s.inputs = .command cw :: rest → s.phase ≠ .fault → step s = .next t →
    (t.phase = .fault → ∃ c : FaultCode, t = { s with
      phase := .fault, err := some c, finfo := cw, inputs := rest, response := some ⟨false, 0⟩ }) ∧
    (t.phase = .fault ↔ ∃ v, t.response = some ⟨false, v⟩)

/-- R227: in `FAULT`, `NOP` and `RST` and an `RDR` of a mapped address execute; every other word is refused
with `(0, 0)` and changes nothing. -/
def Obligations.FaultPhaseRefusesTheRest : Prop :=
  ∀ (s : State) (cw : Word) (rest : List HostInput),
    s.phase = .fault → s.inputs = .command cw :: rest →
    (cw = 0x00000000 →
      step s = .next { s with inputs := rest, response := some ⟨true, 0⟩ }) ∧
    (cw = 0x01000000 →
      ∃ t : State, step s = .next t ∧ t.toBlock = Block.reset ∧
        t.response = some ⟨true, 0⟩) ∧
    (∀ v, field cw 31 24 = 0x40 → field cw 23 8 = 0 → readRegister s.toBlock (field cw 7 0) = some v →
      step s = .next { s with inputs := rest, response := some ⟨true, v⟩ }) ∧
    (cw ≠ 0x00000000 → cw ≠ 0x01000000 →
      ¬(field cw 31 24 = 0x40 ∧ field cw 23 8 = 0 ∧
        ∃ v, readRegister s.toBlock (field cw 7 0) = some v) →
      step s = .next { s with inputs := rest, response := some ⟨false, 0⟩ })

/-- R229: the only exits from `FAULT` are `RST` and the hardware reset, and both clear all state. -/
def Obligations.OnlyResetLeavesFault : Prop :=
  ∀ s t : State, s.phase = .fault → step s = .next t → t.phase ≠ .fault →
    t.toBlock = Block.reset ∧
    ((∃ rest, s.inputs = .resetPulse :: rest) ∨ ∃ rest, s.inputs = .command 0x01000000 :: rest)

/-- R22: the phases have the values 0 to 5 and 7; the reset input enters `UNBUILT`; a command keeps the
phase, or takes it one step forward, each step by exactly the command named, or to `FAULT` by a fault, or
back to `UNBUILT` by `RST`. -/
def Obligations.PhaseMovesOnlyAsListed : Prop :=
  (Phase.code .unbuilt = 0 ∧ Phase.code .packing = 1 ∧ Phase.code .filled = 2 ∧
    Phase.code .coded = 3 ∧ Phase.code .streamed = 4 ∧ Phase.code .masked = 5 ∧
    Phase.code .fault = 7 ∧ ∀ p : Phase, p.code ≠ 6) ∧
  (∀ (s t : State) (rest : List HostInput), s.inputs = .resetPulse :: rest → step s = .next t →
    t.phase = .unbuilt) ∧
  ∀ (i : Instr) (s t : State), exec i s = .next t →
    t.phase = s.phase ∨
    (t.phase = .fault ∧ t.err ≠ none) ∨
    (i = .rst ∧ t.phase = .unbuilt) ∨
    ((∃ ver ecl, i = .cfg ver ecl) ∧ s.phase = .unbuilt ∧ t.phase = .packing) ∨
    (i = .pfin ∧ s.phase = .packing ∧ t.phase = .filled) ∨
    (i = .ecc ∧ s.phase = .filled ∧ t.phase = .coded) ∨
    (i = .ilv ∧ s.phase = .coded ∧ t.phase = .streamed) ∨
    (i = .score ∧ s.phase = .streamed ∧ t.phase = .masked)

/-- A command in a phase where the opcode map does not allow it takes `BadPhase`, whatever its operands.
Derived from 30_encoding.md sections 3 (its table) and 5 (step 3). -/
def Obligations.WrongPhaseTakesBadPhase : Prop :=
  ∀ (i : Instr) (s : State), s.phase ≠ .fault → WrongPhase i s.phase →
    exec i s = .next { s with
      phase := .fault, err := some .badPhase, finfo := encode i, response := some ⟨false, 0⟩ }

/-- Every item of state is written only by the commands listed for it, and by `RST`: `PHASE` by the command
that enters each phase and by a fault, `ERR` and `FINFO` by a fault, the version, level and geometry by `CFG`,
the stream by the packing commands and `PFIN`, `EBUF` by `ECC`, `OBUF` by `ILV`, the matrix by `MSET`, the
scores by `SCORE`. Derived from 10_state.md sections 2 to 5 and the table of 20_memory.md section 1. The last
clause is about what the host presents next, which is the model's own field (log entry 2) and which no command
touches. -/
def Obligations.EachItemHasItsWriters : Prop :=
  ∀ (i : Instr) (s t : State), exec i s = .next t → i ≠ .rst →
    ((∀ ver ecl, i ≠ .cfg ver ecl) → i ≠ .pfin → i ≠ .ecc → i ≠ .ilv → i ≠ .score →
      t.phase = s.phase ∨ ∃ c, t = afterFault c (encode i) s) ∧
    (t.err = s.err ∧ t.finfo = s.finfo ∨ ∃ c, t = afterFault c (encode i) s) ∧
    ((∀ ver ecl, i ≠ .cfg ver ecl) →
      t.ver = s.ver ∧ t.ecl = s.ecl ∧ t.n = s.n ∧ t.tot = s.tot ∧ t.dcap = s.dcap ∧ t.k = s.k ∧
      t.nb1 = s.nb1 ∧ t.dc1 = s.dc1 ∧ t.nb2 = s.nb2 ∧ t.dc2 = s.dc2) ∧
    (¬WritesStream i → t.dbuf = s.dbuf ∧ ((∀ ver ecl, i ≠ .cfg ver ecl) → t.bitlen = s.bitlen)) ∧
    (i ≠ .ecc → t.ebuf = s.ebuf) ∧
    (i ≠ .ilv → t.obuf = s.obuf) ∧
    ((∀ row col tag dark, i ≠ .mset row col tag dark) → t.mod = s.mod) ∧
    (i ≠ .score → t.pen = s.pen ∧ t.penr = s.penr ∧ t.best = s.best) ∧
    t.inputs = s.inputs

/-! ### Invariants -/

/-- The invariant of 10_state.md section 7 is kept by every step. That section marks it as derived; the
canonical form of the buffers in it is the model's (log entries 6, 7). -/
def Obligations.StepKeepsTheInvariant : Prop :=
  ∀ s t : State, Inv s.toBlock → step s = .next t → Inv t.toBlock

/-- The reset state meets the invariant (10_state.md sections 7 and 9). -/
def Obligations.ResetMeetsTheInvariant : Prop := Inv Block.reset

/-- Every step keeps the canonical form of the buffers and the matrix, and lists nothing outside their sizes,
from every state of which that holds. The form is the model's (log entries 6, 7). Derived from 10_state.md
section 4 and 00_scope.md section 5. -/
def Obligations.StepKeepsMemoriesCanonical : Prop :=
  ∀ s t : State, MemoriesCanonical s.toBlock → step s = .next t → MemoriesCanonical t.toBlock

/-- From every state where `ERR ≠ 0` exactly in `FAULT` and `FINFO = 0` exactly when `ERR = 0`, every step keeps
that; outside `FAULT` only the entry to it writes `ERR`; in `FAULT` no step changes `ERR` or `FINFO` except a
reset. Derived from 10_state.md sections 2 and 7, whose rule marked derived infers that `FINFO` is nonzero with
`ERR`, and 60_exceptions.md section 3. -/
def Obligations.StepKeepsTheFirstFault : Prop :=
  ∀ s t : State, FaultRecorded s.toBlock → step s = .next t →
    FaultRecorded t.toBlock ∧
    (s.phase ≠ .fault → t.err = s.err ∨ t.phase = .fault) ∧
    (s.phase = .fault → t.err = s.err ∧ t.finfo = s.finfo ∨
      t.toBlock = Block.reset ∧
        ((∃ rest, s.inputs = .resetPulse :: rest) ∨
          ∃ rest, s.inputs = .command 0x01000000 :: rest))

/-- Two buffers, or two matrices, in canonical form that read alike everywhere are equal. The form is the
model's (log entry 6); derived from 10_state.md section 4. -/
def Obligations.CanonicalMemoriesReadingAlikeAreEqual : Prop :=
  (∀ m m' : Buffer, Memory.wf 0 m = true → Memory.wf 0 m' = true →
    (∀ i, readCodeword m i = readCodeword m' i) → m = m') ∧
  (∀ m m' : Matrix, Memory.wf Module.blank m = true → Memory.wf Module.blank m' = true →
    (∀ a, Memory.read Module.blank m a = Memory.read Module.blank m' a) → m = m')

/-! ### The packer -/

/-- R120, R121: `AppendBits` refuses a field that does not fit with `DataTooLong`; else it writes the field's
bits at the end of the stream, most significant first, changes no other bit, advances `BITLEN`, and keeps
the bits beyond the end at 0. The command of two fields appends both or neither. -/
def Obligations.AppendBitsWritesTheField : Prop :=
  (∀ (s : Block) (v w : Nat), 1 ≤ w → w ≤ 16 → v < 2 ^ w → MemoriesCanonical s → WithinSizes s →
    (8 * s.dcap.toNat < s.bitlen.toNat + w → appendBits v w s = .error .dataTooLong) ∧
    (s.bitlen.toNat + w ≤ 8 * s.dcap.toNat →
      ∃ t : Block, appendBits v w s = .ok (t, 0) ∧ Appended s t v w ∧
        ((∀ p, s.bitlen.toNat ≤ p → readStreamBit s.dbuf p = false) →
          ∀ p, t.bitlen.toNat ≤ p → readStreamBit t.dbuf p = false))) ∧
  (∀ (s t : State) (mode count : Nat), s.phase = .packing → exec (.phdr mode count) s = .next t →
    t.dbuf = s.dbuf ∧ t.bitlen = s.bitlen ∨
    ∃ m, modeOfIndicator standard mode = some m ∧
      t.bitlen.toNat = s.bitlen.toNat + (4 + CCIW m (tier s.ver.toNat)) ∧
      t.bitlen.toNat ≤ 8 * s.dcap.toNat)

/-- R122: `PUTB` appends the low `width` bits of `value`; a width outside 1..16, or a value bit at or above
the width, takes `BadOperand`. -/
def Obligations.PutbAppendsTheField : Prop :=
  ReservedBitsRefused 0x10 23 21 ∧
  ∀ (s : State) (width value : Nat), width < 32 → value < 2 ^ 16 →
    (encode (.putb width value)).toNat = 0x10 * 2 ^ 24 + width * 2 ^ 16 + value ∧
    PacksField (.putb width value)
      (if width = 0 ∨ 17 ≤ width ∨ 2 ^ width ≤ value then some .badOperand else none)
      value width s

/-- R125 with the indicator values of R123 and the widths of R124 (values the spec supplies from general
knowledge): `PHDR` appends the 4-bit indicator and then the count at the width of its mode and version
tier, both or neither; another mode, or a count that does not fit its field, takes `BadOperand`. -/
def Obligations.PhdrAppendsBothFieldsOrNeither : Prop :=
  ReservedBitsRefused 0x11 23 20 ∧
  ∀ (s : State) (mode count w : Nat), mode < 16 → count < 2 ^ 16 →
    w = (if mode = 1 then (if s.ver.toNat ≤ 9 then 10 else if s.ver.toNat ≤ 26 then 12 else 14)
      else if mode = 2 then (if s.ver.toNat ≤ 9 then 9 else if s.ver.toNat ≤ 26 then 11 else 13)
      else (if s.ver.toNat ≤ 9 then 8 else 16)) →
    (encode (.phdr mode count)).toNat = 0x11 * 2 ^ 24 + mode * 2 ^ 16 + count ∧
    PacksField (.phdr mode count)
      (if (mode ≠ 1 ∧ mode ≠ 2 ∧ mode ≠ 4) ∨ 2 ^ w ≤ count then some .badOperand else none)
      (mode * 2 ^ w + count) (4 + w) s

/-- R127, R129, R130: one, two or three digits are packed as the decimal number they spell, in 4, 7 or 10
bits; a code that is no digit takes `UnsupportedCharacter`, before the fit is tested. -/
def Obligations.DigitCommandsPackDecimalNumbers : Prop :=
  (ReservedBitsRefused 0x12 23 8 ∧ ReservedBitsRefused 0x13 23 16) ∧
  ∀ (s : State) (c0 c1 c2 : Nat), c0 < 256 → c1 < 256 → c2 < 256 →
    ((encode (.pnum1 c0)).toNat = 0x12 * 2 ^ 24 + c0 ∧
      PacksField (.pnum1 c0)
        (if 0x30 ≤ c0 ∧ c0 ≤ 0x39 then none else some .unsupportedCharacter)
        (c0 - 0x30) 4 s) ∧
    ((encode (.pnum2 c0 c1)).toNat = 0x13 * 2 ^ 24 + c1 * 2 ^ 8 + c0 ∧
      PacksField (.pnum2 c0 c1)
        (if (0x30 ≤ c0 ∧ c0 ≤ 0x39) ∧ (0x30 ≤ c1 ∧ c1 ≤ 0x39) then none
          else some .unsupportedCharacter)
        (10 * (c0 - 0x30) + (c1 - 0x30)) 7 s) ∧
    ((encode (.pnum3 c0 c1 c2)).toNat = 0x14 * 2 ^ 24 + c2 * 2 ^ 16 + c1 * 2 ^ 8 + c0 ∧
      PacksField (.pnum3 c0 c1 c2)
        (if (0x30 ≤ c0 ∧ c0 ≤ 0x39) ∧ (0x30 ≤ c1 ∧ c1 ≤ 0x39) ∧ (0x30 ≤ c2 ∧ c2 ≤ 0x39) then none
          else some .unsupportedCharacter)
        (100 * (c0 - 0x30) + 10 * (c1 - 0x30) + (c2 - 0x30)) 10 s)

/-- R128 (a table the spec supplies from general knowledge): the alphanumeric set and its values; a code
outside it, given to a `PALN` command in `PACKING`, takes `UnsupportedCharacter`. -/
def Obligations.AlphanumericSetHasTheSpecsValues : Prop :=
  (∀ ch v : Nat, alnumValue standard ch = some v ↔
    (0x30 ≤ ch ∧ ch ≤ 0x39 ∧ v = ch - 0x30) ∨ (0x41 ≤ ch ∧ ch ≤ 0x5A ∧ v = ch - 0x41 + 10) ∨
    (ch = 0x20 ∧ v = 36) ∨ (ch = 0x24 ∧ v = 37) ∨ (ch = 0x25 ∧ v = 38) ∨ (ch = 0x2A ∧ v = 39) ∨
    (ch = 0x2B ∧ v = 40) ∨ (ch = 0x2D ∧ v = 41) ∨ (ch = 0x2E ∧ v = 42) ∨ (ch = 0x2F ∧ v = 43) ∨
    (ch = 0x3A ∧ v = 44)) ∧
  ∀ (s : State) (ch other : Nat), s.phase = .packing → alnumValue standard ch = none →
    exec (.paln1 ch) s = .next (afterFault .unsupportedCharacter (encode (.paln1 ch)) s) ∧
    exec (.paln2 ch other) s =
      .next (afterFault .unsupportedCharacter (encode (.paln2 ch other)) s) ∧
    exec (.paln2 other ch) s =
      .next (afterFault .unsupportedCharacter (encode (.paln2 other ch)) s)

/-- R131, R132: one character is packed as its value in 6 bits, a pair as 45 times the first plus the second
in 11 bits; a code outside the set takes `UnsupportedCharacter`. -/
def Obligations.AlphanumericCommandsPackTableValues : Prop :=
  (ReservedBitsRefused 0x15 23 8 ∧ ReservedBitsRefused 0x16 23 16) ∧
  ∀ (s : State) (c0 c1 : Nat), c0 < 256 → c1 < 256 →
    ((encode (.paln1 c0)).toNat = 0x15 * 2 ^ 24 + c0 ∧
      PacksField (.paln1 c0)
        (if alnumValue standard c0 = none then some .unsupportedCharacter else none)
        ((alnumValue standard c0).getD 0) 6 s) ∧
    ((encode (.paln2 c0 c1)).toNat = 0x16 * 2 ^ 24 + c1 * 2 ^ 8 + c0 ∧
      PacksField (.paln2 c0 c1)
        (if alnumValue standard c0 = none ∨ alnumValue standard c1 = none then
          some .unsupportedCharacter else none)
        (45 * (alnumValue standard c0).getD 0 + (alnumValue standard c1).getD 0) 11 s)

/-- R133: `PBYTE` appends the 8 bits of any byte. -/
def Obligations.PbyteAppendsTheByte : Prop :=
  ReservedBitsRefused 0x17 23 8 ∧
  ∀ (s : State) (c0 : Nat), c0 < 256 →
    (encode (.pbyte c0)).toNat = 0x17 * 2 ^ 24 + c0 ∧ PacksField (.pbyte c0) none c0 8 s

/-- R134: `PFIN` appends up to four terminator bits and zero bits to the codeword boundary, fills the rest
with `0xEC`, `0x11` in turn, sets `BITLEN` to the capacity and enters `FILLED`, changing nothing else. -/
def Obligations.PfinFillsTheStream : Prop :=
  encode .pfin = 0x18000000 ∧ ReservedBitsRefused 0x18 23 0 ∧
  (∀ s : State, s.phase ≠ .fault → s.phase ≠ .packing →
    exec .pfin s = .next (afterFault .badPhase 0x18000000 s)) ∧
  ∀ (s : State) (t4 z e : Nat), s.phase = .packing → MemoriesCanonical s.toBlock →
    WithinSizes s.toBlock → StreamWithinCapacity s.toBlock →
    t4 = min 4 (8 * s.dcap.toNat - s.bitlen.toNat) →
    z = (8 - (s.bitlen.toNat + t4) % 8) % 8 → e = s.bitlen.toNat + t4 + z →
    ∃ t : State, exec .pfin s = .next t ∧ t.response = some ⟨true, 0⟩ ∧ t.phase = .filled ∧
      t.bitlen.toNat = 8 * s.dcap.toNat ∧
      (∀ p, p < s.bitlen.toNat → readStreamBit t.dbuf p = readStreamBit s.dbuf p) ∧
      (∀ p, s.bitlen.toNat ≤ p → p < e → readStreamBit t.dbuf p = false) ∧
      (∀ i, e + 8 * i < 8 * s.dcap.toNat →
        readCodeword t.dbuf (e / 8 + i) = if i % 2 = 0 then 0xEC else 0x11) ∧
      (∀ i, s.dcap.toNat ≤ i → readCodeword t.dbuf i = readCodeword s.dbuf i) ∧
      { t with phase := s.phase, bitlen := s.bitlen, dbuf := s.dbuf, response := s.response } = s

/-- R135: `CFG` followed directly by `PFIN` succeeds and fills the stream with the zero codeword and then
`0xEC`, `0x11` in turn, for every version and level. -/
def Obligations.EmptyPayloadIsTerminatorAndPads : Prop :=
  ∀ ver ecl : Nat, 1 ≤ ver → ver ≤ 40 → ecl < 4 →
    ∃ t : State, execAll [.cfg ver ecl, .pfin] State.reset = .next t ∧
      t.response = some ⟨true, 0⟩ ∧ t.phase = .filled ∧ readCodeword t.dbuf 0 = 0x00 ∧
      ∀ i, i + 1 < t.dcap.toNat →
        readCodeword t.dbuf (i + 1) = if i % 2 = 0 then 0xEC else 0x11

/-- The expansions of the pseudo-instructions put their characters where their commands do: `PNUMS`, `PALNS`
and `PBYTES` append the bits of their groups, digits three to 10 bits, 7 or 4 for the rest, characters two to
11, 6 for the last, bytes 8 each; `SEGNUM`, `SEGALN` and `SEGBYTE` append the mode indicator and the count
before them; all bits before these are kept. `MROW` loads one module for each character. Derived from
30_encoding.md section 7, 41_packer.md sections 3 to 6 and 44_mask_scorer.md section 1. -/
def Obligations.PseudoInstructionsPackTheirCharacters : Prop :=
  (∀ (s : State) (cs : List Nat), (∀ c ∈ cs, 0x30 ≤ c ∧ c ≤ 0x39) →
    (bitsOf (digitFields cs)).length = digitBits cs.length ∧
    PacksFields (pnums cs) (digitFields cs) s ∧
    (cs.length < 2 ^ CCIW .numeric (tier s.ver.toNat) →
      PacksFields (segnum cs)
        ((1, 4) :: (cs.length, CCIW .numeric (tier s.ver.toNat)) :: digitFields cs) s)) ∧
  (∀ (s : State) (cs : List Nat), (∀ c ∈ cs, alnumValue standard c ≠ none) →
    (bitsOf (alnumFields cs)).length = alnumBits cs.length ∧
    PacksFields (palns cs) (alnumFields cs) s ∧
    (cs.length < 2 ^ CCIW .alphanumeric (tier s.ver.toNat) →
      PacksFields (segaln cs)
        ((2, 4) :: (cs.length, CCIW .alphanumeric (tier s.ver.toNat)) :: alnumFields cs) s)) ∧
  (∀ (s : State) (cs : List Nat),
    (bitsOf (byteFields cs)).length = 8 * cs.length ∧
    PacksFields (pbytes cs) (byteFields cs) s ∧
    (cs.length < 2 ^ CCIW .byte (tier s.ver.toNat) →
      PacksFields (segbyte cs)
        ((4, 4) :: (cs.length, CCIW .byte (tier s.ver.toNat)) :: byteFields cs) s)) ∧
  (∀ (s : State) (r : Nat) (xs : List Char) (is : List Instr), s.phase = .streamed →
    WithinSizes s.toBlock → r < s.n.toNat → xs.length = s.n.toNat →
    (∀ c, c < s.n.toNat → (readModule s.mod r c).tag ≠ .reserved) → mrowFrom r 0 xs = some is →
    ∃ t : State, execAll is s = .next t ∧
      (∀ c, c < s.n.toNat → readModule t.mod r c = moduleOfChar (xs.getD c '0')) ∧
      (∀ r' c, c < 256 → r' ≠ r ∨ s.n.toNat ≤ c → readModule t.mod r' c = readModule s.mod r' c) ∧
      { t with mod := s.mod, response := s.response } = s)

/-! ### The field -/

/-- R142: `gmul` is the product by logarithms, zero with a zero operand, commutative, associative,
distributive over `xor`, with 1 as unit. -/
def Obligations.FieldProductLaws : Prop :=
  (∀ a b : Byte, a ≠ 0 → b ≠ 0 →
    gmul standard a b = gexp standard ((glog standard a + glog standard b) % 255)) ∧
  (∀ a : Byte, gmul standard a 0 = 0 ∧ gmul standard 0 a = 0 ∧ gmul standard a 1 = a) ∧
  (∀ a b : Byte, gmul standard a b = gmul standard b a) ∧
  (∀ a b c : Byte, gmul standard (gmul standard a b) c = gmul standard a (gmul standard b c)) ∧
  (∀ a b c : Byte, gmul standard a (b ^^^ c) = gmul standard a b ^^^ gmul standard a c)

/-- R141, R145 (the base 2 is supplied by the spec): the antilog table starts at 1, each entry is the one
before shifted left and reduced by `0x11D`, it closes at 255; the logarithm inverts it on 1..255. -/
def Obligations.LogInvertsAntilog : Prop :=
  gexp standard 0 = 1 ∧ gexp standard 255 = 1 ∧
  (∀ i, gexp standard (i + 1) =
    (gexp standard i <<< 1) ^^^ (if (gexp standard i).getLsbD 7 then 0x1D else 0)) ∧
  (∀ i, i < 255 → glog standard (gexp standard i) = i) ∧
  (∀ a : Byte, a ≠ 0 → glog standard a < 255 ∧ gexp standard (glog standard a) = a)

/-- R143: the quotient by a non-zero element is the one element whose product with it is the dividend. -/
def Obligations.QuotientIsUnique : Prop :=
  ∀ a b : Byte, b ≠ 0 →
    gmul standard (gdiv standard a b) b = a ∧ (a = 0 → gdiv standard a b = 0) ∧
    (a ≠ 0 → gdiv standard a b = gexp standard ((glog standard a + 255 - glog standard b) % 255)) ∧
    ∀ q : Byte, gmul standard q b = a → q = gdiv standard a b

/-- R149 to R153: in every phase but `FAULT` the field queries return the product, the quotient, the power,
the logarithm and the generator coefficient, and change nothing; a zero divisor and the logarithm of zero
take `GfDomain`, a degree outside 1..30 or a power above the degree `BadOperand`. -/
def Obligations.FieldQueriesAnswer : Prop :=
  (ReservedBitsRefused 0x50 23 16 ∧ ReservedBitsRefused 0x51 23 16 ∧ ReservedBitsRefused 0x52 23 8 ∧
    ReservedBitsRefused 0x53 23 8 ∧ ReservedBitsRefused 0x54 23 16) ∧
  ∀ (s : State) (a b : Nat), a < 256 → b < 256 → s.phase ≠ .fault →
    ((encode (.gfmul a b)).toNat = 0x50 * 2 ^ 24 + a * 2 ^ 8 + b ∧
      exec (.gfmul a b) s =
        .next (afterResponse ((gmul standard (BitVec.ofNat 8 a) (BitVec.ofNat 8 b)).setWidth 32) s)) ∧
    ((encode (.gfdiv a b)).toNat = 0x51 * 2 ^ 24 + a * 2 ^ 8 + b ∧
      (b = 0 → exec (.gfdiv a b) s = .next (afterFault .gfDomain (encode (.gfdiv a b)) s)) ∧
      (b ≠ 0 → exec (.gfdiv a b) s =
        .next (afterResponse ((gdiv standard (BitVec.ofNat 8 a) (BitVec.ofNat 8 b)).setWidth 32) s))) ∧
    ((encode (.gfexp b)).toNat = 0x52 * 2 ^ 24 + b ∧
      exec (.gfexp b) s = .next (afterResponse ((gexp standard b).setWidth 32) s)) ∧
    ((encode (.gflog b)).toNat = 0x53 * 2 ^ 24 + b ∧
      (b = 0 → exec (.gflog b) s = .next (afterFault .gfDomain (encode (.gflog b)) s)) ∧
      (b ≠ 0 → exec (.gflog b) s =
        .next (afterResponse (BitVec.ofNat 32 (glog standard (BitVec.ofNat 8 b))) s))) ∧
    ((encode (.genc a b)).toNat = 0x54 * 2 ^ 24 + a * 2 ^ 8 + b ∧
      (a = 0 ∨ 31 ≤ a ∨ a < b →
        exec (.genc a b) s = .next (afterFault .badOperand (encode (.genc a b)) s)) ∧
      (1 ≤ a → a ≤ 30 → b ≤ a → exec (.genc a b) s =
        .next (afterResponse ((genCoefficient standard a b).setWidth 32) s)))

/-- R147 (the roots are supplied by the spec): `gen(k)` starts at 1 and each `gen(k+1)` is `gen(k)` times
`x + ALPHA^(GENROOT0 + k)`, with `GENROOT0 = 0` in the standard tables; it is monic of degree `k`. -/
def Obligations.GeneratorIsTheProduct : Prop :=
  standard.GENROOT0 = 0 ∧
  ∀ p : Params,
    gen p 0 = [1] ∧
    (∀ k j : Nat, genCoefficient p (k + 1) j =
      (if j = 0 then 0 else genCoefficient p k (j - 1)) ^^^
        gmul p (gexp p (p.GENROOT0 + k)) (genCoefficient p k j)) ∧
    (∀ k : Nat, genCoefficient p k k = 1 ∧ ∀ j, k < j → genCoefficient p k j = 0)

/-- `gen(k)` vanishes at `ALPHA^0 .. ALPHA^(k-1)`, and its constant term is `ALPHA^(k(k-1)/2)`. Derived from
42_gf256.md sections 2 and 3. -/
def Obligations.GeneratorRootsAndConstantTerm : Prop :=
  (∀ k i : Nat, i < k → evalPoly (gexp standard i) (gen standard k).reverse = 0) ∧
  (∀ k : Nat, genCoefficient standard k 0 = gexp standard (k * (k - 1) / 2 % 255))

/-! ### The coder -/

/-- The data of a block followed by its correction codewords is a polynomial that vanishes at every root of
the generator polynomial: the defining property of the code, which any standard decoder rests on. Derived
from 43_rs_coder.md section 2 (its rule marked derived). -/
def Obligations.CodewordPolynomialVanishesAtTheRoots : Prop :=
  ∀ (d : List Byte) (k i : Nat), 1 ≤ k → k ≤ 30 → i < k →
    evalPoly (gexp standard i) (d ++ rsrem standard d k) = 0

/-- The remainder is linear, has `K` coefficients, and is zero for zero data. Derived from 43_rs_coder.md
section 2. -/
def Obligations.RemainderIsLinear : Prop :=
  ∀ p : Params,
    (∀ (d e : List Byte) (k : Nat), d.length = e.length →
      rsrem p (xorLists d e) k = xorLists (rsrem p d k) (rsrem p e k)) ∧
    (∀ (d : List Byte) (k : Nat), (rsrem p d k).length = k) ∧
    (∀ n k : Nat, rsrem p (List.replicate n 0) k = List.replicate k 0)

/-- R162: the blocks are cut from `DBUF` one after another, group 1 first, and fill the data exactly. -/
def Obligations.BlocksPartitionTheData : Prop :=
  ∀ s : Block,
    (∀ b, b < s.nb1.toNat → blockLength s b = s.dc1.toNat) ∧
    (∀ b, s.nb1.toNat ≤ b → blockLength s b = s.dc2.toNat) ∧
    blockStart s 0 = 0 ∧
    (∀ b, b < s.nb1.toNat + s.nb2.toNat →
      blockStart s (b + 1) = blockStart s b + blockLength s b) ∧
    blockStart s (s.nb1.toNat + s.nb2.toNat) =
      s.nb1.toNat * s.dc1.toNat + s.nb2.toNat * s.dc2.toNat ∧
    (∀ b, (blockData s b).length = blockLength s b ∧ ∀ i, i < blockLength s b →
      (blockData s b).getD i 0 = readCodeword s.dbuf (blockStart s b + i))

/-- R166, R167: `ECC` in `FILLED` writes the `K` correction codewords of block `b` at `EBUF[b*K ..]`, in all
`TOT - DCAP` of them, enters `CODED`, and changes nothing else. -/
def Obligations.EccCodesEveryBlock : Prop :=
  encode .ecc = 0x20000000 ∧ ReservedBitsRefused 0x20 23 0 ∧
  (∀ s : State, s.phase ≠ .fault → s.phase ≠ .filled →
    exec .ecc s = .next (afterFault .badPhase 0x20000000 s)) ∧
  (∀ s : Block, SplitGeometry s →
    (s.nb1.toNat + s.nb2.toNat) * s.k.toNat = s.tot.toNat - s.dcap.toNat) ∧
  ∀ s : State, s.phase = .filled → MemoriesCanonical s.toBlock → WithinSizes s.toBlock →
    ∃ t : State, exec .ecc s = .next t ∧ t.response = some ⟨true, 0⟩ ∧ t.phase = .coded ∧
      (∀ b j, b < s.nb1.toNat + s.nb2.toNat → j < s.k.toNat →
        readCodeword t.ebuf (b * s.k.toNat + j) =
          (rsrem standard (blockData s.toBlock b) s.k.toNat).getD j 0) ∧
      (∀ i, (s.nb1.toNat + s.nb2.toNat) * s.k.toNat ≤ i →
        readCodeword t.ebuf i = readCodeword s.ebuf i) ∧
      { t with phase := s.phase, ebuf := s.ebuf, response := s.response } = s

/-- R168, R169 (the skip of a block with no codeword left is supplied by the spec): `ILV` in `CODED` writes
the data codewords of all blocks round by round, then the correction codewords round by round, enters
`STREAMED`, and changes nothing else. -/
def Obligations.IlvInterleavesRoundRobin : Prop :=
  encode .ilv = 0x21000000 ∧ ReservedBitsRefused 0x21 23 0 ∧
  (∀ s : State, s.phase ≠ .fault → s.phase ≠ .coded →
    exec .ilv s = .next (afterFault .badPhase 0x21000000 s)) ∧
  ∀ (s : State) (nb : Nat), s.phase = .coded → MemoriesCanonical s.toBlock →
    WithinSizes s.toBlock → SplitGeometry s.toBlock →
    nb = s.nb1.toNat + s.nb2.toNat →
    ∃ t : State, exec .ilv s = .next t ∧ t.response = some ⟨true, 0⟩ ∧ t.phase = .streamed ∧
      (∀ i b, i < s.dc1.toNat → b < nb →
        readCodeword t.obuf (i * nb + b) = readCodeword s.dbuf (blockStart s.toBlock b + i)) ∧
      (∀ b, s.nb1.toNat ≤ b → b < nb →
        readCodeword t.obuf (s.dc1.toNat * nb + (b - s.nb1.toNat)) =
          readCodeword s.dbuf (blockStart s.toBlock b + s.dc1.toNat)) ∧
      (∀ i b, i < s.k.toNat → b < nb →
        readCodeword t.obuf (s.dcap.toNat + i * nb + b) =
          readCodeword s.ebuf (b * s.k.toNat + i)) ∧
      (∀ i, s.tot.toNat ≤ i → readCodeword t.obuf i = readCodeword s.obuf i) ∧
      { t with phase := s.phase, obuf := s.obuf, response := s.response } = s

/-! ### The matrix and the scorer -/

/-- R181, R182: `MSET` in `STREAMED` writes one module, Unset or Data, as Data or Reserved; coordinates
outside the matrix and the tags 0 and 3 take `BadOperand`, a Reserved module `ReservedOverwrite`; no command
but `RST` makes a module Unset. -/
def Obligations.MsetWritesOneModule : Prop :=
  ReservedBitsRefused 0x30 7 3 ∧
  (∀ (i : Instr) (s t : State) (r c : Nat), exec i s = .next t → i ≠ .rst →
    (readModule t.mod r c).tag = .unset → (readModule s.mod r c).tag = .unset) ∧
  ∀ (s : State) (row col tag : Nat) (dark : Bool), row < 256 → col < 256 → tag < 4 →
    (encode (.mset row col tag dark)).toNat =
      0x30 * 2 ^ 24 + row * 2 ^ 16 + col * 2 ^ 8 + tag * 2 + dark.toNat ∧
    (s.phase ≠ .fault → s.phase ≠ .streamed →
      exec (.mset row col tag dark) s =
        .next (afterFault .badPhase (encode (.mset row col tag dark)) s)) ∧
    (s.phase = .streamed → s.n.toNat ≤ row ∨ s.n.toNat ≤ col ∨ tag = 0 ∨ tag = 3 →
      exec (.mset row col tag dark) s =
        .next (afterFault .badOperand (encode (.mset row col tag dark)) s)) ∧
    (s.phase = .streamed → row < s.n.toNat → col < s.n.toNat → tag = 1 ∨ tag = 2 →
      (readModule s.mod row col).tag = .reserved →
      exec (.mset row col tag dark) s =
        .next (afterFault .reservedOverwrite (encode (.mset row col tag dark)) s)) ∧
    (s.phase = .streamed → row < s.n.toNat → col < s.n.toNat → tag = 1 ∨ tag = 2 →
      (readModule s.mod row col).tag ≠ .reserved → WithinSizes s.toBlock →
      ∃ t : State, exec (.mset row col tag dark) s = .next t ∧ t.response = some ⟨true, 0⟩ ∧
        readModule t.mod row col = ⟨if tag = 1 then .data else .reserved, dark⟩ ∧
        (∀ r c, c < 256 → (r, c) ≠ (row, col) → readModule t.mod r c = readModule s.mod r c) ∧
        { t with mod := s.mod, response := s.response } = s)

/-- R184 (formulas the spec supplies), R185: candidate `k` is the N by N matrix whose module is flipped
exactly where the tag is Data and the mask's formula holds. -/
def Obligations.CandidatesFlipOnlyDataModules : Prop :=
  (∀ r c : Nat,
    (MASKF 0 r c = true ↔ (r + c) % 2 = 0) ∧ (MASKF 1 r c = true ↔ r % 2 = 0) ∧
    (MASKF 2 r c = true ↔ c % 3 = 0) ∧ (MASKF 3 r c = true ↔ (r + c) % 3 = 0) ∧
    (MASKF 4 r c = true ↔ (r / 2 + c / 3) % 2 = 0) ∧
    (MASKF 5 r c = true ↔ (r * c) % 2 + (r * c) % 3 = 0) ∧
    (MASKF 6 r c = true ↔ ((r * c) % 2 + (r * c) % 3) % 2 = 0) ∧
    (MASKF 7 r c = true ↔ ((r + c) % 2 + (r * c) % 3) % 2 = 0)) ∧
  ∀ (k n : Nat) (m : Matrix), n ≤ 256 →
    IsSquare n (candidate standard k n m) ∧
    ∀ r c, r < n → c < n →
      ((readModule m r c).tag = .data ∧ MASKF k r c = true →
        cell (candidate standard k n m) r c = !(readModule m r c).dark) ∧
      (¬((readModule m r c).tag = .data ∧ MASKF k r c = true) →
        cell (candidate standard k n m) r c = (readModule m r c).dark)

/-- A Reserved module has its own colour in every candidate, and `RDM` returns the same for every selection.
Derived from 44_mask_scorer.md section 4 (its rule on structural invariance, marked derived) and
45_readout.md. -/
def Obligations.StructuralModulesKeepTheirColour : Prop :=
  ∀ (s : State) (r c : Nat), r < s.n.toNat → c < s.n.toNat →
    (readModule s.mod r c).tag = .reserved →
    (∀ k, cell (candidate standard k s.n.toNat s.mod) r c = (readModule s.mod r c).dark) ∧
    (s.phase = .streamed ∨ s.phase = .masked → ∀ msel, msel ≤ 8 →
      ∃ t : State, exec (.rdm r c msel) s = .next t ∧
        t.response = some ⟨true, BitVec.ofNat 32 (4 + (readModule s.mod r c).dark.toNat)⟩)

/-- R186: every line is partitioned into its runs: they are not empty, their colours alternate, and laid end
to end they are the line. -/
def Obligations.RunsPartitionTheLine : Prop :=
  ∀ line : List Bool,
    alternating (line.headD false) (runLengths line) = line ∧
    ∀ len ∈ runLengths line, 1 ≤ len

/-- R187 (the amounts are supplied by the spec): rule (a) adds `3 + (L - 5)` for every run of length `L ≥ 5`
of the `2N` lines. -/
def Obligations.RunPenaltyCountsLongRuns : Prop :=
  ∀ (n : Nat) (rows : List (List Bool)), IsSquare n rows →
    penaltyRuns standard n rows = sumOverLines n rows fun line =>
      (((runLengths line).filter fun len => decide (5 ≤ len)).map fun len => 3 + (len - 5)).sum

/-- R188 (the amount is supplied by the spec): rule (b) adds 3 for every 2 by 2 window of one colour. -/
def Obligations.WindowPenaltyCountsUniformWindows : Prop :=
  ∀ (n : Nat) (rows : List (List Bool)), IsSquare n rows →
    penaltyWindows standard rows = 3 * ((List.range (n - 1)).map fun r =>
      (List.range (n - 1)).countP fun c =>
        cell rows r c == cell rows r (c + 1) && cell rows r c == cell rows (r + 1) c &&
          cell rows r c == cell rows (r + 1) (c + 1)).sum

/-- R189 (patterns and amount are supplied by the spec): rule (c) adds 40 for every place of the `2N` lines
that holds one of the two patterns, wholly inside the matrix. -/
def Obligations.FinderPenaltyCountsBothPatterns : Prop :=
  ∀ (n : Nat) (rows : List (List Bool)), IsSquare n rows →
    penaltyFinders standard n rows = 40 * sumOverLines n rows fun line =>
      windowsHolding n
          [true, false, true, true, true, false, true, false, false, false, false] line +
        windowsHolding n
          [false, false, false, false, true, false, true, true, true, false, true] line

/-- R190 (the step and the rounding are supplied by the spec): rule (d) adds 10 for every whole 5% by which
the dark share differs from a half. -/
def Obligations.BalancePenaltyMeasuresTheDarkShare : Prop :=
  ∀ (n dark : Nat) (rows : List (List Bool)), IsSquare n rows →
    dark = ((List.range n).map fun r => (List.range n).countP fun c => cell rows r c).sum →
    penaltyBalance standard n rows =
      10 * (((2 * (dark : Int) - (n * n : Nat)).natAbs * 10) / (n * n))

/-- The bounds on the four rules, which keep every penalty far below 32 bits. Derived from 10_state.md
section 7 (its rule on the bound, marked derived). -/
def Obligations.PenaltiesNeverOverflow : Prop :=
  ∀ (n : Nat) (rows : List (List Bool)), n ≤ 177 → IsSquare n rows →
    penaltyRuns standard n rows ≤ 2 * n * (n - 2) ∧
    penaltyWindows standard rows ≤ 3 * (n - 1) ^ 2 ∧
    penaltyFinders standard n rows ≤ 40 * (2 * n * (n - 10)) ∧
    penaltyBalance standard n rows ≤ 100 ∧
    penaltyRuns standard n rows + penaltyWindows standard rows + penaltyFinders standard n rows +
      penaltyBalance standard n rows < 2 ^ 22

/-- R193, R192, R191: `SCORE` in `STREAMED` takes `UnsetCell` while a module of the N by N area is Unset;
else it records the four penalties and their sum for each candidate and the least index of the minimal sum,
enters `MASKED`, and changes nothing else. -/
def Obligations.ScoreScoresEveryCandidate : Prop :=
  encode .score = 0x31000000 ∧ ReservedBitsRefused 0x31 23 0 ∧
  (∀ s : State, s.phase ≠ .fault → s.phase ≠ .streamed →
    exec .score s = .next (afterFault .badPhase 0x31000000 s)) ∧
  (∀ (s : State) (r c : Nat), s.phase = .streamed → r < s.n.toNat → c < s.n.toNat →
    (readModule s.mod r c).tag = .unset →
    exec .score s = .next (afterFault .unsetCell 0x31000000 s)) ∧
  ∀ s : State, s.phase = .streamed → s.n.toNat ≤ 177 →
    (∀ r c, r < s.n.toNat → c < s.n.toNat → (readModule s.mod r c).tag ≠ .unset) →
    ∃ t : State, exec .score s = .next t ∧ t.response = some ⟨true, 0⟩ ∧ t.phase = .masked ∧
      (∀ j : Fin 8,
        ((t.penr.get j).get 0).toNat =
          penaltyRuns standard s.n.toNat (candidate standard j s.n.toNat s.mod) ∧
        ((t.penr.get j).get 1).toNat =
          penaltyWindows standard (candidate standard j s.n.toNat s.mod) ∧
        ((t.penr.get j).get 2).toNat =
          penaltyFinders standard s.n.toNat (candidate standard j s.n.toNat s.mod) ∧
        ((t.penr.get j).get 3).toNat =
          penaltyBalance standard s.n.toNat (candidate standard j s.n.toNat s.mod) ∧
        (t.pen.get j).toNat = ((t.penr.get j).get 0).toNat + ((t.penr.get j).get 1).toNat +
          ((t.penr.get j).get 2).toNat + ((t.penr.get j).get 3).toNat) ∧
      (∃ b : Fin 8, t.best.toNat = b ∧ IsBest t.pen b) ∧
      { t with
        phase := s.phase, pen := s.pen, penr := s.penr, best := s.best,
        response := s.response } = s

/-- R195: what `SCORE` decides is a function of `N` and of the modules of the N by N area alone: two states
that agree on these get the same phase, penalties and choice. -/
def Obligations.ScoreDependsOnlyOnTheMatrix : Prop :=
  ∀ s u s' u' : State, s.phase = .streamed → u.phase = .streamed → s.n = u.n →
    (∀ r c, r < s.n.toNat → c < s.n.toNat → readModule s.mod r c = readModule u.mod r c) →
    exec .score s = .next s' → exec .score u = .next u' →
    s'.phase = u'.phase ∧ s'.response = u'.response ∧
    (s'.phase = .masked → s'.pen = u'.pen ∧ s'.penr = u'.penr ∧ s'.best = u'.best)

/-! ### Read-out -/

/-- R210 with the map of R37, R38 and the words of R21: `RDR` returns every mapped register in every phase
and changes nothing; an unmapped address takes `BadOperand`, and in `FAULT` is refused. -/
def Obligations.RdrReadsTheRegisterMap : Prop :=
  (ReservedBitsRefused 0x40 23 8 ∧ ∀ addr, addr < 256 →
    (encode (.rdr addr)).toNat = 0x40 * 2 ^ 24 + addr) ∧
  (errCode none = 0 ∧ errCode (some .invalidOption) = 1 ∧ errCode (some .dataTooLong) = 2 ∧
    errCode (some .unsupportedCharacter) = 3 ∧ errCode (some .illegalCommand) = 4 ∧
    errCode (some .badPhase) = 5 ∧ errCode (some .badOperand) = 6 ∧
    errCode (some .reservedOverwrite) = 7 ∧ errCode (some .unsetCell) = 8 ∧
    errCode (some .gfDomain) = 9) ∧
  ∀ s : State,
    RdrReturns s 0x00 (BitVec.ofNat 32 (s.phase.code.toNat + 2 ^ 4 * (errCode s.err).toNat)) ∧
    RdrReturns s 0x01 (BitVec.ofNat 32 (s.ver.toNat + 2 ^ 6 * s.ecl.toNat)) ∧
    RdrReturns s 0x02 (BitVec.ofNat 32 s.n.toNat) ∧ RdrReturns s 0x03 (BitVec.ofNat 32 s.tot.toNat) ∧
    RdrReturns s 0x04 (BitVec.ofNat 32 s.dcap.toNat) ∧ RdrReturns s 0x05 (BitVec.ofNat 32 s.k.toNat) ∧
    RdrReturns s 0x06 (BitVec.ofNat 32 s.nb1.toNat) ∧ RdrReturns s 0x07 (BitVec.ofNat 32 s.dc1.toNat) ∧
    RdrReturns s 0x08 (BitVec.ofNat 32 s.nb2.toNat) ∧ RdrReturns s 0x09 (BitVec.ofNat 32 s.dc2.toNat) ∧
    RdrReturns s 0x0A (BitVec.ofNat 32 s.bitlen.toNat) ∧ RdrReturns s 0x0B (BitVec.ofNat 32 s.best.toNat) ∧
    RdrReturns s 0x0C s.finfo ∧ RdrReturns s 0x0F 0x42534501 ∧
    (∀ j : Fin 8, RdrReturns s (0x10 + j) (s.pen.get j)) ∧
    (∀ (j : Fin 8) (l : Fin 4), RdrReturns s (0x20 + 4 * j + l) ((s.penr.get j).get l)) ∧
    (∀ addr, addr = 0x0D ∨ addr = 0x0E ∨ (0x18 ≤ addr ∧ addr ≤ 0x1F) ∨ (0x40 ≤ addr ∧ addr ≤ 0xFF) →
      (s.phase ≠ .fault →
        exec (.rdr addr) s = .next (afterFault .badOperand (encode (.rdr addr)) s)) ∧
      (s.phase = .fault →
        exec (.rdr addr) s = .next { s with response := some ⟨false, 0⟩ }))

/-- R211, R212, R213: `RDD`, `RDE`, `RDO` return the codeword at a valid index in the phases where the buffer
is complete, and change nothing; an earlier phase takes `BadPhase`, an index past the valid ones
`BadOperand`. -/
def Obligations.BufferReadsReturnTheirCodeword : Prop :=
  (ReservedBitsRefused 0x41 23 12 ∧ ReservedBitsRefused 0x42 23 12 ∧ ReservedBitsRefused 0x43 23 12) ∧
  ∀ (s : State) (idx : Nat), idx < 2 ^ 12 →
    ((encode (.rdd idx)).toNat = 0x41 * 2 ^ 24 + idx ∧
      (s.phase = .unbuilt ∨ s.phase = .packing →
        exec (.rdd idx) s = .next (afterFault .badPhase (encode (.rdd idx)) s)) ∧
      (s.phase = .filled ∨ s.phase = .coded ∨ s.phase = .streamed ∨ s.phase = .masked →
        (s.dcap.toNat ≤ idx →
          exec (.rdd idx) s = .next (afterFault .badOperand (encode (.rdd idx)) s)) ∧
        (idx < s.dcap.toNat → exec (.rdd idx) s =
          .next (afterResponse (BitVec.ofNat 32 (readCodeword s.dbuf idx).toNat) s)))) ∧
    ((encode (.rde idx)).toNat = 0x42 * 2 ^ 24 + idx ∧
      (s.phase = .unbuilt ∨ s.phase = .packing ∨ s.phase = .filled →
        exec (.rde idx) s = .next (afterFault .badPhase (encode (.rde idx)) s)) ∧
      (s.phase = .coded ∨ s.phase = .streamed ∨ s.phase = .masked →
        (s.tot.toNat - s.dcap.toNat ≤ idx →
          exec (.rde idx) s = .next (afterFault .badOperand (encode (.rde idx)) s)) ∧
        (idx < s.tot.toNat - s.dcap.toNat → exec (.rde idx) s =
          .next (afterResponse (BitVec.ofNat 32 (readCodeword s.ebuf idx).toNat) s)))) ∧
    ((encode (.rdo idx)).toNat = 0x43 * 2 ^ 24 + idx ∧
      (s.phase = .unbuilt ∨ s.phase = .packing ∨ s.phase = .filled ∨ s.phase = .coded →
        exec (.rdo idx) s = .next (afterFault .badPhase (encode (.rdo idx)) s)) ∧
      (s.phase = .streamed ∨ s.phase = .masked →
        (s.tot.toNat ≤ idx →
          exec (.rdo idx) s = .next (afterFault .badOperand (encode (.rdo idx)) s)) ∧
        (idx < s.tot.toNat → exec (.rdo idx) s =
          .next (afterResponse (BitVec.ofNat 32 (readCodeword s.obuf idx).toNat) s))))

/-- R214: `RDM` returns the tag and the colour of a module, flipped when the selection is a mask that flips
this Data module, and changes nothing; in states where Unset modules are light the response is 0, 2, 3, 4
or 5. -/
def Obligations.RdmReadsTheSelectedModule : Prop :=
  ReservedBitsRefused 0x44 7 4 ∧
  ∀ (s : State) (row col msel : Nat), row < 256 → col < 256 → msel < 16 →
    (encode (.rdm row col msel)).toNat =
      0x44 * 2 ^ 24 + row * 2 ^ 16 + col * 2 ^ 8 + msel ∧
    (s.phase = .unbuilt ∨ s.phase = .packing ∨ s.phase = .filled ∨ s.phase = .coded →
      exec (.rdm row col msel) s =
        .next (afterFault .badPhase (encode (.rdm row col msel)) s)) ∧
    (s.phase = .streamed ∨ s.phase = .masked →
      (s.n.toNat ≤ row ∨ s.n.toNat ≤ col ∨ 9 ≤ msel →
        exec (.rdm row col msel) s =
          .next (afterFault .badOperand (encode (.rdm row col msel)) s)) ∧
      (row < s.n.toNat → col < s.n.toNat → msel ≤ 8 →
        ∃ (tag : Nat) (dark : Bool) (v : Word),
          exec (.rdm row col msel) s = .next (afterResponse v s) ∧
          v.toNat = 2 * tag + dark.toNat ∧
          ((readModule s.mod row col).tag = .unset → tag = 0) ∧
          ((readModule s.mod row col).tag = .data → tag = 1) ∧
          ((readModule s.mod row col).tag = .reserved → tag = 2) ∧
          (msel ≤ 7 ∧ (readModule s.mod row col).tag = .data ∧ MASKF msel row col = true →
            dark = !(readModule s.mod row col).dark) ∧
          (¬(msel ≤ 7 ∧ (readModule s.mod row col).tag = .data ∧ MASKF msel row col = true) →
            dark = (readModule s.mod row col).dark) ∧
          (UnsetIsLight s.toBlock → v = 0 ∨ v = 2 ∨ v = 3 ∨ v = 4 ∨ v = 5)))

/-- R66: a read or query that completes changes no state, and repeating it returns the same value; one that
faults does what any fault does. -/
def Obligations.ReadsChangeNothing : Prop :=
  ∀ (i : Instr) (s t : State) (v : Word), IsRead i → exec i s = .next t →
    (t.response = some ⟨true, v⟩ →
      t = (afterResponse v s) ∧ exec i t = .next t) ∧
    (t.response = some ⟨false, v⟩ → s.phase ≠ .fault →
      ∃ c, t = afterFault c (encode i) s)

/-- No command responds with contents the call has not yet produced: the response of a command given in a phase
where a buffer is not readable does not depend on that buffer, `DBUF` before `FILLED`, `EBUF` before `CODED`,
`OBUF` and the matrix before `STREAMED`, and none of them in `FAULT`; and what `EBUF` and `OBUF` held before
`ECC` and `ILV` does not reach their valid entries after it. Derived from 20_memory.md section 5 (its rule on
when a buffer is readable) and 10_state.md section 9 (`EBUF` and `OBUF` alone). -/
def Obligations.NoResponseShowsUnproducedContents : Prop :=
  (∀ (i : Instr) (s t u : State) (m : Buffer) (q : Matrix), exec i s = .next t →
    (s.phase = .unbuilt ∨ s.phase = .packing ∨ s.phase = .fault →
      exec i { s with dbuf := m } = .next u → u.response = t.response) ∧
    (s.phase = .unbuilt ∨ s.phase = .packing ∨ s.phase = .filled ∨ s.phase = .fault →
      exec i { s with ebuf := m } = .next u → u.response = t.response) ∧
    (s.phase ≠ .streamed → s.phase ≠ .masked →
      (exec i { s with obuf := m } = .next u → u.response = t.response) ∧
      (exec i { s with mod := q } = .next u → u.response = t.response))) ∧
  (∀ (s t u : State) (m : Buffer), s.phase = .filled → WithinSizes s.toBlock →
    MemoriesCanonical s.toBlock → MemoriesCanonical { s.toBlock with ebuf := m } →
    exec .ecc s = .next t → exec .ecc { s with ebuf := m } = .next u →
    ∀ i, i < (s.nb1.toNat + s.nb2.toNat) * s.k.toNat → readCodeword u.ebuf i = readCodeword t.ebuf i) ∧
  (∀ (s t u : State) (m : Buffer), s.phase = .coded → WithinSizes s.toBlock → SplitGeometry s.toBlock →
    MemoriesCanonical s.toBlock → MemoriesCanonical { s.toBlock with obuf := m } →
    exec .ilv s = .next t → exec .ilv { s with obuf := m } = .next u →
    ∀ i, i < s.tot.toNat → readCodeword u.obuf i = readCodeword t.obuf i)
end

