-- ==== Sys2Proof/Laws/Gf256.lean ====
section
/-! SUPPORT. Linearity of the field operations and the lengths of the polynomials, whatever the tables. -/

namespace Sys2Proof.Machine

/-- Adding an element twice adds nothing (spec 42_gf256.md R146). -/
theorem xor_xor_cancel (a x : Byte) : a ^^^ (a ^^^ x) = x := by
  rw [← BitVec.xor_assoc, BitVec.xor_self, BitVec.zero_xor]

/-- The sum of two sums. -/
theorem xor_xor_xor_comm (a b c d : Byte) : (a ^^^ b) ^^^ (c ^^^ d) = (a ^^^ c) ^^^ (b ^^^ d) := by
  ac_rfl

variable (p : Params)

/-- `xtime` is additive (spec 42_gf256.md R146). -/
theorem xtime_xor (a b : Byte) : xtime p (a ^^^ b) = xtime p a ^^^ xtime p b := by
  unfold xtime
  rw [BitVec.getLsbD_xor, BitVec.shiftLeft_xor_distrib, xor_xor_xor_comm]
  cases a.getLsbD 7 <;> cases b.getLsbD 7 <;> simp

@[simp] theorem xtime_zero : xtime p 0 = 0 := by simp [xtime]

/-- `gmul` is additive in its first operand (R142). -/
theorem gmul_xor_left (a a' b : Byte) : gmul p (a ^^^ a') b = gmul p a b ^^^ gmul p a' b := by
  have key : ∀ (l : List Nat) (x x' : Byte),
      l.foldl (fun acc j => xtime p acc ^^^ (if b.getLsbD j then a ^^^ a' else 0)) (x ^^^ x') =
        l.foldl (fun acc j => xtime p acc ^^^ (if b.getLsbD j then a else 0)) x ^^^
          l.foldl (fun acc j => xtime p acc ^^^ (if b.getLsbD j then a' else 0)) x' := by
    intro l
    induction l with
    | nil => intro x x'; rfl
    | cons j rest ih =>
      intro x x'
      simp only [List.foldl_cons]
      rw [← ih, xtime_xor]
      congr 1
      rw [xor_xor_xor_comm]
      cases b.getLsbD j <;> simp
  exact key _ 0 0

/-- `gmul` is additive in its second operand (R142). -/
theorem gmul_xor_right (a b b' : Byte) : gmul p a (b ^^^ b') = gmul p a b ^^^ gmul p a b' := by
  have key : ∀ (l : List Nat) (x x' : Byte),
      l.foldl (fun acc j => xtime p acc ^^^ (if (b ^^^ b').getLsbD j then a else 0)) (x ^^^ x') =
        l.foldl (fun acc j => xtime p acc ^^^ (if b.getLsbD j then a else 0)) x ^^^
          l.foldl (fun acc j => xtime p acc ^^^ (if b'.getLsbD j then a else 0)) x' := by
    intro l
    induction l with
    | nil => intro x x'; rfl
    | cons j rest ih =>
      intro x x'
      simp only [List.foldl_cons]
      rw [← ih, xtime_xor]
      congr 1
      rw [BitVec.getLsbD_xor, xor_xor_xor_comm]
      cases b.getLsbD j <;> cases b'.getLsbD j <;> simp
  exact key _ 0 0

@[simp] theorem gmul_zero_left (b : Byte) : gmul p 0 b = 0 := by
  have h := gmul_xor_left p 0 0 b
  simpa using h

@[simp] theorem gmul_zero_right (a : Byte) : gmul p a 0 = 0 := by
  have h := gmul_xor_right p a 0 0
  simpa using h

/-! ### Lengths -/

@[simp] theorem mulByRoot_length (g : List Byte) (r : Byte) :
    (mulByRoot p g r).length = g.length + 1 := by simp [mulByRoot]

@[simp] theorem gen_length (k : Nat) : (gen p k).length = k + 1 := by
  induction k with
  | zero => rfl
  | succ k ih => simp [gen, ih]

@[simp] theorem feedback_length (k : Nat) : (feedback p k).length = k := by simp [feedback]

theorem rsStep_length {fb r : List Byte} (d : Byte) (h : r.length = fb.length) :
    (rsStep p fb r d).length = fb.length := by
  simp only [rsStep, List.length_zipWith, List.length_append, List.length_drop, List.length_singleton]
  omega

/-- The remainder has `K` coefficients (43_rs_coder.md R164). -/
@[simp] theorem rsrem_length (d : List Byte) (k : Nat) : (rsrem p d k).length = k := by
  have key : ∀ (d r : List Byte), r.length = k →
      (d.foldl (rsStep p (feedback p k)) r).length = k := by
    intro d
    induction d with
    | nil => intro r h; exact h
    | cons x rest ih =>
      intro r h
      exact ih _ (by rw [rsStep_length _ _ (by simpa using h)]; simp)
  exact key d _ (by simp)

/-- The blocks, the rounds and the stream have the lengths their rules give them (R162, R169). -/
@[simp] theorem blockData_length (s : Block) (b : Nat) : (blockData s b).length = blockLength s b := by
  simp [blockData]

@[simp] theorem correctionRound_length (s : Block) (i : Nat) :
    (correctionRound s i).length = blockCount s := by simp [correctionRound]

end Sys2Proof.Machine
end

