-- ==== Sys2Proof/Laws/Memory.lean ====
section
/-! SUPPORT. Laws of the sparse memories and of the bits of the data stream: a read after a write, the
canonical form, the sizes, and what a written field reads as. -/

namespace Sys2Proof.Machine

section Sparse

variable {α : Type} [DecidableEq α] {d : α}

/-- An address below every listed one reads as an unlisted address. -/
theorem Memory.read_of_wfFrom_lt {m : List (Nat × α)} {lo a : Nat} (h : Memory.wfFrom d lo m = true)
    (ha : a < lo) : Memory.read d m a = d := by
  induction m generalizing lo with
  | nil => rfl
  | cons e rest ih =>
    obtain ⟨k, x⟩ := e
    simp only [Memory.wfFrom, Bool.and_eq_true, decide_eq_true_eq] at h
    have hk : k ≠ a := by omega
    simpa [Memory.read, hk] using ih h.2 (by omega)

/-- A larger bound is a stronger form. -/
theorem Memory.wfFrom_mono {m : List (Nat × α)} {lo lo' : Nat} (h : Memory.wfFrom d lo m = true)
    (hle : lo' ≤ lo) : Memory.wfFrom d lo' m = true := by
  cases m with
  | nil => rfl
  | cons e rest =>
    obtain ⟨k, x⟩ := e
    simp only [Memory.wfFrom, Bool.and_eq_true, decide_eq_true_eq] at h ⊢
    exact ⟨⟨by omega, h.1.2⟩, h.2⟩

/-- A write leaves every other address alone. -/
theorem Memory.read_write_ne (m : List (Nat × α)) {a b : Nat} (v : α) (h : b ≠ a) :
    Memory.read d (Memory.write d m a v) b = Memory.read d m b := by
  induction m with
  | nil => by_cases hv : v = d <;> simp [Memory.write, Memory.read, hv, h.symm]
  | cons e rest ih =>
    obtain ⟨k, x⟩ := e
    simp only [Memory.write]
    split_ifs with h1 h2 h3 h4
    · rfl
    · simp [Memory.read, h.symm]
    · subst h3; simp [Memory.read, h.symm]
    · subst h3; simp [Memory.read, h.symm]
    · simp only [Memory.read]; split_ifs <;> first | rfl | exact ih

/-- A read after a write to the same address gives the value written. -/
theorem Memory.read_write_same {m : List (Nat × α)} {lo : Nat} (a : Nat) (v : α)
    (h : Memory.wfFrom d lo m = true) : Memory.read d (Memory.write d m a v) a = v := by
  induction m generalizing lo with
  | nil => by_cases hv : v = d <;> simp [Memory.write, Memory.read, hv]
  | cons e rest ih =>
    obtain ⟨k, x⟩ := e
    have hw := h
    simp only [Memory.wfFrom, Bool.and_eq_true, decide_eq_true_eq] at h
    simp only [Memory.write]
    split_ifs with h1 h2 h3 h4
    · have hk : k ≠ a := by omega
      simpa [Memory.read, hk, h2] using Memory.read_of_wfFrom_lt h.2 (by omega)
    · simp [Memory.read]
    · simpa [h4, h3] using Memory.read_of_wfFrom_lt h.2 (Nat.lt_succ_self k)
    · simp [Memory.read]
    · have hk : k ≠ a := fun e => h3 e.symm
      simpa [Memory.read, hk] using ih h.2

/-- A write keeps the canonical form. -/
theorem Memory.wfFrom_write {m : List (Nat × α)} {lo a : Nat} (v : α)
    (h : Memory.wfFrom d lo m = true) (ha : lo ≤ a) :
    Memory.wfFrom d lo (Memory.write d m a v) = true := by
  induction m generalizing lo with
  | nil => by_cases hv : v = d <;> simp [Memory.write, Memory.wfFrom, hv, ha]
  | cons e rest ih =>
    obtain ⟨k, x⟩ := e
    have hw := h
    simp only [Memory.wfFrom, Bool.and_eq_true, decide_eq_true_eq] at h
    simp only [Memory.write]
    split_ifs with h1 h2 h3 h4
    · exact hw
    · simp only [Memory.wfFrom, Bool.and_eq_true, decide_eq_true_eq]
      exact ⟨⟨ha, h2⟩, ⟨by omega, h.1.2⟩, h.2⟩
    · exact Memory.wfFrom_mono h.2 (by omega)
    · simp only [Memory.wfFrom, Bool.and_eq_true, decide_eq_true_eq]
      exact ⟨⟨ha, h4⟩, by rw [h3]; exact h.2⟩
    · simp only [Memory.wfFrom, Bool.and_eq_true, decide_eq_true_eq]
      exact ⟨h.1, ih h.2 (by omega)⟩

/-- A write keeps the canonical form. -/
theorem Memory.wf_write {m : List (Nat × α)} (a : Nat) (v : α) (h : Memory.wf d m = true) :
    Memory.wf d (Memory.write d m a v) = true :=
  Memory.wfFrom_write v h (Nat.zero_le a)

/-- What a write lists was listed before, or is at the written address. -/
theorem Memory.mem_write {m : List (Nat × α)} {a : Nat} {v : α} {e : Nat × α}
    (h : e ∈ Memory.write d m a v) : e ∈ m ∨ e.1 = a := by
  induction m with
  | nil => by_cases hv : v = d <;> simp_all [Memory.write]
  | cons x rest ih =>
    obtain ⟨k, y⟩ := x
    simp only [Memory.write] at h
    split_ifs at h <;> simp only [List.mem_cons] at h ⊢
    · exact .inl h
    · rcases h with rfl | h
      · exact .inr rfl
      · exact .inl h
    · exact .inl (.inr h)
    · rcases h with rfl | h
      · exact .inr rfl
      · exact .inl (.inr h)
    · rcases h with h | h
      · exact .inl (.inl h)
      · exact (ih h).imp_left .inr

/-- A write below a size keeps every listed address below it. -/
theorem Memory.below_write {m : List (Nat × α)} {size a : Nat} (v : α) (h : Memory.below size m = true)
    (ha : a < size) : Memory.below size (Memory.write d m a v) = true := by
  simp only [Memory.below, List.all_eq_true, decide_eq_true_eq] at *
  intro e he
  rcases Memory.mem_write he with hm | rfl
  · exact h e hm
  · exact ha

omit [DecidableEq α] in
/-- An address that nothing lists reads as an unlisted address. -/
theorem Memory.read_of_below {m : List (Nat × α)} {size a : Nat} (h : Memory.below size m = true)
    (ha : size ≤ a) : Memory.read d m a = d := by
  induction m with
  | nil => rfl
  | cons e rest ih =>
    obtain ⟨k, x⟩ := e
    simp only [Memory.below, List.all_cons, Bool.and_eq_true, decide_eq_true_eq] at h
    rw [Memory.read, if_neg (by omega)]
    exact ih h.2

/-- A memory with nothing listed is in canonical form, and below every size. -/
@[simp] theorem Memory.wf_nil : Memory.wf d [] = true := rfl

omit [DecidableEq α] in
@[simp] theorem Memory.below_nil (size : Nat) : Memory.below size ([] : List (Nat × α)) = true := rfl

end Sparse

/-! ### Codewords -/

@[simp] theorem readCodeword_nil (i : Nat) : readCodeword [] i = 0 := rfl

/-- A codeword outside the buffer is not written (00_scope.md R9; log entry 7). -/
theorem writeCodeword_outside {size i : Nat} (m : Buffer) (v : Byte) (h : size ≤ i) :
    writeCodeword size m i v = m := if_neg (Nat.not_lt.mpr h)

theorem readCodeword_write_ne (size : Nat) (m : Buffer) {i j : Nat} (v : Byte) (h : j ≠ i) :
    readCodeword (writeCodeword size m i v) j = readCodeword m j := by
  unfold writeCodeword
  split_ifs
  · exact Memory.read_write_ne m v h
  · rfl

/-- What a buffer reads as once a codeword is written. -/
theorem readCodeword_write {size : Nat} {m : Buffer} (i j : Nat) (v : Byte) (h : Memory.wf 0 m = true) :
    readCodeword (writeCodeword size m i v) j = if j = i ∧ i < size then v else readCodeword m j := by
  unfold writeCodeword
  by_cases hi : i < size
  · rw [if_pos hi]
    by_cases hj : j = i
    · rw [if_pos ⟨hj, hi⟩, hj]; exact Memory.read_write_same i v h
    · rw [if_neg (fun e => hj e.1)]; exact Memory.read_write_ne m v hj
  · rw [if_neg hi, if_neg (fun e => hi e.2)]

theorem readCodeword_write_same {size : Nat} {m : Buffer} {i : Nat} (v : Byte) (h : Memory.wf 0 m = true)
    (hi : i < size) : readCodeword (writeCodeword size m i v) i = v := by
  rw [readCodeword_write _ _ _ h, if_pos ⟨rfl, hi⟩]

theorem wf_writeCodeword {size : Nat} {m : Buffer} (i : Nat) (v : Byte) (h : Memory.wf 0 m = true) :
    Memory.wf 0 (writeCodeword size m i v) = true := by
  unfold writeCodeword
  split_ifs
  · exact Memory.wf_write i v h
  · exact h

theorem below_writeCodeword {size : Nat} {m : Buffer} (i : Nat) (v : Byte)
    (h : Memory.below size m = true) : Memory.below size (writeCodeword size m i v) = true := by
  unfold writeCodeword
  split_ifs with hi
  · exact Memory.below_write v h hi
  · exact h

theorem wf_writeCodewords {size : Nat} {m : Buffer} (i : Nat) (vs : List Byte)
    (h : Memory.wf 0 m = true) : Memory.wf 0 (writeCodewords size m i vs) = true := by
  induction vs generalizing m i with
  | nil => exact h
  | cons v rest ih => exact ih (i + 1) (wf_writeCodeword i v h)

theorem below_writeCodewords {size : Nat} {m : Buffer} (i : Nat) (vs : List Byte)
    (h : Memory.below size m = true) : Memory.below size (writeCodewords size m i vs) = true := by
  induction vs generalizing m i with
  | nil => exact h
  | cons v rest ih => exact ih (i + 1) (below_writeCodeword i v h)

/-- Codewords outside the written ones are kept. -/
theorem readCodeword_writeCodewords_outside (size : Nat) (m : Buffer) (i : Nat) (vs : List Byte) (j : Nat)
    (h : j < i ∨ i + vs.length ≤ j) :
    readCodeword (writeCodewords size m i vs) j = readCodeword m j := by
  induction vs generalizing m i with
  | nil => rfl
  | cons v rest ih =>
    simp only [List.length_cons] at h
    rw [writeCodewords, ih _ _ (by omega), readCodeword_write_ne _ _ _ (by omega)]

/-- The written codewords of the buffer read as written. -/
theorem readCodeword_writeCodewords_inside {size : Nat} {m : Buffer} (i : Nat) (vs : List Byte) (j : Nat)
    (hm : Memory.wf 0 m = true) (h : j < vs.length) (hs : i + j < size) :
    readCodeword (writeCodewords size m i vs) (i + j) = vs[j] := by
  induction vs generalizing m i j with
  | nil => simp at h
  | cons v rest ih =>
    rw [writeCodewords]
    cases j with
    | zero =>
      rw [readCodeword_writeCodewords_outside _ _ _ _ _ (by omega)]
      simpa using readCodeword_write_same v hm (by omega)
    | succ j =>
      have := ih (m := writeCodeword size m i v) (i + 1) j (wf_writeCodeword i v hm) (by simpa using h) (by omega)
      rw [show i + (j + 1) = i + 1 + j by omega, this]
      simp

/-! ### Modules -/

@[simp] theorem readModule_nil (r c : Nat) : readModule [] r c = Module.blank := rfl

/-- A module outside the matrix is not written (00_scope.md R9; log entry 7). -/
theorem writeModule_outside (m : Matrix) {r c : Nat} (v : Module)
    (h : ¬(r < Config.NMAX ∧ c < Config.NMAX)) : writeModule m r c v = m := if_neg h

theorem readModule_write_same {m : Matrix} {r c : Nat} (v : Module)
    (h : Memory.wf Module.blank m = true) (hr : r < Config.NMAX) (hc : c < Config.NMAX) :
    readModule (writeModule m r c v) r c = v := by
  rw [writeModule, if_pos ⟨hr, hc⟩]
  exact Memory.read_write_same _ v h

theorem readModule_write_ne (m : Matrix) {r c r' c' : Nat} (v : Module)
    (h : moduleAddress r' c' ≠ moduleAddress r c) :
    readModule (writeModule m r c v) r' c' = readModule m r' c' := by
  unfold writeModule
  split_ifs
  · exact Memory.read_write_ne m v h
  · rfl

theorem wf_writeModule {m : Matrix} (r c : Nat) (v : Module) (h : Memory.wf Module.blank m = true) :
    Memory.wf Module.blank (writeModule m r c v) = true := by
  unfold writeModule
  split_ifs
  · exact Memory.wf_write _ v h
  · exact h

theorem modulesInside_writeModule {m : Matrix} (r c : Nat) (v : Module) (h : modulesInside m = true) :
    modulesInside (writeModule m r c v) = true := by
  unfold writeModule
  split_ifs with hi
  · simp only [modulesInside, List.all_eq_true, Bool.and_eq_true, decide_eq_true_eq] at h ⊢
    intro e he
    rcases Memory.mem_write he with hm | ha
    · exact h e hm
    · simp only [ha, moduleAddress, Config.NMAX] at hi ⊢; omega
  · exact h

/-- Two modules of an 8-bit column have the same address only if they are the same module. -/
theorem moduleAddress_inj {r c r' c' : Nat} (hc : c < 2 ^ 8) (hc' : c' < 2 ^ 8) :
    moduleAddress r c = moduleAddress r' c' ↔ r = r' ∧ c = c' := by
  simp only [moduleAddress]; omega

/-! ### Bits of the stream -/

theorem getLsbD_setBit (b : Byte) {j i : Nat} (v : Bool) (hj : j < 8) (hi : i < 8) :
    (setBit b j v).getLsbD i = if i = j then v else b.getLsbD i := by
  unfold setBit
  cases v
  · by_cases h : i = j
    · subst h; simp [hi]
    · have : i < j ∨ i - j ≠ 0 := by omega
      rcases this with h' | h' <;> simp [hi, h, h']
  · by_cases h : i = j
    · subst h; simp [hi]
    · have : i < j ∨ i - j ≠ 0 := by omega
      rcases this with h' | h' <;> simp [hi, h, h']

theorem wf_writeStreamBit {m : Buffer} (p : Nat) (v : Bool) (h : Memory.wf 0 m = true) :
    Memory.wf 0 (writeStreamBit m p v) = true := wf_writeCodeword _ _ h

/-- What the stream reads as once a bit of `DBUF` is written. -/
theorem readStreamBit_write {m : Buffer} {p : Nat} (q : Nat) (v : Bool) (h : Memory.wf 0 m = true)
    (hp : p < 8 * Config.DMAX) :
    readStreamBit (writeStreamBit m p v) q = if q = p then v else readStreamBit m q := by
  unfold readStreamBit writeStreamBit
  by_cases hq : q / 8 = p / 8
  · rw [hq, readCodeword_write_same _ h (by omega), getLsbD_setBit _ _ (by omega) (by omega)]
    have : (7 - q % 8 = 7 - p % 8) ↔ q = p := by omega
    simp only [this]
  · rw [readCodeword_write_ne _ _ _ hq, if_neg (fun e => hq (by rw [e]))]

theorem wf_writeField {m : Buffer} (p v w : Nat) (h : Memory.wf 0 m = true) :
    Memory.wf 0 (writeField m p v w) = true := by
  induction w generalizing m p with
  | zero => exact h
  | succ w ih => exact ih (p + 1) (wf_writeStreamBit _ _ h)

theorem below_writeField {m : Buffer} (p v w : Nat) (h : Memory.below Config.DMAX m = true) :
    Memory.below Config.DMAX (writeField m p v w) = true := by
  induction w generalizing m p with
  | zero => exact h
  | succ w ih => exact ih (p + 1) (below_writeCodeword _ _ h)

/-- What the stream reads as once a field inside `DBUF` is written: its bits, most significant first, and
every other bit as before (spec 41_packer.md R120). -/
theorem readStreamBit_writeField {m : Buffer} {p w : Nat} (v q : Nat) (h : Memory.wf 0 m = true)
    (hp : p + w ≤ 8 * Config.DMAX) :
    readStreamBit (writeField m p v w) q =
      if p ≤ q ∧ q < p + w then v.testBit (w - 1 - (q - p)) else readStreamBit m q := by
  induction w generalizing m p with
  | zero => rw [writeField, if_neg (by omega)]
  | succ w ih =>
    rw [writeField, ih (wf_writeStreamBit _ _ h) (by omega), readStreamBit_write _ _ h (by omega)]
    by_cases hq : q = p
    · subst hq
      rw [if_neg (by omega), if_pos rfl, if_pos (by omega)]
      congr 1; omega
    · by_cases hr : p + 1 ≤ q ∧ q < p + 1 + w
      · rw [if_pos hr, if_pos (by omega)]
        congr 1; omega
      · rw [if_neg hr, if_neg hq, if_neg (by omega)]

/-- A codeword none of whose bits are in the field is kept. -/
theorem readCodeword_writeField_outside (m : Buffer) (p v w i : Nat)
    (h : i < p / 8 ∨ p + w ≤ 8 * i) : readCodeword (writeField m p v w) i = readCodeword m i := by
  induction w generalizing m p with
  | zero => rfl
  | succ w ih =>
    rw [writeField, ih _ _ (by omega)]
    exact readCodeword_write_ne _ _ _ (by omega)

end Sys2Proof.Machine
end

