-- ==== Sys2Proof/Laws/Coder.lean ====
section
/-! SUPPORT. The coder keeps the canonical form and the sizes of its buffers; the blocks follow one another. -/

namespace Sys2Proof.Machine

/-- What every write of one block's correction codewords keeps, the coder keeps. -/
theorem correctionBuffer_keeps (p : Params) (s : Block) (P : Buffer → Prop) (h : P s.ebuf)
    (hw : ∀ m i vs, P m → P (writeCodewords Config.EMAX m i vs)) : P (correctionBuffer p s) := by
  have key : ∀ (bs : List Nat) (m : Buffer), P m → P (bs.foldl (fun m b =>
      writeCodewords Config.EMAX m (b * s.k.toNat) (rsrem p (blockData s b) s.k.toNat)) m) := by
    intro bs
    induction bs with
    | nil => intro m hm; exact hm
    | cons b rest ih => intro m hm; exact ih _ (hw _ _ _ hm)
  exact key _ _ h

/-- Writing block after block keeps the canonical form. -/
theorem wf_correctionBuffer {p : Params} {s : Block} (h : Memory.wf 0 s.ebuf = true) :
    Memory.wf 0 (correctionBuffer p s) = true :=
  correctionBuffer_keeps p s (fun m => Memory.wf 0 m = true) h fun _ _ _ => wf_writeCodewords _ _

/-- Writing block after block stays within `EBUF`. -/
theorem below_correctionBuffer {p : Params} {s : Block} (h : Memory.below Config.EMAX s.ebuf = true) :
    Memory.below Config.EMAX (correctionBuffer p s) = true :=
  correctionBuffer_keeps p s (fun m => Memory.below Config.EMAX m = true) h
    fun _ _ _ => below_writeCodewords _ _

/-- A codeword of a block (spec 43_rs_coder.md R162). -/
theorem blockData_get (s : Block) (b : Nat) {i : Nat} (h : i < blockLength s b) :
    (blockData s b)[i]'(by simpa using h) = readCodeword s.dbuf (blockStart s b + i) := by
  simp [blockData]

/-- The blocks of one round are among the blocks (R169). -/
theorem dataRound_length_le (s : Block) (i : Nat) : (dataRound s i).length ≤ blockCount s := by
  simpa [dataRound] using List.length_filter_le (fun b => decide (i < blockLength s b))
    (List.range (blockCount s))

end Sys2Proof.Machine
end

