-- ==== Sys2Proof/Laws/Decode.lean ====
section
/-! SUPPORT. The number an encoded command is, and where its opcode and operands stand in it. -/

namespace Sys2Proof

/-- The operands of a well-formed command fit the 24 bits below the opcode (R82). -/
theorem Instr.operands_lt {i : Instr} (h : i.wf = true) : i.operands < 2 ^ 24 := by
  cases i <;> simp only [Instr.wf, Bool.and_eq_true, decide_eq_true_eq] at h <;>
    simp only [Instr.operands] <;> (try rename_i d; have := Bool.toNat_le d) <;> omega

/-- The opcodes fit 8 bits. -/
theorem Instr.opcode_lt (i : Instr) : i.opcode < 2 ^ 8 := by cases i <;> simp [Instr.opcode]

/-- The word of a well-formed command, as a number (R91). -/
theorem encode_toNat {i : Instr} (h : i.wf = true) :
    (encode i).toNat = i.opcode * 2 ^ 24 + i.operands := by
  have h1 := Instr.operands_lt h
  have h2 := Instr.opcode_lt i
  rw [encode, BitVec.toNat_ofNat, Nat.mod_eq_of_lt (by omega)]

/-- A field of a word given as a number. -/
theorem field_eq (cw : Word) (hi lo : Nat) : field cw hi lo = cw.toNat / 2 ^ lo % 2 ^ (hi + 1 - lo) := rfl

/-- A field is less than its range. -/
theorem field_lt (cw : Word) (hi lo : Nat) : field cw hi lo < 2 ^ (hi + 1 - lo) :=
  Nat.mod_lt _ (Nat.two_pow_pos _)

end Sys2Proof
end

