-- ==== Sys2Proof/Laws/State.lean ====
section
/-! SUPPORT. One lemma per field per update of the block and of the machine around it, so that no proof
unfolds a record update. -/

namespace Sys2Proof.Machine

/-! ### What a command comes to -/

@[simp] theorem respond_block (v : Word) (s : Block) : (respond v s).1 = s := rfl
@[simp] theorem respond_response (v : Word) (s : Block) : (respond v s).2 = ⟨true, v⟩ := rfl
@[simp] theorem refuse_block (s : Block) : (refuse s).1 = s := rfl
@[simp] theorem refuse_response (s : Block) : (refuse s).2 = ⟨false, 0⟩ := rfl
@[simp] theorem raiseFault_response (c : FaultCode) (cw : Word) (s : Block) :
    (raiseFault c cw s).2 = ⟨false, 0⟩ := rfl

/-! ### `raiseFault` -/

@[simp] theorem raiseFault_phase (c : FaultCode) (cw : Word) (s : Block) :
    (raiseFault c cw s).1.phase = .fault := rfl
@[simp] theorem raiseFault_err (c : FaultCode) (cw : Word) (s : Block) :
    (raiseFault c cw s).1.err = some c := rfl
@[simp] theorem raiseFault_finfo (c : FaultCode) (cw : Word) (s : Block) :
    (raiseFault c cw s).1.finfo = cw := rfl
@[simp] theorem raiseFault_ver (c : FaultCode) (cw : Word) (s : Block) :
    (raiseFault c cw s).1.ver = s.ver := rfl
@[simp] theorem raiseFault_ecl (c : FaultCode) (cw : Word) (s : Block) :
    (raiseFault c cw s).1.ecl = s.ecl := rfl
@[simp] theorem raiseFault_n (c : FaultCode) (cw : Word) (s : Block) : (raiseFault c cw s).1.n = s.n := rfl
@[simp] theorem raiseFault_tot (c : FaultCode) (cw : Word) (s : Block) :
    (raiseFault c cw s).1.tot = s.tot := rfl
@[simp] theorem raiseFault_dcap (c : FaultCode) (cw : Word) (s : Block) :
    (raiseFault c cw s).1.dcap = s.dcap := rfl
@[simp] theorem raiseFault_k (c : FaultCode) (cw : Word) (s : Block) : (raiseFault c cw s).1.k = s.k := rfl
@[simp] theorem raiseFault_nb1 (c : FaultCode) (cw : Word) (s : Block) :
    (raiseFault c cw s).1.nb1 = s.nb1 := rfl
@[simp] theorem raiseFault_dc1 (c : FaultCode) (cw : Word) (s : Block) :
    (raiseFault c cw s).1.dc1 = s.dc1 := rfl
@[simp] theorem raiseFault_nb2 (c : FaultCode) (cw : Word) (s : Block) :
    (raiseFault c cw s).1.nb2 = s.nb2 := rfl
@[simp] theorem raiseFault_dc2 (c : FaultCode) (cw : Word) (s : Block) :
    (raiseFault c cw s).1.dc2 = s.dc2 := rfl
@[simp] theorem raiseFault_bitlen (c : FaultCode) (cw : Word) (s : Block) :
    (raiseFault c cw s).1.bitlen = s.bitlen := rfl
@[simp] theorem raiseFault_dbuf (c : FaultCode) (cw : Word) (s : Block) :
    (raiseFault c cw s).1.dbuf = s.dbuf := rfl
@[simp] theorem raiseFault_ebuf (c : FaultCode) (cw : Word) (s : Block) :
    (raiseFault c cw s).1.ebuf = s.ebuf := rfl
@[simp] theorem raiseFault_obuf (c : FaultCode) (cw : Word) (s : Block) :
    (raiseFault c cw s).1.obuf = s.obuf := rfl
@[simp] theorem raiseFault_mod (c : FaultCode) (cw : Word) (s : Block) :
    (raiseFault c cw s).1.mod = s.mod := rfl
@[simp] theorem raiseFault_pen (c : FaultCode) (cw : Word) (s : Block) :
    (raiseFault c cw s).1.pen = s.pen := rfl
@[simp] theorem raiseFault_penr (c : FaultCode) (cw : Word) (s : Block) :
    (raiseFault c cw s).1.penr = s.penr := rfl
@[simp] theorem raiseFault_best (c : FaultCode) (cw : Word) (s : Block) :
    (raiseFault c cw s).1.best = s.best := rfl

/-! ### `configure` -/

@[simp] theorem configure_phase (p : Params) (ver ecl : Nat) (s : Block) :
    (configure p ver ecl s).phase = .packing := rfl
@[simp] theorem configure_err (p : Params) (ver ecl : Nat) (s : Block) :
    (configure p ver ecl s).err = s.err := rfl
@[simp] theorem configure_finfo (p : Params) (ver ecl : Nat) (s : Block) :
    (configure p ver ecl s).finfo = s.finfo := rfl
@[simp] theorem configure_ver (p : Params) (ver ecl : Nat) (s : Block) :
    (configure p ver ecl s).ver = BitVec.ofNat 6 ver := rfl
@[simp] theorem configure_ecl (p : Params) (ver ecl : Nat) (s : Block) :
    (configure p ver ecl s).ecl = BitVec.ofNat 2 ecl := rfl
@[simp] theorem configure_n (p : Params) (ver ecl : Nat) (s : Block) :
    (configure p ver ecl s).n = BitVec.ofNat 8 (sideLength ver) := rfl
@[simp] theorem configure_tot (p : Params) (ver ecl : Nat) (s : Block) :
    (configure p ver ecl s).tot = BitVec.ofNat 12 (blockEntry p ver ecl).tot := rfl
@[simp] theorem configure_dcap (p : Params) (ver ecl : Nat) (s : Block) :
    (configure p ver ecl s).dcap = BitVec.ofNat 12 (blockEntry p ver ecl).dcap := rfl
@[simp] theorem configure_k (p : Params) (ver ecl : Nat) (s : Block) :
    (configure p ver ecl s).k = BitVec.ofNat 5 (blockEntry p ver ecl).k := rfl
@[simp] theorem configure_nb1 (p : Params) (ver ecl : Nat) (s : Block) :
    (configure p ver ecl s).nb1 = BitVec.ofNat 7 (blockEntry p ver ecl).nb1 := rfl
@[simp] theorem configure_dc1 (p : Params) (ver ecl : Nat) (s : Block) :
    (configure p ver ecl s).dc1 = BitVec.ofNat 8 (blockEntry p ver ecl).dc1 := rfl
@[simp] theorem configure_nb2 (p : Params) (ver ecl : Nat) (s : Block) :
    (configure p ver ecl s).nb2 = BitVec.ofNat 7 (blockEntry p ver ecl).nb2 := rfl
@[simp] theorem configure_dc2 (p : Params) (ver ecl : Nat) (s : Block) :
    (configure p ver ecl s).dc2 = BitVec.ofNat 8 (blockEntry p ver ecl).dc2 := rfl
@[simp] theorem configure_bitlen (p : Params) (ver ecl : Nat) (s : Block) :
    (configure p ver ecl s).bitlen = 0 := rfl
@[simp] theorem configure_dbuf (p : Params) (ver ecl : Nat) (s : Block) :
    (configure p ver ecl s).dbuf = s.dbuf := rfl
@[simp] theorem configure_ebuf (p : Params) (ver ecl : Nat) (s : Block) :
    (configure p ver ecl s).ebuf = s.ebuf := rfl
@[simp] theorem configure_obuf (p : Params) (ver ecl : Nat) (s : Block) :
    (configure p ver ecl s).obuf = s.obuf := rfl
@[simp] theorem configure_mod (p : Params) (ver ecl : Nat) (s : Block) :
    (configure p ver ecl s).mod = s.mod := rfl
@[simp] theorem configure_pen (p : Params) (ver ecl : Nat) (s : Block) :
    (configure p ver ecl s).pen = s.pen := rfl
@[simp] theorem configure_penr (p : Params) (ver ecl : Nat) (s : Block) :
    (configure p ver ecl s).penr = s.penr := rfl
@[simp] theorem configure_best (p : Params) (ver ecl : Nat) (s : Block) :
    (configure p ver ecl s).best = s.best := rfl

/-! ### `appendField` -/

@[simp] theorem appendField_phase (v w : Nat) (s : Block) : (appendField v w s).phase = s.phase := rfl
@[simp] theorem appendField_err (v w : Nat) (s : Block) : (appendField v w s).err = s.err := rfl
@[simp] theorem appendField_finfo (v w : Nat) (s : Block) : (appendField v w s).finfo = s.finfo := rfl
@[simp] theorem appendField_ver (v w : Nat) (s : Block) : (appendField v w s).ver = s.ver := rfl
@[simp] theorem appendField_ecl (v w : Nat) (s : Block) : (appendField v w s).ecl = s.ecl := rfl
@[simp] theorem appendField_n (v w : Nat) (s : Block) : (appendField v w s).n = s.n := rfl
@[simp] theorem appendField_tot (v w : Nat) (s : Block) : (appendField v w s).tot = s.tot := rfl
@[simp] theorem appendField_dcap (v w : Nat) (s : Block) : (appendField v w s).dcap = s.dcap := rfl
@[simp] theorem appendField_k (v w : Nat) (s : Block) : (appendField v w s).k = s.k := rfl
@[simp] theorem appendField_nb1 (v w : Nat) (s : Block) : (appendField v w s).nb1 = s.nb1 := rfl
@[simp] theorem appendField_dc1 (v w : Nat) (s : Block) : (appendField v w s).dc1 = s.dc1 := rfl
@[simp] theorem appendField_nb2 (v w : Nat) (s : Block) : (appendField v w s).nb2 = s.nb2 := rfl
@[simp] theorem appendField_dc2 (v w : Nat) (s : Block) : (appendField v w s).dc2 = s.dc2 := rfl
@[simp] theorem appendField_bitlen (v w : Nat) (s : Block) :
    (appendField v w s).bitlen = BitVec.ofNat 15 (s.bitlen.toNat + w) := rfl
@[simp] theorem appendField_dbuf (v w : Nat) (s : Block) :
    (appendField v w s).dbuf = writeField s.dbuf s.bitlen.toNat v w := rfl
@[simp] theorem appendField_ebuf (v w : Nat) (s : Block) : (appendField v w s).ebuf = s.ebuf := rfl
@[simp] theorem appendField_obuf (v w : Nat) (s : Block) : (appendField v w s).obuf = s.obuf := rfl
@[simp] theorem appendField_mod (v w : Nat) (s : Block) : (appendField v w s).mod = s.mod := rfl
@[simp] theorem appendField_pen (v w : Nat) (s : Block) : (appendField v w s).pen = s.pen := rfl
@[simp] theorem appendField_penr (v w : Nat) (s : Block) : (appendField v w s).penr = s.penr := rfl
@[simp] theorem appendField_best (v w : Nat) (s : Block) : (appendField v w s).best = s.best := rfl

/-! ### `fillStream` -/

@[simp] theorem fillStream_phase (s : Block) : (fillStream s).phase = .filled := rfl
@[simp] theorem fillStream_err (s : Block) : (fillStream s).err = s.err := rfl
@[simp] theorem fillStream_finfo (s : Block) : (fillStream s).finfo = s.finfo := rfl
@[simp] theorem fillStream_ver (s : Block) : (fillStream s).ver = s.ver := rfl
@[simp] theorem fillStream_ecl (s : Block) : (fillStream s).ecl = s.ecl := rfl
@[simp] theorem fillStream_n (s : Block) : (fillStream s).n = s.n := rfl
@[simp] theorem fillStream_tot (s : Block) : (fillStream s).tot = s.tot := rfl
@[simp] theorem fillStream_dcap (s : Block) : (fillStream s).dcap = s.dcap := rfl
@[simp] theorem fillStream_k (s : Block) : (fillStream s).k = s.k := rfl
@[simp] theorem fillStream_nb1 (s : Block) : (fillStream s).nb1 = s.nb1 := rfl
@[simp] theorem fillStream_dc1 (s : Block) : (fillStream s).dc1 = s.dc1 := rfl
@[simp] theorem fillStream_nb2 (s : Block) : (fillStream s).nb2 = s.nb2 := rfl
@[simp] theorem fillStream_dc2 (s : Block) : (fillStream s).dc2 = s.dc2 := rfl
@[simp] theorem fillStream_bitlen (s : Block) :
    (fillStream s).bitlen = BitVec.ofNat 15 (paddedLength s + 8 * (padCodewords s).length) := rfl
@[simp] theorem fillStream_dbuf (s : Block) :
    (fillStream s).dbuf = writeCodewords Config.DMAX s.dbuf (paddedLength s / 8) (padCodewords s) := rfl
@[simp] theorem fillStream_ebuf (s : Block) : (fillStream s).ebuf = s.ebuf := rfl
@[simp] theorem fillStream_obuf (s : Block) : (fillStream s).obuf = s.obuf := rfl
@[simp] theorem fillStream_mod (s : Block) : (fillStream s).mod = s.mod := rfl
@[simp] theorem fillStream_pen (s : Block) : (fillStream s).pen = s.pen := rfl
@[simp] theorem fillStream_penr (s : Block) : (fillStream s).penr = s.penr := rfl
@[simp] theorem fillStream_best (s : Block) : (fillStream s).best = s.best := rfl

/-! ### `codeBlocks` -/

@[simp] theorem codeBlocks_phase (p : Params) (s : Block) : (codeBlocks p s).phase = .coded := rfl
@[simp] theorem codeBlocks_err (p : Params) (s : Block) : (codeBlocks p s).err = s.err := rfl
@[simp] theorem codeBlocks_finfo (p : Params) (s : Block) : (codeBlocks p s).finfo = s.finfo := rfl
@[simp] theorem codeBlocks_ver (p : Params) (s : Block) : (codeBlocks p s).ver = s.ver := rfl
@[simp] theorem codeBlocks_ecl (p : Params) (s : Block) : (codeBlocks p s).ecl = s.ecl := rfl
@[simp] theorem codeBlocks_n (p : Params) (s : Block) : (codeBlocks p s).n = s.n := rfl
@[simp] theorem codeBlocks_tot (p : Params) (s : Block) : (codeBlocks p s).tot = s.tot := rfl
@[simp] theorem codeBlocks_dcap (p : Params) (s : Block) : (codeBlocks p s).dcap = s.dcap := rfl
@[simp] theorem codeBlocks_k (p : Params) (s : Block) : (codeBlocks p s).k = s.k := rfl
@[simp] theorem codeBlocks_nb1 (p : Params) (s : Block) : (codeBlocks p s).nb1 = s.nb1 := rfl
@[simp] theorem codeBlocks_dc1 (p : Params) (s : Block) : (codeBlocks p s).dc1 = s.dc1 := rfl
@[simp] theorem codeBlocks_nb2 (p : Params) (s : Block) : (codeBlocks p s).nb2 = s.nb2 := rfl
@[simp] theorem codeBlocks_dc2 (p : Params) (s : Block) : (codeBlocks p s).dc2 = s.dc2 := rfl
@[simp] theorem codeBlocks_bitlen (p : Params) (s : Block) : (codeBlocks p s).bitlen = s.bitlen := rfl
@[simp] theorem codeBlocks_dbuf (p : Params) (s : Block) : (codeBlocks p s).dbuf = s.dbuf := rfl
@[simp] theorem codeBlocks_ebuf (p : Params) (s : Block) : (codeBlocks p s).ebuf = correctionBuffer p s := rfl
@[simp] theorem codeBlocks_obuf (p : Params) (s : Block) : (codeBlocks p s).obuf = s.obuf := rfl
@[simp] theorem codeBlocks_mod (p : Params) (s : Block) : (codeBlocks p s).mod = s.mod := rfl
@[simp] theorem codeBlocks_pen (p : Params) (s : Block) : (codeBlocks p s).pen = s.pen := rfl
@[simp] theorem codeBlocks_penr (p : Params) (s : Block) : (codeBlocks p s).penr = s.penr := rfl
@[simp] theorem codeBlocks_best (p : Params) (s : Block) : (codeBlocks p s).best = s.best := rfl

/-! ### `interleaveStream` -/

@[simp] theorem interleaveStream_phase (s : Block) : (interleaveStream s).phase = .streamed := rfl
@[simp] theorem interleaveStream_err (s : Block) : (interleaveStream s).err = s.err := rfl
@[simp] theorem interleaveStream_finfo (s : Block) : (interleaveStream s).finfo = s.finfo := rfl
@[simp] theorem interleaveStream_ver (s : Block) : (interleaveStream s).ver = s.ver := rfl
@[simp] theorem interleaveStream_ecl (s : Block) : (interleaveStream s).ecl = s.ecl := rfl
@[simp] theorem interleaveStream_n (s : Block) : (interleaveStream s).n = s.n := rfl
@[simp] theorem interleaveStream_tot (s : Block) : (interleaveStream s).tot = s.tot := rfl
@[simp] theorem interleaveStream_dcap (s : Block) : (interleaveStream s).dcap = s.dcap := rfl
@[simp] theorem interleaveStream_k (s : Block) : (interleaveStream s).k = s.k := rfl
@[simp] theorem interleaveStream_nb1 (s : Block) : (interleaveStream s).nb1 = s.nb1 := rfl
@[simp] theorem interleaveStream_dc1 (s : Block) : (interleaveStream s).dc1 = s.dc1 := rfl
@[simp] theorem interleaveStream_nb2 (s : Block) : (interleaveStream s).nb2 = s.nb2 := rfl
@[simp] theorem interleaveStream_dc2 (s : Block) : (interleaveStream s).dc2 = s.dc2 := rfl
@[simp] theorem interleaveStream_bitlen (s : Block) : (interleaveStream s).bitlen = s.bitlen := rfl
@[simp] theorem interleaveStream_dbuf (s : Block) : (interleaveStream s).dbuf = s.dbuf := rfl
@[simp] theorem interleaveStream_ebuf (s : Block) : (interleaveStream s).ebuf = s.ebuf := rfl
@[simp] theorem interleaveStream_obuf (s : Block) :
    (interleaveStream s).obuf = writeCodewords Config.TMAX s.obuf 0 (interleaved s) := rfl
@[simp] theorem interleaveStream_mod (s : Block) : (interleaveStream s).mod = s.mod := rfl
@[simp] theorem interleaveStream_pen (s : Block) : (interleaveStream s).pen = s.pen := rfl
@[simp] theorem interleaveStream_penr (s : Block) : (interleaveStream s).penr = s.penr := rfl
@[simp] theorem interleaveStream_best (s : Block) : (interleaveStream s).best = s.best := rfl

/-! ### `loadModule` -/

@[simp] theorem loadModule_phase (row col : Nat) (v : Module) (s : Block) :
    (loadModule row col v s).phase = s.phase := rfl
@[simp] theorem loadModule_err (row col : Nat) (v : Module) (s : Block) :
    (loadModule row col v s).err = s.err := rfl
@[simp] theorem loadModule_finfo (row col : Nat) (v : Module) (s : Block) :
    (loadModule row col v s).finfo = s.finfo := rfl
@[simp] theorem loadModule_ver (row col : Nat) (v : Module) (s : Block) :
    (loadModule row col v s).ver = s.ver := rfl
@[simp] theorem loadModule_ecl (row col : Nat) (v : Module) (s : Block) :
    (loadModule row col v s).ecl = s.ecl := rfl
@[simp] theorem loadModule_n (row col : Nat) (v : Module) (s : Block) :
    (loadModule row col v s).n = s.n := rfl
@[simp] theorem loadModule_tot (row col : Nat) (v : Module) (s : Block) :
    (loadModule row col v s).tot = s.tot := rfl
@[simp] theorem loadModule_dcap (row col : Nat) (v : Module) (s : Block) :
    (loadModule row col v s).dcap = s.dcap := rfl
@[simp] theorem loadModule_k (row col : Nat) (v : Module) (s : Block) :
    (loadModule row col v s).k = s.k := rfl
@[simp] theorem loadModule_nb1 (row col : Nat) (v : Module) (s : Block) :
    (loadModule row col v s).nb1 = s.nb1 := rfl
@[simp] theorem loadModule_dc1 (row col : Nat) (v : Module) (s : Block) :
    (loadModule row col v s).dc1 = s.dc1 := rfl
@[simp] theorem loadModule_nb2 (row col : Nat) (v : Module) (s : Block) :
    (loadModule row col v s).nb2 = s.nb2 := rfl
@[simp] theorem loadModule_dc2 (row col : Nat) (v : Module) (s : Block) :
    (loadModule row col v s).dc2 = s.dc2 := rfl
@[simp] theorem loadModule_bitlen (row col : Nat) (v : Module) (s : Block) :
    (loadModule row col v s).bitlen = s.bitlen := rfl
@[simp] theorem loadModule_dbuf (row col : Nat) (v : Module) (s : Block) :
    (loadModule row col v s).dbuf = s.dbuf := rfl
@[simp] theorem loadModule_ebuf (row col : Nat) (v : Module) (s : Block) :
    (loadModule row col v s).ebuf = s.ebuf := rfl
@[simp] theorem loadModule_obuf (row col : Nat) (v : Module) (s : Block) :
    (loadModule row col v s).obuf = s.obuf := rfl
@[simp] theorem loadModule_mod (row col : Nat) (v : Module) (s : Block) :
    (loadModule row col v s).mod = writeModule s.mod row col v := rfl
@[simp] theorem loadModule_pen (row col : Nat) (v : Module) (s : Block) :
    (loadModule row col v s).pen = s.pen := rfl
@[simp] theorem loadModule_penr (row col : Nat) (v : Module) (s : Block) :
    (loadModule row col v s).penr = s.penr := rfl
@[simp] theorem loadModule_best (row col : Nat) (v : Module) (s : Block) :
    (loadModule row col v s).best = s.best := rfl

/-! ### `scoreMatrix` -/

@[simp] theorem scoreMatrix_phase (p : Params) (s : Block) : (scoreMatrix p s).phase = .masked := rfl
@[simp] theorem scoreMatrix_err (p : Params) (s : Block) : (scoreMatrix p s).err = s.err := rfl
@[simp] theorem scoreMatrix_finfo (p : Params) (s : Block) : (scoreMatrix p s).finfo = s.finfo := rfl
@[simp] theorem scoreMatrix_ver (p : Params) (s : Block) : (scoreMatrix p s).ver = s.ver := rfl
@[simp] theorem scoreMatrix_ecl (p : Params) (s : Block) : (scoreMatrix p s).ecl = s.ecl := rfl
@[simp] theorem scoreMatrix_n (p : Params) (s : Block) : (scoreMatrix p s).n = s.n := rfl
@[simp] theorem scoreMatrix_tot (p : Params) (s : Block) : (scoreMatrix p s).tot = s.tot := rfl
@[simp] theorem scoreMatrix_dcap (p : Params) (s : Block) : (scoreMatrix p s).dcap = s.dcap := rfl
@[simp] theorem scoreMatrix_k (p : Params) (s : Block) : (scoreMatrix p s).k = s.k := rfl
@[simp] theorem scoreMatrix_nb1 (p : Params) (s : Block) : (scoreMatrix p s).nb1 = s.nb1 := rfl
@[simp] theorem scoreMatrix_dc1 (p : Params) (s : Block) : (scoreMatrix p s).dc1 = s.dc1 := rfl
@[simp] theorem scoreMatrix_nb2 (p : Params) (s : Block) : (scoreMatrix p s).nb2 = s.nb2 := rfl
@[simp] theorem scoreMatrix_dc2 (p : Params) (s : Block) : (scoreMatrix p s).dc2 = s.dc2 := rfl
@[simp] theorem scoreMatrix_bitlen (p : Params) (s : Block) : (scoreMatrix p s).bitlen = s.bitlen := rfl
@[simp] theorem scoreMatrix_dbuf (p : Params) (s : Block) : (scoreMatrix p s).dbuf = s.dbuf := rfl
@[simp] theorem scoreMatrix_ebuf (p : Params) (s : Block) : (scoreMatrix p s).ebuf = s.ebuf := rfl
@[simp] theorem scoreMatrix_obuf (p : Params) (s : Block) : (scoreMatrix p s).obuf = s.obuf := rfl
@[simp] theorem scoreMatrix_mod (p : Params) (s : Block) : (scoreMatrix p s).mod = s.mod := rfl
@[simp] theorem scoreMatrix_pen (p : Params) (s : Block) :
    (scoreMatrix p s).pen = perMask fun j => totalPenalty ((scoreMatrix p s).penr.get j) := rfl
@[simp] theorem scoreMatrix_penr (p : Params) (s : Block) :
    (scoreMatrix p s).penr =
      perMask fun j => rulePenalties p s.n.toNat (candidate p j.val s.n.toNat s.mod) := rfl
@[simp] theorem scoreMatrix_best (p : Params) (s : Block) :
    (scoreMatrix p s).best = BitVec.ofNat 3 (bestMask (scoreMatrix p s).pen).val := rfl

/-! ### The machine around the block -/

@[simp] theorem give_toBlock (s : State) (r : Block × Response) : (s.give r).toBlock = r.1 := rfl
@[simp] theorem give_inputs (s : State) (r : Block × Response) : (s.give r).inputs = s.inputs := rfl
@[simp] theorem give_response (s : State) (r : Block × Response) : (s.give r).response = some r.2 := rfl

@[simp] theorem resetInput_toBlock (s : State) : (resetInput s).toBlock = Block.reset := rfl
@[simp] theorem resetInput_inputs (s : State) : (resetInput s).inputs = s.inputs := rfl
@[simp] theorem resetInput_response (s : State) : (resetInput s).response = none := rfl

@[simp] theorem withFetchWord_toBlock (s : State) (nbits w : Nat) :
    (s.withFetchWord nbits w).toBlock = s.toBlock := rfl
/-- The word presented is the next input. -/
@[simp] theorem withFetchWord_inputs (s : State) (nbits w : Nat) :
    (s.withFetchWord nbits w).inputs = .command (BitVec.ofNat 32 (w % 2 ^ nbits)) :: s.inputs := rfl
@[simp] theorem withFetchWord_response (s : State) (nbits w : Nat) :
    (s.withFetchWord nbits w).response = s.response := rfl

@[simp] theorem afterFault_toBlock (c : FaultCode) (cw : Word) (s : State) :
    (afterFault c cw s).toBlock = (raiseFault c cw s.toBlock).1 := rfl
@[simp] theorem afterFault_inputs (c : FaultCode) (cw : Word) (s : State) :
    (afterFault c cw s).inputs = s.inputs := rfl
@[simp] theorem afterFault_response (c : FaultCode) (cw : Word) (s : State) :
    (afterFault c cw s).response = some ⟨false, 0⟩ := rfl

@[simp] theorem afterResponse_toBlock (v : Word) (s : State) : (afterResponse v s).toBlock = s.toBlock := rfl
@[simp] theorem afterResponse_inputs (v : Word) (s : State) : (afterResponse v s).inputs = s.inputs := rfl
@[simp] theorem afterResponse_response (v : Word) (s : State) :
    (afterResponse v s).response = some ⟨true, v⟩ := rfl

/-- A fault of the block, given to the machine. -/
@[simp] theorem give_raiseFault (c : FaultCode) (cw : Word) (s : State) :
    s.give (raiseFault c cw s.toBlock) = afterFault c cw s := rfl

/-- A response of the block that writes nothing, given to the machine. -/
@[simp] theorem give_respond (v : Word) (s : State) :
    s.give (respond v s.toBlock) = afterResponse v s := rfl

/-- A refusal of the block, given to the machine. -/
theorem give_refuse (s : State) : s.give (refuse s.toBlock) = { s with response := some ⟨false, 0⟩ } := rfl

end Sys2Proof.Machine
end

