-- ==== Sys2Proof/Laws/Ops.lean ====
section
/-! SUPPORT. What the shared operations can do, said once: a command completes, faults or is refused, and
answers a next state in every case; the command each arm of `exec` runs; a step and a run, input by input. -/

namespace Sys2Proof.Machine

/-- In `FAULT` a fault condition is a refusal. -/
theorem fail_of_fault {c : FaultCode} {cw : Word} {s : Block} (h : s.phase = .fault) :
    fail c cw s = refuse s := if_pos h

/-- Outside `FAULT` a fault condition is a fault. -/
theorem fail_of_ne_fault {c : FaultCode} {cw : Word} {s : Block} (h : s.phase ≠ .fault) :
    fail c cw s = raiseFault c cw s := if_neg h

/-! ### One command of the block -/

/-- A command whose checks all pass completes. -/
theorem perform_completes {i : Instr} {body : Body} {s t : Block} {v : Word}
    (hp : legalIn i s.phase = true) (hb : body s = .ok (t, v)) : perform i body s = respond v t := by
  simp [perform, hp, hb]

/-- A command that meets a fault condition of its own. -/
theorem perform_meets_fault {i : Instr} {body : Body} {s : Block} {c : FaultCode}
    (hp : legalIn i s.phase = true) (hb : body s = .error c) :
    perform i body s = fail c (encode i) s := by
  simp [perform, hp, hb]

/-- A command in a phase where it is not legal. -/
theorem perform_wrong_phase {i : Instr} {body : Body} {s : Block} (hp : legalIn i s.phase = false) :
    perform i body s = fail .badPhase (encode i) s := by
  simp [perform, hp]

/-- Everything a command can do (spec 30_encoding.md R90). -/
theorem perform_cases (i : Instr) (body : Body) (s : Block) :
    (∃ t v, legalIn i s.phase = true ∧ body s = .ok (t, v) ∧ perform i body s = respond v t) ∨
    (∃ c, legalIn i s.phase = true ∧ body s = .error c ∧ perform i body s = fail c (encode i) s) ∨
    (legalIn i s.phase = false ∧ perform i body s = fail .badPhase (encode i) s) := by
  cases hp : legalIn i s.phase with
  | false => exact .inr (.inr ⟨rfl, perform_wrong_phase hp⟩)
  | true =>
    cases hb : body s with
    | error c => exact .inr (.inl ⟨c, rfl, rfl, perform_meets_fault hp hb⟩)
    | ok r => exact .inl ⟨r.1, r.2, rfl, rfl, perform_completes hp hb⟩

/-! ### The machine -/

/-- Every arm of `exec` performs its own command, with the tables the spec prints, and gives its response. -/
theorem exec_eq (i : Instr) (s : State) :
    exec i s = .next (s.give (perform i (bodyOf standard i) s.toBlock)) := by
  cases i <;> rfl

/-- Everything `exec` can do: the command's checks all pass, or it meets a fault condition of its own, or it
is not legal in the phase. -/
theorem exec_cases {i : Instr} {s t : State} (h : exec i s = .next t) :
    (∃ u v, legalIn i s.phase = true ∧ bodyOf standard i s.toBlock = .ok (u, v) ∧
      t = s.give (respond v u)) ∨
    (∃ c, legalIn i s.phase = true ∧ bodyOf standard i s.toBlock = .error c ∧
      t = s.give (fail c (encode i) s.toBlock)) ∨
    (legalIn i s.phase = false ∧ t = s.give (fail .badPhase (encode i) s.toBlock)) := by
  rw [exec_eq] at h
  have ht := Host.Outcome.next.inj h
  rcases perform_cases i (bodyOf standard i) s.toBlock with ⟨u, v, hp, hb, e⟩ | ⟨c, hp, hb, e⟩ | ⟨hp, e⟩
  · exact .inl ⟨u, v, hp, hb, by rw [← ht, e]⟩
  · exact .inr (.inl ⟨c, hp, hb, by rw [← ht, e]⟩)
  · exact .inr (.inr ⟨hp, by rw [← ht, e]⟩)

/-- The commands legal in `FAULT` (60_exceptions.md R227). -/
theorem legalIn_fault {i : Instr} (h : legalIn i .fault = true) :
    i = .nop ∨ i = .rst ∨ ∃ addr, i = .rdr addr := by
  cases i <;> simp_all [legalIn]

/-! ### A step -/

/-- What a step does with the command word at its input. -/
theorem step_command {s : State} {cw : Word} {rest : List HostInput}
    (h : s.inputs = .command cw :: rest) :
    step s = match decode cw with
      | .ok i => exec i { s with inputs := rest }
      | .error _ => .next (State.give { s with inputs := rest } (illegalWord cw s.toBlock)) := by
  cases hd : decode cw <;> simp only [step, takeInput, h, hd]

/-- What a step does with a pulse of the reset input. -/
theorem step_resetPulse {s : State} {rest : List HostInput} (h : s.inputs = .resetPulse :: rest) :
    step s = .next (resetInput { s with inputs := rest }) := by
  simp only [step, takeInput, h]

/-- What a step does with nothing at its inputs. -/
theorem step_idle {s : State} (h : s.inputs = []) : step s = .next s := by
  simp only [step, takeInput, h]

/-- Everything a step can do. -/
theorem step_cases {s t : State} (h : step s = .next t) :
    (s.inputs = [] ∧ t = s) ∨
    (∃ rest, s.inputs = .resetPulse :: rest ∧ t = resetInput { s with inputs := rest }) ∨
    (∃ cw rest i, s.inputs = .command cw :: rest ∧ decode cw = .ok i ∧
      exec i { s with inputs := rest } = .next t) ∨
    (∃ cw rest e, s.inputs = .command cw :: rest ∧ decode cw = .error e ∧
      t = State.give { s with inputs := rest } (illegalWord cw s.toBlock)) := by
  rcases hi : s.inputs with _ | ⟨_ | _, rest⟩
  · rw [step_idle hi] at h
    exact .inl ⟨rfl, (Host.Outcome.next.inj h).symm⟩
  · rename_i cw
    rw [step_command hi] at h
    cases hd : decode cw with
    | ok i => rw [hd] at h; exact .inr (.inr (.inl ⟨cw, rest, i, rfl, hd, h⟩))
    | error e =>
      rw [hd] at h
      exact .inr (.inr (.inr ⟨cw, rest, e, rfl, hd, (Host.Outcome.next.inj h).symm⟩))
  · rw [step_resetPulse hi] at h
    exact .inr (.inl ⟨rest, rfl, (Host.Outcome.next.inj h).symm⟩)

/-! ### The block's own step and its runs -/

/-- What the block does with a word that is a command. -/
theorem blockStep_command {p : Params} {s : Block} {cw : Word} {i : Instr} (h : decode cw = .ok i) :
    blockStep p s cw = perform i (bodyOf p i) s := by simp only [blockStep, h]

/-- What the block does with a word that is no command. -/
theorem blockStep_illegal {p : Params} {s : Block} {cw : Word} {e : DecodeError} (h : decode cw = .error e) :
    blockStep p s cw = illegalWord cw s := by simp only [blockStep, h]

@[simp] theorem run_nil (p : Params) (s : Block) : run p s [] = ([], s) := rfl

@[simp] theorem run_command (p : Params) (s : Block) (cw : Word) (rest : List HostInput) :
    run p s (.command cw :: rest) =
      ((blockStep p s cw).2 :: (run p (blockStep p s cw).1 rest).1,
        (run p (blockStep p s cw).1 rest).2) := rfl

@[simp] theorem run_resetPulse (p : Params) (s : Block) (rest : List HostInput) :
    run p s (.resetPulse :: rest) = run p Block.reset rest := rfl

end Sys2Proof.Machine
end

