-- ==== Sys2Proof/Laws/Packer.lean ====
section
/-! SUPPORT. What packing can do: `appendBits` refuses a field that does not fit and else appends it, and a
field that fits never wraps `BITLEN`. -/

namespace Sys2Proof.Machine

theorem fits_iff {s : Block} {w : Nat} : fits s w = true ↔ s.bitlen.toNat + w ≤ 8 * s.dcap.toNat :=
  decide_eq_true_iff

/-- A field that fits keeps `BITLEN` in its 15 bits: `DCAP` has 12. -/
theorem appendField_bitlen_toNat {s : Block} {v w : Nat} (h : fits s w = true) :
    (appendField v w s).bitlen.toNat = s.bitlen.toNat + w := by
  have h1 := fits_iff.mp h
  have h2 := s.dcap.isLt
  rw [appendField_bitlen, BitVec.toNat_ofNat, Nat.mod_eq_of_lt (by omega)]

/-- Everything `appendBits` can do (spec 41_packer.md R120, R121). -/
theorem appendBits_cases (v w : Nat) (s : Block) :
    (fits s w = true ∧ appendBits v w s = .ok (appendField v w s, 0)) ∨
    (fits s w = false ∧ appendBits v w s = .error .dataTooLong) := by
  cases h : fits s w
  · exact .inr ⟨rfl, by simp [appendBits, h]⟩
  · exact .inl ⟨rfl, by simp [appendBits, h]⟩

/-- The stream after a field that fits is appended (R120). -/
theorem appendField_streamBit {s : Block} {w : Nat} (v q : Nat) (h : Memory.wf 0 s.dbuf = true)
    (hf : fits s w = true) (hs : s.dcap.toNat ≤ Config.DMAX) :
    readStreamBit (appendField v w s).dbuf q =
      if s.bitlen.toNat ≤ q ∧ q < s.bitlen.toNat + w then v.testBit (w - 1 - (q - s.bitlen.toNat))
      else readStreamBit s.dbuf q :=
  readStreamBit_writeField v q h (by have := fits_iff.mp hf; omega)

theorem appendField_wf {s : Block} (v w : Nat) (h : Memory.wf 0 s.dbuf = true) :
    Memory.wf 0 (appendField v w s).dbuf = true := wf_writeField _ _ _ h

theorem appendField_below {s : Block} (v w : Nat) (h : Memory.below Config.DMAX s.dbuf = true) :
    Memory.below Config.DMAX (appendField v w s).dbuf = true := below_writeField _ _ _ h

/-- A field that fits is appended and nothing else changes (R120). -/
theorem appended_appendField {s : Block} {w : Nat} (v : Nat) (h : Memory.wf 0 s.dbuf = true)
    (hf : fits s w = true) (hs : s.dcap.toNat ≤ Config.DMAX) : Appended s (appendField v w s) v w := by
  refine ⟨appendField_bitlen_toNat hf, fun j hj => ?_, fun p hp => ?_, fun i hi => ?_, rfl⟩
  · rw [appendField_streamBit v _ h hf hs, if_pos (by omega)]
    congr 1; omega
  · rw [appendField_streamBit v _ h hf hs, if_neg (by omega)]
  · exact readCodeword_writeField_outside _ _ _ _ _ hi

/-! ### Finishing -/

@[simp] theorem padCodewords_length (s : Block) :
    (padCodewords s).length = s.dcap.toNat - paddedLength s / 8 := by simp [padCodewords]

/-- The padded length ends on a codeword boundary (R134). -/
theorem paddedLength_mod (s : Block) : paddedLength s % 8 = 0 := by
  simp only [paddedLength]; omega

/-- The padded length stays within the capacity (R134). -/
theorem paddedLength_le {s : Block} (h : s.bitlen.toNat ≤ capacityBits s) :
    paddedLength s ≤ capacityBits s := by
  simp only [paddedLength, terminatorBits, capacityBits] at *; omega

/-- The stream is exactly full after `PFIN` (R134). -/
theorem fillStream_bitlen_toNat {s : Block} (h : s.bitlen.toNat ≤ capacityBits s) :
    (fillStream s).bitlen.toNat = capacityBits s := by
  have h1 := paddedLength_le h
  have h2 := paddedLength_mod s
  have h3 := s.dcap.isLt
  rw [fillStream_bitlen, padCodewords_length, BitVec.toNat_ofNat]
  simp only [capacityBits] at *
  rw [Nat.mod_eq_of_lt (by omega)]
  omega

end Sys2Proof.Machine
end

