-- ==== Sys2Proof/Laws/PerInstr.lean ====
section
/-! SUPPORT. Per-instruction families. `OpcodeField`: the word of a well-formed command holds its opcode in
bits 31:24 and its operands below (spec 30_encoding.md R82). -/

namespace Sys2Proof.Laws

/-- The opcode and the operands stand where R82 puts them. -/
def OpcodeField.Statement (i : Instr) : Prop :=
  i.wf = true → field (encode i) 31 24 = i.opcode ∧ (encode i).toNat % 2 ^ 24 = i.operands

/-- The family's common argument. -/
theorem OpcodeField.of_wf (i : Instr) : OpcodeField.Statement i := by
  intro h
  have h1 := Instr.operands_lt h
  have h2 := Instr.opcode_lt i
  rw [field_eq, encode_toNat h]
  omega

theorem OpcodeField.nop : OpcodeField.Statement (.nop) := OpcodeField.of_wf _
theorem OpcodeField.rst : OpcodeField.Statement (.rst) := OpcodeField.of_wf _
theorem OpcodeField.cfg (ver ecl : Nat) : OpcodeField.Statement (.cfg ver ecl) := OpcodeField.of_wf _
theorem OpcodeField.putb (width value : Nat) : OpcodeField.Statement (.putb width value) := OpcodeField.of_wf _
theorem OpcodeField.phdr (mode count : Nat) : OpcodeField.Statement (.phdr mode count) := OpcodeField.of_wf _
theorem OpcodeField.pnum1 (c0 : Nat) : OpcodeField.Statement (.pnum1 c0) := OpcodeField.of_wf _
theorem OpcodeField.pnum2 (c0 c1 : Nat) : OpcodeField.Statement (.pnum2 c0 c1) := OpcodeField.of_wf _
theorem OpcodeField.pnum3 (c0 c1 c2 : Nat) : OpcodeField.Statement (.pnum3 c0 c1 c2) := OpcodeField.of_wf _
theorem OpcodeField.paln1 (c0 : Nat) : OpcodeField.Statement (.paln1 c0) := OpcodeField.of_wf _
theorem OpcodeField.paln2 (c0 c1 : Nat) : OpcodeField.Statement (.paln2 c0 c1) := OpcodeField.of_wf _
theorem OpcodeField.pbyte (c0 : Nat) : OpcodeField.Statement (.pbyte c0) := OpcodeField.of_wf _
theorem OpcodeField.pfin : OpcodeField.Statement (.pfin) := OpcodeField.of_wf _
theorem OpcodeField.ecc : OpcodeField.Statement (.ecc) := OpcodeField.of_wf _
theorem OpcodeField.ilv : OpcodeField.Statement (.ilv) := OpcodeField.of_wf _
theorem OpcodeField.mset (row col tag : Nat) (dark : Bool) : OpcodeField.Statement (.mset row col tag dark) := OpcodeField.of_wf _
theorem OpcodeField.score : OpcodeField.Statement (.score) := OpcodeField.of_wf _
theorem OpcodeField.rdr (addr : Nat) : OpcodeField.Statement (.rdr addr) := OpcodeField.of_wf _
theorem OpcodeField.rdd (idx : Nat) : OpcodeField.Statement (.rdd idx) := OpcodeField.of_wf _
theorem OpcodeField.rde (idx : Nat) : OpcodeField.Statement (.rde idx) := OpcodeField.of_wf _
theorem OpcodeField.rdo (idx : Nat) : OpcodeField.Statement (.rdo idx) := OpcodeField.of_wf _
theorem OpcodeField.rdm (row col msel : Nat) : OpcodeField.Statement (.rdm row col msel) := OpcodeField.of_wf _
theorem OpcodeField.gfmul (a b : Nat) : OpcodeField.Statement (.gfmul a b) := OpcodeField.of_wf _
theorem OpcodeField.gfdiv (a b : Nat) : OpcodeField.Statement (.gfdiv a b) := OpcodeField.of_wf _
theorem OpcodeField.gfexp (b : Nat) : OpcodeField.Statement (.gfexp b) := OpcodeField.of_wf _
theorem OpcodeField.gflog (b : Nat) : OpcodeField.Statement (.gflog b) := OpcodeField.of_wf _
theorem OpcodeField.genc (a b : Nat) : OpcodeField.Statement (.genc a b) := OpcodeField.of_wf _

end Sys2Proof.Laws
end

