-- ==== Sys2Proof/Laws/Scorer.lean ====
section
/-! SUPPORT. Reading the matrix row by row reads the matrix; the runs of a line fill it; the shape of a
candidate. -/

namespace Sys2Proof.Machine

/-- Reading among the modules of a row reads the matrix. -/
theorem readModule_listedInRow (m : Matrix) (r : Nat) {c : Nat} (hc : c < 2 ^ 8) :
    readModule (listedInRow m r) r c = readModule m r c := by
  have ha : moduleAddress r c / 2 ^ 8 = r := by simp only [moduleAddress]; omega
  unfold readModule listedInRow
  induction m with
  | nil => rfl
  | cons e rest ih =>
    obtain ⟨a, x⟩ := e
    by_cases h : a / 2 ^ 8 = r
    · rw [List.filter_cons_of_pos (by simpa using h)]
      simp only [Memory.read]
      rw [ih]
    · have hne : a ≠ moduleAddress r c := fun e => h (by rw [e]; exact ha)
      rw [List.filter_cons_of_neg (by simpa using h)]
      simp only [Memory.read, if_neg hne]
      exact ih

@[simp] theorem moduleRow_length (n : Nat) (m : Matrix) (r : Nat) : (moduleRow n m r).length = n := by
  simp [moduleRow]

/-- Module `c` of row `r`. -/
theorem moduleRow_get (m : Matrix) (r : Nat) {n c : Nat} (hn : n ≤ 2 ^ 8) (hc : c < n) :
    (moduleRow n m r)[c]'(by simpa using hc) = readModule m r c := by
  simp [moduleRow, readModule_listedInRow m r (show c < 2 ^ 8 by omega)]

/-- Some module is Unset exactly when a read finds it so (spec 44_mask_scorer.md R194). -/
theorem hasUnset_iff {n : Nat} (m : Matrix) (hn : n ≤ 2 ^ 8) :
    hasUnset n m = true ↔ ∃ r c, r < n ∧ c < n ∧ (readModule m r c).tag = .unset := by
  simp only [hasUnset, moduleRow, List.any_eq_true, List.mem_range, List.mem_map, beq_iff_eq]
  constructor
  · rintro ⟨r, hr, md, ⟨c, hc, rfl⟩, ht⟩
    exact ⟨r, c, hr, hc, by rwa [readModule_listedInRow m r (by omega)] at ht⟩
  · rintro ⟨r, c, hr, hc, ht⟩
    exact ⟨r, hr, _, ⟨c, hc, rfl⟩, by rwa [readModule_listedInRow m r (by omega)]⟩

@[simp] theorem candidate_length (p : Params) (k n : Nat) (m : Matrix) :
    (candidate p k n m).length = n := by
  simp [candidate]

theorem candidate_row_length {p : Params} {k n : Nat} {m : Matrix} {row : List Bool}
    (h : row ∈ candidate p k n m) : row.length = n := by
  simp only [candidate, List.mem_map, List.mem_range] at h
  obtain ⟨r, _, rfl⟩ := h
  simp

/-- The runs of a line fill it (R186). -/
theorem runLengths_sum (line : List Bool) : (runLengths line).sum = line.length := by
  have key : ∀ (l : List Bool) (v : Bool) (len : Nat), (runLengthsFrom v len l).sum = len + l.length := by
    intro l
    induction l with
    | nil => intro v len; simp [runLengthsFrom]
    | cons x rest ih =>
      intro v len
      simp only [runLengthsFrom]
      split_ifs
      · rw [ih]; simp; omega
      · simp [ih]; omega
  cases line with
  | nil => rfl
  | cons x rest => simp [runLengths, key]; omega

@[simp] theorem perMask_get {α : Type} (f : Fin 8 → α) (j : Fin 8) : (perMask f).get j = f j := by
  fin_cases j <;> rfl

end Sys2Proof.Machine
end

