-- ==== Sys2Proof/Tests/Slice0.lean ====
section
/-! SUPPORT. The model's own tests: ill-formed commands refused, words written out from the encodings of
spec 30_encoding.md R83 decoded, single steps with results the spec's own rules and examples print, and a
witness for the hypotheses of each statement that has some. -/

namespace Sys2Proof.Machine.Tests

set_option Elab.async false

/-! ### Helpers -/

/-- The state of an answer; the reset state for an answer without one. -/
def nextOf : Result → State
  | .next t => t
  | _ => State.reset

/-- A response as the spec writes it. -/
def answer (r : Result) : Option (Bool × Nat) := (nextOf r).response.map fun p => (p.ok, p.resp.toNat)

/-- `STATUS` after a command. -/
def status (r : Result) : Nat := (statusWord (nextOf r).toBlock).toNat

/-- The first `n` codewords of a buffer. -/
def firstCodewords (m : Buffer) (n : Nat) : List Nat :=
  (List.range n).map fun i => (readCodeword m i).toNat

/-- A buffer that begins with the given codewords. -/
def bufferOf (l : List Nat) : Buffer :=
  writeCodewords Config.TMAX [] 0 (l.map fun v => BitVec.ofNat 8 v)

/-- The state after `CFG ver, ecl`. -/
def configured (ver ecl : Nat) : State := nextOf (exec (.cfg ver ecl) State.reset)

/-- A state in `PACKING` whose stream holds `len` bits, in the given codewords. -/
def packing (ver ecl : Nat) (l : List Nat) (len : Nat) : State :=
  { configured ver ecl with dbuf := bufferOf l, bitlen := BitVec.ofNat 15 len }

/-- A state in a later phase, with the given contents. -/
def inPhase (p : Phase) (ver ecl : Nat) (d e o : List Nat) : State :=
  { configured ver ecl with phase := p, dbuf := bufferOf d, ebuf := bufferOf e, obuf := bufferOf o }

/-- An `n` by `n` matrix of equal modules. -/
def uniform (n : Nat) (v : Module) : Matrix :=
  (List.range n).flatMap fun r => (List.range n).map fun c => (moduleAddress r c, v)

/-- A state in `STREAMED` with a matrix of side `n`. -/
def streamed (n : Nat) (m : Matrix) : State :=
  { State.reset with phase := .streamed, n := BitVec.ofNat 8 n, mod := m }

/-! ### WellFormed refuses (30_encoding.md R83: one operand too wide for its field in each term) -/

theorem test_wellformed_refuses_control :
    Instr.wf (.cfg 64 0) = false ∧ Instr.wf (.cfg 1 4) = false := by decide

theorem test_wellformed_refuses_packer :
    Instr.wf (.putb 32 0) = false ∧ Instr.wf (.putb 1 65536) = false ∧
    Instr.wf (.phdr 16 0) = false ∧ Instr.wf (.phdr 1 65536) = false ∧
    Instr.wf (.pnum1 256) = false ∧ Instr.wf (.paln1 256) = false ∧ Instr.wf (.pbyte 256) = false ∧
    Instr.wf (.pnum2 256 0) = false ∧ Instr.wf (.pnum2 0 256) = false ∧
    Instr.wf (.paln2 256 0) = false ∧ Instr.wf (.paln2 0 256) = false ∧
    Instr.wf (.pnum3 256 0 0) = false ∧ Instr.wf (.pnum3 0 256 0) = false ∧
    Instr.wf (.pnum3 0 0 256) = false := by decide

theorem test_wellformed_refuses_matrix_and_reads :
    Instr.wf (.mset 256 0 1 false) = false ∧ Instr.wf (.mset 0 256 1 false) = false ∧
    Instr.wf (.mset 0 0 4 false) = false ∧ Instr.wf (.rdr 256) = false ∧
    Instr.wf (.rdd 4096) = false ∧ Instr.wf (.rde 4096) = false ∧ Instr.wf (.rdo 4096) = false ∧
    Instr.wf (.rdm 256 0 0) = false ∧ Instr.wf (.rdm 0 256 0) = false ∧
    Instr.wf (.rdm 0 0 16) = false := by decide

theorem test_wellformed_refuses_field_queries :
    Instr.wf (.gfmul 256 0) = false ∧ Instr.wf (.gfmul 0 256) = false ∧
    Instr.wf (.gfdiv 256 0) = false ∧ Instr.wf (.gfdiv 0 256) = false ∧
    Instr.wf (.genc 256 0) = false ∧ Instr.wf (.genc 0 256) = false ∧
    Instr.wf (.gfexp 256) = false ∧ Instr.wf (.gflog 256) = false := by decide

/-! ### Decoding (words written out field by field from R83: op, then the operands at their places) -/

theorem test_decode_control :
    decode 0b00000000_000000000000000000000000 = .ok .nop ∧
    decode 0b00000001_000000000000000000000000 = .ok .rst ∧
    decode 0b00000010_0000000000000000_10_101000 = .ok (.cfg 40 2) := by decide

theorem test_decode_packer_fields :
    decode 0b00010000_000_10000_1010010111000011 = .ok (.putb 16 0xA5C3) ∧
    decode 0b00010001_0000_0100_0000001100000001 = .ok (.phdr 4 0x301) := by decide

theorem test_decode_packer_characters :
    decode 0b00010010_00000000_00000000_00110111 = .ok (.pnum1 0x37) ∧
    decode 0b00010011_00000000_00110111_00110110 = .ok (.pnum2 0x36 0x37) ∧
    decode 0b00010100_00110010_00110001_00110000 = .ok (.pnum3 0x30 0x31 0x32) ∧
    decode 0b00010101_00000000_00000000_01000100 = .ok (.paln1 0x44) ∧
    decode 0b00010110_00000000_01000101_01001000 = .ok (.paln2 0x48 0x45) ∧
    decode 0b00010111_00000000_00000000_11111111 = .ok (.pbyte 0xFF) ∧
    decode 0b00011000_000000000000000000000000 = .ok .pfin := by decide

theorem test_decode_coder_and_scorer :
    decode 0b00100000_000000000000000000000000 = .ok .ecc ∧
    decode 0b00100001_000000000000000000000000 = .ok .ilv ∧
    decode 0b00110000_00010100_00000011_00000_10_1 = .ok (.mset 20 3 2 true) ∧
    decode 0b00110001_000000000000000000000000 = .ok .score := by decide

theorem test_decode_readout :
    decode 0b01000000_0000000000000000_00001100 = .ok (.rdr 0x0C) ∧
    decode 0b01000001_000000000000_101110001011 = .ok (.rdd 2955) ∧
    decode 0b01000010_000000000000_000000001001 = .ok (.rde 9) ∧
    decode 0b01000011_000000000000_000000011010 = .ok (.rdo 26) ∧
    decode 0b01000100_00000001_00000010_0000_1000 = .ok (.rdm 1 2 8) := by decide

theorem test_decode_field_queries :
    decode 0b01010000_00000000_01010011_11001010 = .ok (.gfmul 0x53 0xCA) ∧
    decode 0b01010001_00000000_00011101_00000010 = .ok (.gfdiv 0x1D 0x02) ∧
    decode 0b01010010_0000000000000000_00011001 = .ok (.gfexp 25) ∧
    decode 0b01010011_0000000000000000_00011101 = .ok (.gflog 0x1D) ∧
    decode 0b01010100_00000000_00000111_00000011 = .ok (.genc 7 3) := by decide

/-- R87, R88: words that are no command, by the name of what is wrong. -/
theorem test_decode_refuses_by_name :
    decode 0x00000001 = .error .reservedBit ∧ decode 0x01800000 = .error .reservedBit ∧
    decode 0x02000100 = .error .reservedBit ∧ decode 0x10200000 = .error .reservedBit ∧
    decode 0x11100000 = .error .reservedBit ∧ decode 0x13010000 = .error .reservedBit ∧
    decode 0x30000008 = .error .reservedBit ∧ decode 0x41001000 = .error .reservedBit ∧
    decode 0x44000010 = .error .reservedBit ∧ decode 0x50010000 = .error .reservedBit ∧
    decode 0x03000000 = .error .unknownOpcode ∧ decode 0x19000000 = .error .unknownOpcode ∧
    decode 0x22000000 = .error .unknownOpcode ∧ decode 0x3F000000 = .error .unknownOpcode ∧
    decode 0x45000000 = .error .unknownOpcode ∧ decode 0xFF000000 = .error .unknownOpcode := by
  decide

/-- R91's examples, and R92's expansions. -/
theorem test_assembler_lines :
    assembleLine "CFG 1, M ; comment".toList = some [.cfg 1 1] ∧
    assembleLine "PNUM3 '0', '1', '2'".toList = some [.pnum3 0x30 0x31 0x32] ∧
    assembleLine "MSET 20, 3, R, 1".toList = some [.mset 20 3 2 true] ∧
    assembleLine "SEGNUM \"12345\"".toList =
      some [.phdr 1 5, .pnum3 0x31 0x32 0x33, .pnum2 0x34 0x35] ∧
    assembleLine "MROW 2, \"#.10\"".toList =
      some [.mset 2 0 2 true, .mset 2 1 2 false, .mset 2 2 1 true, .mset 2 3 1 false] := by
  decide +kernel

/-- Log entry 12: after an opening quotation mark one character is taken as it stands, whichever it is. -/
theorem test_assembler_quoted_marks :
    assembleLine "PBYTE ''' ; c".toList = some [.pbyte 0x27] ∧
    assembleLine "PNUM2 ';', ','".toList = some [.pnum2 0x3B 0x2C] ∧
    assembleLine "PBYTES \"';'\"".toList = some [.pbyte 0x27, .pbyte 0x3B, .pbyte 0x27] := by
  decide +kernel

/-! ### Control (40_control.md) -/

/-- R110: in `FAULT` `NOP` completes and leaves `ERR`. -/
theorem test_nop_in_fault :
    answer (exec .nop (afterFault .dataTooLong 0x17000042 State.reset)) = some (true, 0) ∧
    status (exec .nop (afterFault .dataTooLong 0x17000042 State.reset)) = 0x27 := by decide

/-- R111: after a `DataTooLong` fault, `RST` gives `STATUS = 0`. -/
theorem test_rst_after_fault :
    answer (exec .rst (afterFault .dataTooLong 0x17000042 State.reset)) = some (true, 0) ∧
    status (exec .rst (afterFault .dataTooLong 0x17000042 State.reset)) = 0 := by decide

/-- R112's example: `CFG 1, M`. -/
theorem test_cfg_example :
    let t := configured 1 1
    t.ver = 1 ∧ t.ecl = 1 ∧ t.n = 21 ∧ t.tot = 26 ∧ t.dcap = 16 ∧ t.k = 10 ∧ t.nb1 = 1 ∧
    t.dc1 = 16 ∧ t.nb2 = 0 ∧ t.dc2 = 0 ∧ statusWord t.toBlock = 0x01 := by decide +kernel

/-- 95_test_vectors.md S4: the geometry of 5-Q and 40-H. -/
theorem test_block_table_entries :
    blockEntry standard 5 2 = ⟨18, 2, 15, 2, 16⟩ ∧ (blockEntry standard 5 2).tot = 134 ∧
    blockEntry standard 40 3 = ⟨30, 20, 15, 61, 16⟩ ∧ (blockEntry standard 40 3).tot = 3706 := by decide +kernel

/-! ### Packer (41_packer.md) -/

/-- R122's example: `FF FF` and four bits of `8`, then `PUTB 4, 0xA`. -/
theorem test_putb_example :
    let r := exec (.putb 4 0xA) (packing 1 3 [0xFF, 0xFF, 0x80] 20)
    firstCodewords (nextOf r).dbuf 3 = [0xFF, 0xFF, 0x8A] ∧ (nextOf r).bitlen = 24 ∧
      answer r = some (true, 0) := by decide +kernel

/-- R122: a value bit at the width. -/
theorem test_putb_value_too_wide :
    status (exec (.putb 4 0x10) (packing 1 3 [] 0)) = 0x67 := by decide +kernel

/-- R125's example: `CFG 1, M`, `PHDR NUM, 8`. -/
theorem test_phdr_example :
    let r := exec (.phdr 1 8) (packing 1 1 [] 0)
    firstCodewords (nextOf r).dbuf 2 = [0x10, 0x20] ∧ (nextOf r).bitlen = 14 := by decide +kernel

/-- R124 at a tier boundary: a version 10 byte header has a 16-bit length field. -/
theorem test_phdr_tier_boundary :
    (nextOf (exec (.phdr 4 0xFFFF) (packing 10 0 [] 0))).bitlen = 20 ∧
    status (exec (.phdr 4 0x100) (packing 9 0 [] 0)) = 0x67 := by decide +kernel

/-- R127's example: `PNUM1 '7'` appends `0111`. -/
theorem test_pnum1_example :
    firstCodewords (nextOf (exec (.pnum1 0x37) (packing 1 1 [] 0))).dbuf 1 = [0x70] := by
  decide +kernel

/-- R129's example within R134's: 67 in 7 bits at position 34. -/
theorem test_pnum2_example :
    let r := exec (.pnum2 0x36 0x37) (packing 1 1 [0x10, 0x20, 0x0C, 0x56, 0x40] 34)
    firstCodewords (nextOf r).dbuf 6 = [0x10, 0x20, 0x0C, 0x56, 0x61, 0x80] ∧
      (nextOf r).bitlen = 41 := by decide +kernel

/-- R130's example within R134's: 12 in 10 bits at position 14; and a code that is no digit. -/
theorem test_pnum3_example :
    firstCodewords
        (nextOf (exec (.pnum3 0x30 0x31 0x32) (packing 1 1 [0x10, 0x20] 14))).dbuf 3 =
      [0x10, 0x20, 0x0C] ∧
    status (exec (.pnum3 0x30 0x3A 0x32) (packing 1 1 [] 0)) = 0x37 := by decide +kernel

/-- R131's example: `PALN1 'D'` appends `001101`; lower case is not in the set. -/
theorem test_paln1_example :
    firstCodewords (nextOf (exec (.paln1 0x44) (packing 1 1 [] 0))).dbuf 1 = [0x34] ∧
    status (exec (.paln1 0x64) (packing 1 1 [] 0)) = 0x37 := by decide +kernel

/-- R132's examples: `H`, `E` append `01100001011`; two colons append `11111101000`. -/
theorem test_paln2_examples :
    firstCodewords (nextOf (exec (.paln2 0x48 0x45) (packing 1 1 [] 0))).dbuf 2 = [0x61, 0x60] ∧
    firstCodewords (nextOf (exec (.paln2 0x3A 0x3A) (packing 1 1 [] 0))).dbuf 2 = [0xFD, 0x00] := by
  decide +kernel

/-- R133's example: `B` at position 12. -/
theorem test_pbyte_example :
    let r := exec (.pbyte 0x42) (packing 5 2 [0x43, 0xB0] 12)
    firstCodewords (nextOf r).dbuf 3 = [0x43, 0xB4, 0x20] ∧ (nextOf r).bitlen = 20 := by
  decide +kernel

/-- R121: a byte that ends exactly at the capacity fits, and the next one does not (1-H, 72 bits). -/
theorem test_pbyte_at_capacity :
    answer (exec (.pbyte 0xFF) (packing 1 3 [] 64)) = some (true, 0) ∧
    status (exec (.pbyte 0xFF) (packing 1 3 [] 65)) = 0x27 := by decide +kernel

/-- R134's example: the 41 bits of "01234567" at 1-M. -/
theorem test_pfin_example :
    let r := exec .pfin (packing 1 1 [0x10, 0x20, 0x0C, 0x56, 0x61, 0x80] 41)
    firstCodewords (nextOf r).dbuf 16 =
      [0x10, 0x20, 0x0C, 0x56, 0x61, 0x80, 0xEC, 0x11, 0xEC, 0x11, 0xEC, 0x11, 0xEC, 0x11, 0xEC, 0x11] ∧
      (nextOf r).bitlen = 128 ∧ status r = 0x02 := by decide +kernel

/-- R134 (2): with 3 bits left, three terminator bits and nothing else. -/
theorem test_pfin_short_terminator :
    let r := exec .pfin (packing 1 3 [1, 2, 3, 4, 5, 6, 7, 8, 0xF8] 69)
    firstCodewords (nextOf r).dbuf 10 = [1, 2, 3, 4, 5, 6, 7, 8, 0xF8, 0] ∧
      (nextOf r).bitlen = 72 := by decide +kernel

/-! ### Field (42_gf256.md) -/

/-- R149's corner cases and example. -/
theorem test_gfmul_examples :
    answer (exec (.gfmul 0x53 0xCA) State.reset) = some (true, 0x8F) ∧
    answer (exec (.gfmul 0x02 0x80) State.reset) = some (true, 0x1D) ∧
    answer (exec (.gfmul 0xFF 0xFF) State.reset) = some (true, 0xE2) := by decide +kernel

/-- R150's corner cases and example; a zero divisor faults, also when the dividend is zero. -/
theorem test_gfdiv_examples :
    answer (exec (.gfdiv 0x1D 0x02) State.reset) = some (true, 0x80) ∧
    answer (exec (.gfdiv 1 2) State.reset) = some (true, 0x8E) ∧
    status (exec (.gfdiv 0 0) State.reset) = 0x97 := by decide +kernel

/-- R151's examples, and the first of each second row of the table of R141. -/
theorem test_gfexp_examples :
    answer (exec (.gfexp 25) State.reset) = some (true, 0x03) ∧
    answer (exec (.gfexp 255) State.reset) = some (true, 0x01) ∧
    ([16, 48, 80, 112, 144, 176, 208, 240].map fun i => (gexp standard i).toNat) =
      [0x4C, 0x46, 0xFD, 0x81, 0xA8, 0xE3, 0x51, 0x2C] := by decide +kernel

/-- R152's examples. -/
theorem test_gflog_examples :
    answer (exec (.gflog 0x1D) State.reset) = some (true, 8) ∧
    answer (exec (.gflog 0x01) State.reset) = some (true, 0) ∧
    answer (exec (.gflog 0xFF) State.reset) = some (true, 175) ∧
    status (exec (.gflog 0) State.reset) = 0x97 := by decide +kernel

/-- R153's examples. -/
theorem test_genc_examples :
    answer (exec (.genc 7 3) State.reset) = some (true, 0xA4) ∧
    answer (exec (.genc 7 0) State.reset) = some (true, 0x75) ∧
    status (exec (.genc 31 0) State.reset) = 0x67 ∧
    status (exec (.genc 7 8) State.reset) = 0x67 := by decide +kernel

/-! ### Coder (43_rs_coder.md) -/

/-- R166's example: 1-M. -/
theorem test_ecc_example :
    let r := exec .ecc (inPhase .filled 1 1
      [0x10, 0x20, 0x0C, 0x56, 0x61, 0x80, 0xEC, 0x11, 0xEC, 0x11, 0xEC, 0x11, 0xEC, 0x11, 0xEC, 0x11]
      [] [])
    firstCodewords (nextOf r).ebuf 10 =
      [0xA5, 0x24, 0xD4, 0xC1, 0xED, 0x36, 0xC7, 0x87, 0x2C, 0x55] ∧ status r = 0x03 := by
  decide +kernel

/-- A geometry of one block of one codeword and one of two, `K = 1`. -/
def twoBlocks : State :=
  { State.reset with
    phase := .coded, nb1 := 1, dc1 := 1, nb2 := 1, dc2 := 2, k := 1, dcap := 3, tot := 5
    dbuf := bufferOf [0x11, 0x21, 0x22], ebuf := bufferOf [0xE1, 0xE2] }

/-- R169 by hand: 1.1, 2.1, then 2.2 alone, then the corrections. -/
theorem test_ilv_skips_the_shorter_block :
    firstCodewords (nextOf (exec .ilv twoBlocks)).obuf 6 = [0x11, 0x21, 0x22, 0xE1, 0xE2, 0] ∧
    status (exec .ilv twoBlocks) = 0x04 := by decide +kernel

/-! ### Scorer (44_mask_scorer.md) -/

/-- R181's example. -/
theorem test_mset_example :
    let r := exec (.mset 20 3 2 true) (streamed 21 [])
    (nextOf r).mod = [(20 * 256 + 3, ⟨.reserved, true⟩)] ∧ answer r = some (true, 0) ∧
      status (exec (.mset 20 3 2 true) (nextOf r)) = 0x77 := by decide +kernel

/-- R182: coordinates and tags outside their range. -/
theorem test_mset_bad_operands :
    status (exec (.mset 21 0 1 true) (streamed 21 [])) = 0x67 ∧
    status (exec (.mset 0 0 0 true) (streamed 21 [])) = 0x67 ∧
    status (exec (.mset 0 0 3 true) (streamed 21 [])) = 0x67 := by decide +kernel

/-- R187's example: a run of 5, a run of 6, ten runs of 1. -/
theorem test_run_penalty_example :
    ((runLengths [false, false, false, false, false, true, true, true, true, true, true, false, true,
      false, true, false, true, false, true, false, true]).map (runPenalty standard)).sum = 7 := by decide

/-- R189's example: fifteen modules that hold one match of each pattern. -/
theorem test_finder_pattern_example :
    let line := [false, false, false, false, true, false, true, true, true, false, true, false, false,
      false, false]
    patternMatches finderPattern1 line + patternMatches finderPattern2 line = 2 := by decide

/-- R187 to R190 on 441 modules (Data, light), candidates 2 and 5 (95_test_vectors.md V-MS-01). -/
theorem test_rule_penalties_example :
    ([2, 5].map fun k => (rulePenalties standard 21 (candidate standard k 21 (uniform 21 ⟨.data, false⟩))).toList.map
      fun p => p.toNat) = [[399, 420, 0, 30], [278, 147, 0, 10]] := by decide +kernel

/-- R193 by hand: four modules (Data, light). Masks 0, 1, 2 give two dark modules and no uniform window;
3, 5 and 7 one or three dark modules; 4 and 6 four dark modules, one window. -/
theorem test_score_two_by_two :
    let t := nextOf (exec .score (streamed 2 (uniform 2 ⟨.data, false⟩)))
    (t.pen.toList.map fun p => p.toNat) = [0, 0, 0, 50, 103, 50, 103, 50] ∧ t.best = 0 ∧
      t.phase = .masked := by decide +kernel

/-- R194: one Unset module stops the scorer. -/
theorem test_score_unset_cell :
    status (exec .score (streamed 2 [(0, ⟨.data, false⟩), (1, ⟨.data, false⟩),
      (256, ⟨.data, false⟩)])) = 0x87 := by decide +kernel

/-! ### Read-out (45_readout.md) -/

/-- R210's examples after `CFG 1, M`, and an unmapped address. -/
theorem test_rdr_examples :
    answer (exec (.rdr 0x01) (configured 1 1)) = some (true, 0x41) ∧
    answer (exec (.rdr 0x02) (configured 1 1)) = some (true, 21) ∧
    answer (exec (.rdr 0x0F) (configured 1 1)) = some (true, 0x42534501) ∧
    status (exec (.rdr 0x0D) (configured 1 1)) = 0x67 := by decide +kernel

/-- R211's examples. -/
theorem test_rdd_examples :
    answer (exec (.rdd 0) (inPhase .filled 1 1 [0x10] [] [])) = some (true, 0x10) ∧
    status (exec (.rdd 16) (inPhase .filled 1 1 [] [] [])) = 0x67 := by decide +kernel

/-- R212's examples: the last valid index of 1-M is 9. -/
theorem test_rde_examples :
    answer (exec (.rde 0) (inPhase .coded 1 1 [] [0xA5] [])) = some (true, 0xA5) ∧
    status (exec (.rde 10) (inPhase .coded 1 1 [] [] [])) = 0x67 := by decide +kernel

/-- R213's examples. -/
theorem test_rdo_examples :
    answer (exec (.rdo 1) (inPhase .streamed 1 1 [] [] [0x10, 0x20])) = some (true, 0x20) ∧
    status (exec (.rdo 26) (inPhase .streamed 1 1 [] [] [])) = 0x67 := by decide +kernel

/-- R214's examples. -/
theorem test_rdm_examples :
    let s := streamed 21 [(1 * 256 + 2, ⟨.data, false⟩)]
    answer (exec (.rdm 1 2 3) s) = some (true, 3) ∧ answer (exec (.rdm 1 2 8) s) = some (true, 2) ∧
    answer (exec (.rdm 0 0 0) s) = some (true, 0) ∧ status (exec (.rdm 0 0 9) s) = 0x67 := by
  decide +kernel

/-! ### The step -/

/-- 60_exceptions.md R226, R227: an illegal word faults, then a read of `FINFO` tells which, and other
commands are refused. -/
theorem test_step_fault_then_read :
    let s := nextOf (step { State.reset with inputs := [.command 0xDEADBEEF, .command 0x4000000C] })
    s.phase = .fault ∧ s.err = some .illegalCommand ∧ s.inputs = [.command 0x4000000C] ∧
    answer (step s) = some (true, 0xDEADBEEF) := by decide +kernel

/-- 70_reset_and_hazards.md R250: the reset input. -/
theorem test_step_reset_pulse :
    (nextOf (step { configured 1 1 with inputs := [.resetPulse] })) = State.reset := by decide +kernel

/-- 70_reset_and_hazards.md R256: a run's outcome is its responses, one for each command word, and its final
state. `CFG 1, M`; `ECC` too early; `RDR FINFO`; the reset input; `RDR STATUS`. -/
theorem test_run_outcome :
    let out := run standard Block.reset [.command 0x02000041, .command 0x20000000, .command 0x4000000C,
      .resetPulse, .command 0x40000000]
    (out.1.map fun r => (r.ok, r.resp.toNat)) = [(true, 0), (false, 0), (true, 0x20000000), (true, 0)] ∧
      out.2 = Block.reset := by decide +kernel

/-- 00_scope.md R10, R147: with the roots begun at 1 and not at 0, `gen(1)` is `x + 2`. -/
theorem test_another_table :
    (blockStep { standard with GENROOT0 := 1 } Block.reset 0x54000100).2.resp = 2 ∧
    (blockStep standard Block.reset 0x54000100).2.resp = 1 := by decide +kernel

/-- 00_scope.md R9: the last codeword of a buffer and the last module of the matrix; nothing past them. -/
theorem test_sizes_are_held :
    readCodeword (writeCodeword Config.DMAX [] 2955 1) 2955 = 1 ∧ writeCodeword Config.DMAX [] 2956 1 = [] ∧
    writeCodeword Config.EMAX [] 2430 1 = [] ∧ writeCodeword Config.TMAX [] 3706 1 = [] ∧
    (readModule (writeModule [] 176 176 ⟨.data, true⟩) 176 176).tag = .data ∧
    writeModule [] 177 0 ⟨.data, true⟩ = [] ∧ writeModule [] 0 177 ⟨.data, true⟩ = [] := by decide

/-! ### Witnesses: states and operands that meet the hypotheses of each statement together -/

/-- `configured 1 1` with words at its inputs. -/
def presented (s : State) (l : List HostInput) : State := { s with inputs := l }

/-- A state in `FAULT`. -/
def faulted : State := afterFault .badPhase 0x20000000 (configured 1 1)

theorem test_witness_DecodeOfEncodeIsTheCommand : Instr.wf (.rdm 255 255 15) = true := by decide

theorem test_witness_EncodeOfDecodeIsTheWord : decode 0x44FFFF0F = .ok (.rdm 255 255 15) := by decide

theorem test_witness_DecoderFollowsTheOpcodeTable :
    ⟨"PUTB", 0xFFE00000, 0x10000000⟩ ∈ opcodeTable ∧
    (0x101FFFFF : Word) &&& 0xFFE00000 = 0x10000000 ∧
    (∀ row ∈ opcodeTable, (0x10200000 : Word) &&& row.mask ≠ row.fixed) ∧
    (0xFFE00000 : Word).getLsbD 20 = false ∧ (0xFFE00000 : Word).getLsbD 21 = true := by decide

theorem test_witness_StepRunsTheDecodedCommand :
    (presented State.reset [.command 0x02000041]).inputs = .command 0x02000041 :: [] ∧
    decode 0x02000041 = .ok (.cfg 1 1) ∧ Instr.wf (.cfg 1 1) = true := by decide

theorem test_witness_IllegalWordsFault :
    State.reset.phase ≠ .fault ∧ ⟨"NOP", 0xFFFFFFFF, 0x00000000⟩ ∈ opcodeTable ∧
    (0x00000001 : Word) &&& 0xFF000000 = 0 ∧ (0x00000001 : Word) &&& 0xFFFFFFFF ≠ 0 ∧
    field 0x03000000 31 24 = 0x03 ∧ field 0x0FFFFFFF 31 24 = 0x0F ∧ field 0x19000000 31 24 = 0x19 ∧
    field 0x1F000000 31 24 = 0x1F ∧ field 0x22000000 31 24 = 0x22 ∧ field 0x2F000000 31 24 = 0x2F ∧
    field 0x32000000 31 24 = 0x32 ∧ field 0x3F000000 31 24 = 0x3F ∧ field 0x45000000 31 24 = 0x45 ∧
    field 0x4F000000 31 24 = 0x4F ∧ field 0x55000000 31 24 = 0x55 ∧ field 0xFFFFFFFF 31 24 = 0xFF := by
  decide

theorem test_witness_EveryWordGetsOneResponse :
    (presented faulted [.command 0xFFFFFFFF]).inputs = .command 0xFFFFFFFF :: [] ∧
    (presented faulted [.resetPulse]).inputs = .resetPulse :: [] ∧
    (presented faulted [.resetPulse, .command 0]).inputs = [.resetPulse] ++ [.command 0] := by decide

theorem test_witness_BothResetsGiveTheResetState :
    (presented (configured 1 1) [.resetPulse]).inputs = .resetPulse :: [] ∧
    State.reset.phase = .unbuilt ∧ State.reset.err = none ∧ UnbuiltIsReset State.reset.toBlock ∧
    faulted.phase = .fault ∧ exec (.rdr 0) faulted = .next (afterResponse 0x57 faulted) ∧
    Instr.rdr 0 ≠ .rst := ⟨rfl, rfl, rfl, fun _ _ => rfl, rfl, rfl, by decide⟩

theorem test_witness_CfgLoadsTheGeometry :
    State.reset.phase = .unbuilt ∧ (configured 1 1).phase ≠ .fault ∧ (configured 1 1).phase ≠ .unbuilt ∧
    (1 : Nat) < 64 ∧ (40 : Nat) < 64 ∧ (41 : Nat) < 64 ∧ (3 : Nat) < 4 := by decide +kernel

theorem test_witness_BlockTableMeetsTheSumProperty :
    (1 : Nat) ≤ 40 ∧ (40 : Nat) ≤ 40 ∧ (3 : Nat) < 4 := by decide

theorem test_witness_FaultsArePrecise :
    State.reset.phase ≠ .fault ∧
    (nextOf (step (presented State.reset [.command 0x20000000]))).phase = .fault ∧
    (nextOf (step (presented State.reset [.command 0x20000000]))).response = some ⟨false, 0⟩ ∧
    (nextOf (step (presented State.reset [.command 0x02000041]))).phase = .packing := by
  decide +kernel

theorem test_witness_FaultPhaseRefusesTheRest :
    faulted.phase = .fault ∧
    field 0x4000000C 31 24 = 0x40 ∧ field 0x4000000C 23 8 = 0 ∧
    readRegister faulted.toBlock (field 0x4000000C 7 0) = some 0x20000000 ∧
    (0x4000000D : Word) ≠ 0x00000000 ∧ (0x4000000D : Word) ≠ 0x01000000 ∧
    readRegister faulted.toBlock (field 0x4000000D 7 0) = none := by decide +kernel

theorem test_witness_OnlyResetLeavesFault :
    faulted.phase = .fault ∧
    (nextOf (step (presented faulted [.command 0x01000000]))).phase ≠ .fault ∧
    (nextOf (step (presented faulted [.resetPulse]))).phase ≠ .fault := by decide +kernel

theorem test_witness_PhaseMovesOnlyAsListed :
    (nextOf (exec .ilv twoBlocks)).phase = .streamed ∧
    (nextOf (step (presented twoBlocks [.resetPulse]))).phase = .unbuilt := by decide +kernel

theorem test_witness_WrongPhaseTakesBadPhase :
    twoBlocks.phase ≠ .fault ∧ WrongPhase .ecc twoBlocks.phase ∧ WrongPhase (.rdo 0) twoBlocks.phase :=
  ⟨by decide, (by decide : Phase.coded ≠ Phase.filled), .inr (.inr (.inr rfl))⟩

theorem test_witness_EachItemHasItsWriters :
    (∃ t, exec (.rdr 0) faulted = .next t) ∧ Instr.rdr 0 ≠ .rst ∧ (∀ ver ecl, Instr.rdr 0 ≠ .cfg ver ecl) ∧
    Instr.rdr 0 ≠ .pfin ∧ Instr.rdr 0 ≠ .ecc ∧ Instr.rdr 0 ≠ .ilv ∧ Instr.rdr 0 ≠ .score ∧
    (∀ row col tag dark, Instr.rdr 0 ≠ .mset row col tag dark) ∧ ¬WritesStream (.rdr 0) :=
  ⟨⟨afterResponse 0x57 faulted, rfl⟩, by decide, fun _ _ => nofun, by decide, by decide, by decide,
    by decide, fun _ _ _ _ => nofun, fun h => h⟩

/-- A state that meets the invariant, with a command presented that takes it to `PACKING`. -/
theorem test_witness_StepKeepsTheInvariant :
    Inv (presented State.reset [.command 0x02000041]).toBlock ∧
    (nextOf (step (presented State.reset [.command 0x02000041]))).phase = .packing := by
  refine ⟨⟨?_, ?_, ?_, ?_, ?_, ?_, ?_, ?_, ?_, ?_⟩, by decide +kernel⟩
  · exact ⟨⟨rfl, rfl⟩, ⟨rfl, rfl⟩, ⟨rfl, rfl⟩, ⟨rfl, rfl⟩⟩
  · exact ⟨by decide, by decide, by decide, by decide⟩
  · exact ⟨⟨fun h => absurd rfl h, fun h => absurd h (by decide)⟩,
      ⟨fun _ => rfl, fun _ => rfl⟩⟩
  · exact fun _ _ => rfl
  · exact fun h => absurd rfl h.1
  · exact ⟨fun h => absurd h (by decide),
      fun h => absurd h (by decide)⟩
  · exact ⟨fun _ _ => rfl, fun _ _ => rfl, fun _ _ => rfl, fun _ _ _ _ => rfl⟩
  · exact fun _ _ => rfl
  · exact ⟨fun _ _ => rfl, fun _ _ => ⟨rfl, rfl, rfl⟩⟩
  · exact fun h => absurd h (by decide)

theorem test_witness_StepKeepsMemoriesCanonical :
    MemoriesCanonical twoBlocks.toBlock ∧ (nextOf (exec .ilv twoBlocks)).obuf ≠ [] :=
  ⟨⟨by decide, by decide, by decide, by decide⟩, by decide +kernel⟩

theorem test_witness_StepKeepsTheFirstFault :
    FaultRecorded faulted.toBlock ∧ FaultRecorded State.reset.toBlock ∧
    (nextOf (step (presented faulted [.command 0x02000041]))).err = some .badPhase :=
  ⟨⟨⟨fun _ => rfl, fun _ h => nomatch h⟩, ⟨fun h => by revert h; decide, fun h => nomatch h⟩⟩,
    ⟨⟨fun h => absurd rfl h, fun h => nomatch h⟩, ⟨fun _ => rfl, fun _ => rfl⟩⟩, by decide +kernel⟩

theorem test_witness_CanonicalMemoriesReadingAlikeAreEqual :
    Memory.wf (0 : Byte) [(0, 0x11), (2, 0x22)] = true ∧
    Memory.wf Module.blank [(0, ⟨.data, false⟩), (257, ⟨.unset, true⟩)] = true := by decide

theorem test_witness_AppendBitsWritesTheField :
    MemoriesCanonical (packing 1 3 [] 56).toBlock ∧ WithinSizes (packing 1 3 [] 56).toBlock ∧
    (packing 1 3 [] 56).bitlen.toNat + 16 = 8 * (packing 1 3 [] 56).dcap.toNat ∧
    8 * (packing 1 3 [] 57).dcap.toNat < (packing 1 3 [] 57).bitlen.toNat + 16 ∧
    (0xFFFF : Nat) < 2 ^ 16 ∧
    (∀ p, (packing 1 3 [] 56).bitlen.toNat ≤ p → readStreamBit (packing 1 3 [] 56).dbuf p = false) ∧
    (packing 1 3 [] 56).phase = .packing ∧
    (nextOf (exec (.phdr 1 8) (packing 1 3 [] 56))).bitlen = 70 :=
  ⟨⟨⟨rfl, rfl⟩, ⟨rfl, rfl⟩, ⟨rfl, rfl⟩, ⟨rfl, rfl⟩⟩, ⟨by decide +kernel, by decide +kernel, by decide +kernel, by decide +kernel⟩,
    by decide +kernel, by decide +kernel, by decide,
    fun p _ => by simp [packing, bufferOf, writeCodewords, readStreamBit, readCodeword, Memory.read],
    by decide +kernel, by decide +kernel⟩

/-- For each clause of `PacksField`: another phase; an operand fault; no room; room. -/
theorem test_witness_packing_commands :
    State.reset.phase ≠ .fault ∧ State.reset.phase ≠ .packing ∧
    (packing 1 3 [] 0).phase = .packing ∧ MemoriesCanonical (packing 1 3 [] 0).toBlock ∧
    WithinSizes (packing 1 3 [] 0).toBlock ∧
    (packing 1 3 [] 0).bitlen.toNat + 30 ≤ 8 * (packing 1 3 [] 0).dcap.toNat ∧
    8 * (packing 1 3 [] 72).dcap.toNat < (packing 1 3 [] 72).bitlen.toNat + 1 ∧
    (16 : Nat) < 17 ∧ (0xFFFF : Nat) < 2 ^ 16 ∧ alnumValue standard 0x3A = some 44 ∧ alnumValue standard 0x3B = none ∧
    (0x39 : Nat) < 256 ∧ ¬(0x3A : Nat) ≤ 0x39 :=
  ⟨by decide, by decide, by decide +kernel, ⟨⟨rfl, rfl⟩, ⟨rfl, rfl⟩, ⟨rfl, rfl⟩, ⟨rfl, rfl⟩⟩,
    ⟨by decide +kernel, by decide +kernel, by decide +kernel, by decide +kernel⟩, by decide +kernel, by decide +kernel,
    by decide, by decide, by decide, by decide, by decide, by decide⟩

/-- The widths of the three modes at both sides of each tier boundary, and at an unaccepted mode. -/
theorem test_witness_PhdrAppendsBothFieldsOrNeither :
    (packing 9 0 [] 0).ver.toNat = 9 ∧ (packing 10 0 [] 0).ver.toNat = 10 ∧
    (packing 26 0 [] 0).ver.toNat = 26 ∧ (packing 27 0 [] 0).ver.toNat = 27 ∧
    (packing 27 0 [] 0).phase = .packing ∧ (15 : Nat) < 16 ∧ (2 ^ 14 - 1 : Nat) < 2 ^ 16 := by
  decide +kernel

theorem test_witness_AlphanumericSetHasTheSpecsValues :
    (packing 1 3 [] 0).phase = .packing ∧ alnumValue standard 0x61 = none ∧
    (exec (.paln2 0x41 0x61) (packing 1 3 [] 0)) =
      .next (afterFault .unsupportedCharacter 0x16006141 (packing 1 3 [] 0)) := by
  refine ⟨by decide +kernel, by decide, rfl⟩

theorem test_witness_PfinFillsTheStream :
    let s := packing 1 3 [] 69
    s.phase = .packing ∧ MemoriesCanonical s.toBlock ∧ WithinSizes s.toBlock ∧
    StreamWithinCapacity s.toBlock ∧
    3 = min 4 (8 * s.dcap.toNat - s.bitlen.toNat) ∧ 0 = (8 - (s.bitlen.toNat + 3) % 8) % 8 ∧
    72 = s.bitlen.toNat + 3 + 0 := by
  refine ⟨by decide +kernel, ⟨⟨rfl, rfl⟩, ⟨rfl, rfl⟩, ⟨rfl, rfl⟩, ⟨rfl, rfl⟩⟩,
    ⟨by decide +kernel, by decide +kernel, by decide +kernel, by decide +kernel⟩,
    ⟨fun _ => ⟨by decide +kernel, fun p _ => ?_⟩, ?_⟩,
    by decide +kernel, by decide +kernel, by decide +kernel⟩
  · simp [packing, bufferOf, writeCodewords, readStreamBit, readCodeword, Memory.read]
  · exact fun h => absurd h (by decide +kernel)

theorem test_witness_PseudoInstructionsPackTheirCharacters :
    (packing 1 1 [] 14).phase = .packing ∧ MemoriesCanonical (packing 1 1 [] 14).toBlock ∧
    WithinSizes (packing 1 1 [] 14).toBlock ∧
    (∀ c ∈ [0x30, 0x31, 0x32, 0x33, 0x39], 0x30 ≤ c ∧ c ≤ 0x39) ∧
    (∀ c ∈ [0x41, 0x20, 0x3A], alnumValue standard c ≠ none) ∧
    (packing 1 1 [] 14).bitlen.toNat + (bitsOf ((1, 4) :: (5, 10) ::
      digitFields [0x30, 0x31, 0x32, 0x33, 0x39])).length ≤ 8 * (packing 1 1 [] 14).dcap.toNat ∧
    (packing 1 1 [] 14).bitlen.toNat + (bitsOf ((2, 4) :: (3, 9) ::
      alnumFields [0x41, 0x20, 0x3A])).length ≤ 8 * (packing 1 1 [] 14).dcap.toNat ∧
    (packing 1 1 [] 14).bitlen.toNat + (bitsOf ((4, 4) :: (3, 8) ::
      byteFields [0, 0x80, 0xFF])).length ≤ 8 * (packing 1 1 [] 14).dcap.toNat :=
  ⟨by decide +kernel, ⟨⟨rfl, rfl⟩, ⟨rfl, rfl⟩, ⟨rfl, rfl⟩, ⟨rfl, rfl⟩⟩,
    ⟨by decide +kernel, by decide +kernel, by decide +kernel, by decide +kernel⟩,
    by decide +kernel, by decide +kernel, by decide +kernel, by decide +kernel, by decide +kernel⟩

/-- The same statement's clause about `MROW`: a matrix of side 4 and its last row. -/
theorem test_witness_MrowLoadsARow :
    let s := streamed 4 [(0, ⟨.reserved, true⟩)]
    s.phase = .streamed ∧ WithinSizes s.toBlock ∧ (3 : Nat) < s.n.toNat ∧
    "#.10".toList.length = s.n.toNat ∧
    (∀ c, c < s.n.toNat → (readModule s.mod 3 c).tag ≠ .reserved) ∧
    mrowFrom 3 0 "#.10".toList =
      some [.mset 3 0 2 true, .mset 3 1 2 false, .mset 3 2 1 true, .mset 3 3 1 false] :=
  ⟨rfl, ⟨by decide, by decide, by decide, by decide⟩, by decide, by decide, by decide, by decide⟩

theorem test_witness_field_statements :
    (0x01 : Byte) ≠ 0 ∧ (0xFF : Byte) ≠ 0 ∧ (254 : Nat) < 255 ∧ gmul standard 0x80 0x02 = 0x1D := by
  decide +kernel

theorem test_witness_FieldQueriesAnswer :
    State.reset.phase ≠ .fault ∧ (255 : Nat) < 256 ∧ (1 : Nat) ≤ 30 ∧ (31 : Nat) ≤ 31 := by decide

theorem test_witness_coder_lists :
    (29 : Nat) < 30 ∧ [0x12#8, 0x34#8].length = [0x00#8, 0xFF#8].length := by decide

theorem test_witness_BlocksPartitionTheData :
    (0 : Nat) < twoBlocks.nb1.toNat ∧ twoBlocks.nb1.toNat ≤ 1 ∧
    1 < twoBlocks.nb1.toNat + twoBlocks.nb2.toNat ∧ 1 < blockLength twoBlocks.toBlock 1 := by decide

theorem test_witness_EccCodesEveryBlock :
    let s := { twoBlocks with phase := .filled }
    s.phase = .filled ∧ MemoriesCanonical s.toBlock ∧ WithinSizes s.toBlock ∧
    SplitGeometry s.toBlock ∧ (1 : Nat) < s.nb1.toNat + s.nb2.toNat ∧
    (0 : Nat) < s.k.toNat ∧ twoBlocks.phase ≠ .filled ∧ twoBlocks.phase ≠ .fault :=
  ⟨rfl, ⟨by decide, by decide, by decide, by decide⟩, ⟨by decide, by decide, by decide, by decide⟩,
    ⟨.inr (by decide), by decide, by decide⟩,
    by decide, by decide, by decide, by decide⟩

theorem test_witness_IlvInterleavesRoundRobin :
    twoBlocks.phase = .coded ∧ MemoriesCanonical twoBlocks.toBlock ∧
    WithinSizes twoBlocks.toBlock ∧ SplitGeometry twoBlocks.toBlock ∧
    2 = twoBlocks.nb1.toNat + twoBlocks.nb2.toNat ∧ (0 : Nat) < twoBlocks.dc1.toNat ∧
    twoBlocks.nb1.toNat ≤ 1 ∧ State.reset.phase ≠ .fault ∧ State.reset.phase ≠ .coded :=
  ⟨rfl, ⟨by decide, by decide, by decide, by decide⟩, ⟨by decide, by decide, by decide, by decide⟩,
    ⟨.inr (by decide), by decide, by decide⟩,
    by decide, by decide, by decide, by decide, by decide⟩

theorem test_witness_MsetWritesOneModule :
    let s := streamed 21 [(5, ⟨.reserved, true⟩)]
    s.phase = .streamed ∧ (20 : Nat) < s.n.toNat ∧ s.n.toNat ≤ 21 ∧
    (readModule s.mod 0 5).tag = .reserved ∧ (readModule s.mod 20 20).tag ≠ .reserved ∧
    (readModule (nextOf (exec (.mset 20 20 1 true) s)).mod 0 0).tag = .unset ∧ WithinSizes s.toBlock :=
  ⟨rfl, by decide, by decide, by decide, by decide, by decide +kernel,
    ⟨by decide, by decide, by decide, by decide⟩⟩

theorem test_witness_CandidatesFlipOnlyDataModules :
    (177 : Nat) ≤ 256 ∧ (176 : Nat) < 177 ∧
    (readModule [(0, ⟨.data, false⟩)] 0 0).tag = .data ∧ MASKF 7 0 0 = true ∧ MASKF 7 0 1 = false := by
  decide

theorem test_witness_StructuralModulesKeepTheirColour :
    let s := streamed 21 [(5, ⟨.reserved, true⟩)]
    (0 : Nat) < s.n.toNat ∧ (5 : Nat) < s.n.toNat ∧ (readModule s.mod 0 5).tag = .reserved ∧
    s.phase = .streamed := by decide

/-- A matrix of one colour is square. -/
theorem test_square_of_one_colour (n : Nat) (v : Bool) :
    IsSquare n (List.replicate n (List.replicate n v)) :=
  ⟨List.length_replicate, fun _ h => (List.eq_of_mem_replicate h).symm ▸ List.length_replicate⟩

/-- A square matrix of side 11 and one of side 177, and one with no rows. -/
theorem test_witness_square_matrices :
    IsSquare 11 (List.replicate 11 (List.replicate 11 true)) ∧
    IsSquare 177 (List.replicate 177 (List.replicate 177 false)) ∧ IsSquare 0 [] ∧
    121 = ((List.range 11).map fun r => (List.range 11).countP fun c =>
      cell (List.replicate 11 (List.replicate 11 true)) r c).sum :=
  ⟨test_square_of_one_colour 11 true, test_square_of_one_colour 177 false,
    test_square_of_one_colour 0 true, by decide +kernel⟩

theorem test_witness_ScoreScoresEveryCandidate :
    let s := streamed 2 (uniform 2 ⟨.data, false⟩)
    s.phase = .streamed ∧ s.n.toNat ≤ 177 ∧
    (∀ r, r < s.n.toNat → ∀ c, c < s.n.toNat → (readModule s.mod r c).tag ≠ .unset) ∧
    (readModule (streamed 2 []).mod 1 1).tag = .unset ∧ (1 : Nat) < (streamed 2 []).n.toNat ∧
    State.reset.phase ≠ .fault ∧ State.reset.phase ≠ .streamed := by decide +kernel

theorem test_witness_ScoreDependsOnlyOnTheMatrix :
    let s := streamed 2 (uniform 2 ⟨.data, false⟩)
    let u := { s with dbuf := [(0, 1)], mod := s.mod ++ [(600, ⟨.data, true⟩)] }
    s.phase = .streamed ∧ u.phase = .streamed ∧ s.n = u.n ∧ s.mod ≠ u.mod ∧
    (∀ r, r < s.n.toNat → ∀ c, c < s.n.toNat → readModule s.mod r c = readModule u.mod r c) ∧
    (nextOf (exec .score s)).phase = .masked ∧ (nextOf (exec .score u)).phase = .masked := by
  decide +kernel

theorem test_witness_RdrReadsTheRegisterMap :
    faulted.phase = .fault ∧ State.reset.phase ≠ .fault ∧ (0xFF : Nat) < 256 ∧
    (0x18 : Nat) ≤ 0x1F ∧ (0x40 : Nat) ≤ 0xFF := by decide

theorem test_witness_buffer_and_module_reads :
    let s := inPhase .masked 1 1 [] [] []
    s.phase = .masked ∧ (15 : Nat) < s.dcap.toNat ∧ s.dcap.toNat ≤ 16 ∧
    9 < s.tot.toNat - s.dcap.toNat ∧ s.tot.toNat - s.dcap.toNat ≤ 10 ∧ 25 < s.tot.toNat ∧
    s.tot.toNat ≤ 26 ∧ 20 < s.n.toNat ∧ s.n.toNat ≤ 21 ∧ (4095 : Nat) < 2 ^ 12 ∧
    (configured 1 1).phase = .packing := by decide +kernel

theorem test_witness_RdmReadsTheSelectedModule : UnsetIsLight (streamed 21 [(5, ⟨.data, true⟩)]).toBlock := by
  intro a h
  by_cases e : 5 = a
  · subst e; simp [streamed, Memory.read] at h
  · simp [streamed, Memory.read, e, Module.blank]

theorem test_witness_ReadsChangeNothing :
    IsRead (.rdr 0) ∧ exec (.rdr 0) faulted = .next (afterResponse 0x57 faulted) ∧
    (afterResponse 0x57 faulted).response = some ⟨true, 0x57⟩ ∧ IsRead (.gflog 0) ∧
    (nextOf (exec (.gflog 0) State.reset)).response = some ⟨false, 0⟩ ∧ State.reset.phase ≠ .fault :=
  ⟨trivial, rfl, rfl, trivial, by decide +kernel, by decide⟩

theorem test_witness_NoResponseShowsUnproducedContents :
    (configured 1 1).phase = .packing ∧ State.reset.phase ≠ .streamed ∧ State.reset.phase ≠ .masked ∧
    answer (exec (.rdr 0x02) { configured 1 1 with dbuf := [(0, 1)] }) = some (true, 21) ∧
    answer (exec (.rdr 0x02) (configured 1 1)) = some (true, 21) := by decide +kernel

/-- The same statement's clauses about `ECC` and `ILV`: contents left in `EBUF` and `OBUF` before them. -/
theorem test_witness_earlier_contents :
    let s := { twoBlocks with phase := .filled }
    s.phase = .filled ∧ WithinSizes s.toBlock ∧ MemoriesCanonical s.toBlock ∧
    MemoriesCanonical { s.toBlock with ebuf := [(0, 0x55), (2429, 0x66)] } ∧
    (1 : Nat) < (s.nb1.toNat + s.nb2.toNat) * s.k.toNat ∧
    twoBlocks.phase = .coded ∧ SplitGeometry twoBlocks.toBlock ∧
    MemoriesCanonical { twoBlocks.toBlock with obuf := [(0, 0x55), (3705, 0x66)] } ∧
    (4 : Nat) < twoBlocks.tot.toNat :=
  ⟨rfl, ⟨by decide, by decide, by decide, by decide⟩, ⟨by decide, by decide, by decide, by decide⟩,
    ⟨by decide, by decide, by decide, by decide⟩, by decide, rfl, ⟨.inr (by decide), by decide, by decide⟩,
    ⟨by decide, by decide, by decide, by decide⟩, by decide⟩

end Sys2Proof.Machine.Tests
end

section
/-! PROOFS. What a command that completes can have made of the block, and from it how the phase moves
(spec 10_state.md R22). -/

namespace Sys2Proof.Machine

/-! ### What a command that completes makes of the block -/

/-- `Completion p s i t`: `t` is what a command `i` whose operand and state checks all pass can make of the
block `s`. One constructor per operation that writes the block, with the checks that stand before it; the phase
check is `legalIn` (spec 30_encoding.md R90). -/
inductive Completion (p : Params) (s : Block) : Instr → Block → Prop where
  | nop : Completion p s .nop s
  | read {i : Instr} (hread : IsRead i) : Completion p s i s
  | reset : Completion p s .rst Block.reset
  | configure {ver : Nat} (ecl : Nat) (hmin : Config.VERMIN ≤ ver) (hmax : ver ≤ Config.VERMAX) :
      Completion p s (.cfg ver ecl) (configure p ver ecl s)
  | append {i : Instr} {x w : Nat} (hpack : WritesStream i) (hne : i ≠ .pfin) (hfit : fits s w = true) :
      Completion p s i (appendField x w s)
  | header {mode count w : Nat} (hcount : count < 2 ^ w) (hfit : fits s (4 + w) = true) :
      Completion p s (.phdr mode count) (appendField count w (appendField mode 4 s))
  | fill : Completion p s .pfin (fillStream s)
  | code : Completion p s .ecc (codeBlocks p s)
  | interleave : Completion p s .ilv (interleaveStream s)
  | load {row col tag : Nat} {m : Tag} (dark : Bool) (hrow : row < s.n.toNat) (hcol : col < s.n.toNat)
      (htag : commandedTag tag = some m) (hfree : (readModule s.mod row col).tag ≠ .reserved) :
      Completion p s (.mset row col tag dark) (loadModule row col ⟨m, dark⟩ s)
  | score (hset : hasUnset s.n.toNat s.mod = false) : Completion p s .score (scoreMatrix p s)

section

variable {p : Params} {s t : Block} {v : Word} {i : Instr}

/-- A field appended by a packing command. -/
theorem completion_of_appendBits {x w : Nat} (hpack : WritesStream i) (hne : i ≠ .pfin)
    (h : appendBits x w s = .ok (t, v)) : Completion p s i t := by
  rcases appendBits_cases x w s with ⟨hfit, e⟩ | ⟨_, e⟩
  · cases e.symm.trans h
    exact .append hpack hne hfit
  · cases e.symm.trans h

/-- A codeword returned by a read-out command. -/
theorem completion_of_readEntry {m : Buffer} {valid idx : Nat} (hread : IsRead i)
    (h : readEntry m valid idx s = .ok (t, v)) : Completion p s i t := by
  unfold readEntry at h
  split at h <;> cases h
  exact .read hread

/-- Everything a command whose checks pass can make of the block. -/
theorem completion_of_bodyOf (h : bodyOf p i s = .ok (t, v)) : Completion p s i t := by
  cases i with
  | nop => cases h; exact .nop
  | rst => cases h; exact .reset
  | cfg ver ecl =>
    simp only [bodyOf, cfgBody] at h
    split at h <;> cases h
    exact .configure ecl (by omega) (by omega)
  | putb width value =>
    simp only [bodyOf, putbBody] at h
    split at h
    · cases h
    split at h
    · cases h
    exact completion_of_appendBits trivial nofun h
  | phdr mode count =>
    simp only [bodyOf, phdrBody] at h
    split at h
    · cases h
    split at h
    · cases h
    split at h <;> cases h
    exact .header (by omega) ‹_›
  | pnum1 | pnum2 | pnum3 | paln1 | paln2 =>
    simp only [bodyOf, pnum1Body, pnum2Body, pnum3Body, paln1Body, paln2Body] at h
    split at h
    · exact completion_of_appendBits trivial nofun h
    · cases h
  | pbyte => exact completion_of_appendBits trivial nofun h
  | pfin => cases h; exact .fill
  | ecc => cases h; exact .code
  | ilv => cases h; exact .interleave
  | mset row col tag dark =>
    simp only [bodyOf, msetBody] at h
    split at h
    · cases h
    split at h
    · cases h
    split at h <;> cases h
    exact .load dark (by omega) (by omega) ‹_› ‹_›
  | score =>
    simp only [bodyOf, scoreBody] at h
    split at h <;> cases h
    exact .score (Bool.eq_false_iff.mpr ‹_›)
  | rdd | rde | rdo => exact completion_of_readEntry trivial h
  | gfmul | gfexp => cases h; exact .read trivial
  | rdr | gfdiv | gflog =>
    simp only [bodyOf, rdrBody, gfdivBody, gflogBody] at h
    split at h <;> cases h
    exact .read trivial
  | rdm | genc =>
    simp only [bodyOf, rdmBody, gencBody] at h
    split at h
    · cases h
    split at h <;> cases h
    exact .read trivial

end

/-! ### How the phase moves -/

/-- The value 6 is never held (R22). -/
theorem phase_code_ne_six (q : Phase) : q.code ≠ 6 := by
  cases q <;> decide

/-- The moves of the phase R22 lists for a command that completes: none, the return to `UNBUILT` by `RST`, and
each step forward by the command named for it. -/
inductive PhaseMove : Instr → Phase → Phase → Prop where
  | stay {i : Instr} {q : Phase} : PhaseMove i q q
  | reset {q : Phase} : PhaseMove .rst q .unbuilt
  | configure {ver ecl : Nat} : PhaseMove (.cfg ver ecl) .unbuilt .packing
  | fill : PhaseMove .pfin .packing .filled
  | code : PhaseMove .ecc .filled .coded
  | interleave : PhaseMove .ilv .coded .streamed
  | score : PhaseMove .score .streamed .masked

/-- A command that completes moves the phase as R22 lists: the phase check ties each step to the phase before
it. -/
theorem phaseMove_of_completion {p : Params} {s t : Block} {i : Instr} (hlegal : legalIn i s.phase = true)
    (h : Completion p s i t) : PhaseMove i s.phase t.phase := by
  cases h with
  | nop | read | append | header | load => exact .stay
  | reset => exact .reset
  | configure ecl => rw [eq_of_beq hlegal]; exact .configure
  | fill => rw [eq_of_beq hlegal]; exact .fill
  | code => rw [eq_of_beq hlegal]; exact .code
  | interleave => rw [eq_of_beq hlegal]; exact .interleave
  | score => rw [eq_of_beq hlegal]; exact .score

/-- After a fault condition the block is in `FAULT`, and stays as it was there or has recorded a code
(60_exceptions.md R226, R227). -/
theorem fail_phase (c : FaultCode) (cw : Word) (s : Block) :
    (fail c cw s).1.phase = s.phase ∨ ((fail c cw s).1.phase = .fault ∧ (fail c cw s).1.err ≠ none) := by
  by_cases hf : s.phase = .fault
  · rw [fail_of_fault hf]
    exact .inl rfl
  · rw [fail_of_ne_fault hf]
    exact .inr ⟨rfl, nofun⟩

/-- Every command moves the phase as R22 lists, or enters `FAULT` by a fault. -/
theorem exec_phaseMove {i : Instr} {s t : State} (h : exec i s = .next t) :
    PhaseMove i s.phase t.phase ∨ (t.phase = .fault ∧ t.err ≠ none) := by
  have of_fail (c : FaultCode) (ht : t = s.give (fail c (encode i) s.toBlock)) :
      PhaseMove i s.phase t.phase ∨ (t.phase = .fault ∧ t.err ≠ none) := by
    subst ht
    refine (fail_phase c (encode i) s.toBlock).imp_left fun hstay => ?_
    rw [give_toBlock, hstay]
    exact .stay
  rcases exec_cases h with ⟨u, v, hlegal, hbody, rfl⟩ | ⟨c, _, _, ht⟩ | ⟨_, ht⟩
  · exact .inl (phaseMove_of_completion hlegal (completion_of_bodyOf hbody))
  · exact of_fail c ht
  · exact of_fail .badPhase ht

/-- Settles O16: the phase check ties each step forward to its own command, and a fault condition keeps the
phase in `FAULT` and records a code elsewhere. -/
theorem phaseMovesOnlyAsListed : Obligations.PhaseMovesOnlyAsListed := by
  refine ⟨⟨rfl, rfl, rfl, rfl, rfl, rfl, rfl, phase_code_ne_six⟩, fun s t rest hi h => ?_, fun i s t h => ?_⟩
  · rw [step_resetPulse hi] at h
    cases h
    rfl
  · rcases exec_phaseMove h with hmove | hfault
    · generalize s.phase = q, t.phase = q' at hmove
      cases hmove <;> simp
    · exact .inr (.inl hfault)

end Sys2Proof.Machine
end

section
/-! PROOFS. What a read-out or query command does (spec 20_memory.md R66): it keeps the block when it completes,
and so gives the same response again. -/

namespace Sys2Proof.Machine

/-- No command that fails a check gives a response with `ok` set (60_exceptions.md R226, R227). -/
@[simp] theorem fail_response (c : FaultCode) (cw : Word) (s : Block) : (fail c cw s).2 = ⟨false, 0⟩ := by
  by_cases hf : s.phase = .fault
  · rw [fail_of_fault hf, refuse_response]
  · rw [fail_of_ne_fault hf, raiseFault_response]

/-- No read writes the stream (20_memory.md R60, R66). -/
theorem not_isRead_of_writesStream {i : Instr} (h : WritesStream i) : ¬IsRead i := by
  cases i <;> simp_all [WritesStream, IsRead]

/-- Of all a command can make of the block, a read makes only the block it found. -/
theorem block_eq_of_read_completion {p : Params} {s t : Block} {i : Instr} (hread : IsRead i)
    (h : Completion p s i t) : t = s := by
  cases h with
  | read => rfl
  | append hpack => exact absurd hread (not_isRead_of_writesStream hpack)
  | nop | reset | configure | header | fill | code | interleave | load | score => exact hread.elim

/-- A command whose checks pass and whose body keeps the block changes the response alone. -/
theorem exec_eq_afterResponse {i : Instr} {s : State} {v : Word} (hlegal : legalIn i s.phase = true)
    (hbody : bodyOf standard i s.toBlock = .ok (s.toBlock, v)) : exec i s = .next (afterResponse v s) := by
  rw [exec_eq, perform_completes hlegal hbody, give_respond]

/-- Everything a read can do: it answers a value, and the same again after that, or a check fails. -/
theorem exec_read_cases {i : Instr} {s t : State} (hread : IsRead i) (h : exec i s = .next t) :
    (∃ v, t = afterResponse v s ∧ exec i t = .next t) ∨ ∃ c, t = s.give (fail c (encode i) s.toBlock) := by
  rcases exec_cases h with ⟨u, v, hlegal, hbody, rfl⟩ | ⟨c, _, _, ht⟩ | ⟨_, ht⟩
  · obtain rfl := block_eq_of_read_completion hread (completion_of_bodyOf hbody)
    exact .inl ⟨v, rfl, exec_eq_afterResponse (s := afterResponse v s) hlegal hbody⟩
  · exact .inr ⟨c, ht⟩
  · exact .inr ⟨.badPhase, ht⟩

/-- Settles O59: a read whose checks pass keeps the block, on which alone its checks and its value depend; a
check that fails outside `FAULT` is the fault entry. -/
theorem readsChangeNothing : Obligations.ReadsChangeNothing := by
  intro i s t v hread h
  rcases exec_read_cases hread h with ⟨w, rfl, hagain⟩ | ⟨c, rfl⟩
  · refine ⟨fun hr => ?_, fun hr => by cases hr⟩
    cases hr
    exact ⟨rfl, hagain⟩
  · refine ⟨fun hr => ?_, fun _ hphase => ⟨c, ?_⟩⟩
    · rw [give_response, fail_response] at hr
      cases hr
    · rw [fail_of_ne_fault hphase, give_raiseFault]

end Sys2Proof.Machine
end

section
/-! PROOFS. The decoder as the opcode map has it (spec 30_encoding.md R85, R87, R88): the row of a command, the
words that satisfy a row, the words that are illegal, and the round trips between commands and their words. -/

namespace Sys2Proof

/-! ### The row of a command -/

/-- The bounds `(hi, lo)` of the reserved bits `cw[hi:lo]` of a command's format (R83); `PNUM3` reserves none,
which `(23, 24)` says. -/
def Instr.reserved : Instr → Nat × Nat
  | .nop | .rst | .pfin | .ecc | .ilv | .score => (23, 0)
  | .cfg .. | .pnum1 _ | .paln1 _ | .pbyte _ | .rdr _ | .gfexp _ | .gflog _ => (23, 8)
  | .putb .. => (23, 21)
  | .phdr .. => (23, 20)
  | .pnum2 .. | .paln2 .. | .gfmul .. | .gfdiv .. | .genc .. => (23, 16)
  | .pnum3 .. => (23, 24)
  | .mset .. => (7, 3)
  | .rdd _ | .rde _ | .rdo _ => (23, 12)
  | .rdm .. => (7, 4)

/-- The word with a 1 at exactly the bits `hi:lo`. -/
def bitRange (hi lo : Nat) : Word := BitVec.ofNat 32 ((2 ^ (hi + 1 - lo) - 1) * 2 ^ lo)

/-- The row of the opcode map that the format of a command gives (R85). -/
def Instr.row (i : Instr) : OpcodeRow where
  mnemonic := i.mnemonic
  mask := bitRange 31 24 ||| bitRange i.reserved.1 i.reserved.2
  fixed := BitVec.ofNat 32 (i.opcode * 2 ^ 24)

/-- Every command's row is in the opcode map (R86). -/
theorem Instr.row_mem (i : Instr) : i.row ∈ opcodeTable := by
  cases i <;> simp only [Instr.row, Instr.mnemonic, Instr.opcode, Instr.reserved] <;> decide

/-- Every row of the opcode map is the row of a command (R86). -/
theorem exists_row_eq : ∀ row ∈ opcodeTable, ∃ i : Instr, i.row = row := by
  simp only [opcodeTable, List.forall_mem_cons]
  exact ⟨⟨.nop, rfl⟩, ⟨.rst, rfl⟩, ⟨.cfg 0 0, rfl⟩, ⟨.putb 0 0, rfl⟩, ⟨.phdr 0 0, rfl⟩, ⟨.pnum1 0, rfl⟩,
    ⟨.pnum2 0 0, rfl⟩, ⟨.pnum3 0 0 0, rfl⟩, ⟨.paln1 0, rfl⟩, ⟨.paln2 0 0, rfl⟩, ⟨.pbyte 0, rfl⟩, ⟨.pfin, rfl⟩,
    ⟨.ecc, rfl⟩, ⟨.ilv, rfl⟩, ⟨.mset 0 0 0 false, rfl⟩, ⟨.score, rfl⟩, ⟨.rdr 0, rfl⟩, ⟨.rdd 0, rfl⟩,
    ⟨.rde 0, rfl⟩, ⟨.rdo 0, rfl⟩, ⟨.rdm 0 0 0, rfl⟩, ⟨.gfmul 0 0, rfl⟩, ⟨.gfdiv 0 0, rfl⟩, ⟨.gfexp 0, rfl⟩,
    ⟨.gflog 0, rfl⟩, ⟨.genc 0 0, rfl⟩, nofun⟩

theorem row_opcode_bits : ∀ row ∈ opcodeTable,
    row.mask &&& 0xFF000000 = 0xFF000000 ∧ row.fixed &&& 0x00FFFFFF = 0 := by decide

theorem row_fixed_and_mask : ∀ row ∈ opcodeTable, row.fixed &&& row.mask = row.fixed := by decide

theorem row_eq_of_fixed_eq :
    ∀ row ∈ opcodeTable, ∀ row' ∈ opcodeTable, row.fixed = row'.fixed → row = row' := by decide

theorem row_eq_of_mnemonic_eq :
    ∀ row ∈ opcodeTable, ∀ row' ∈ opcodeTable, row.mnemonic = row'.mnemonic → row = row' := by decide

/-- The opcode of a command determines its row (R86). -/
theorem Instr.row_eq_of_opcode_eq {i j : Instr} (h : i.opcode = j.opcode) : i.row = j.row :=
  row_eq_of_fixed_eq _ i.row_mem _ j.row_mem (by rw [Instr.row, Instr.row, h])

/-- The match of a command's row is 0 below the opcode. -/
theorem Instr.getLsbD_row_fixed (i : Instr) {b : Nat} (hb : b < 24) : i.row.fixed.getLsbD b = false := by
  rw [Instr.row, BitVec.getLsbD_ofNat, Nat.testBit_mul_two_pow, decide_eq_false (Nat.not_le.mpr hb)]
  simp

/-! ### The words that satisfy a row -/

/-- A bit of a field is the word's bit at its place. -/
theorem testBit_field (cw : Word) (hi lo j : Nat) :
    (field cw hi lo).testBit j = (decide (j < hi + 1 - lo) && cw.getLsbD (lo + j)) := by
  simp [field, Nat.testBit_mod_two_pow, Nat.testBit_div_two_pow, Nat.add_comm, BitVec.getLsbD]

/-- Its bits are 1 from `lo` up to `hi`. -/
theorem getLsbD_bitRange {hi : Nat} (hhi : hi < 32) (lo b : Nat) :
    (bitRange hi lo).getLsbD b = (decide (lo ≤ b) && decide (b - lo < hi + 1 - lo)) := by
  rw [bitRange, BitVec.getLsbD_ofNat, Nat.testBit_mul_two_pow, Nat.testBit_two_pow_sub_one, ← Bool.and_assoc]
  grind

/-- Bits `hi:lo` of a word, kept in place, are the field times its place value. -/
theorem toNat_and_bitRange {hi : Nat} (hhi : hi < 32) (cw : Word) (lo : Nat) :
    (cw &&& bitRange hi lo).toNat = field cw hi lo * 2 ^ lo := by
  refine Nat.eq_of_testBit_eq fun b => ?_
  rw [BitVec.testBit_toNat, BitVec.getLsbD_and, getLsbD_bitRange hhi, Nat.testBit_mul_two_pow, testBit_field]
  grind

theorem Instr.reserved_hi_lt (i : Instr) : i.reserved.1 < 32 := by
  cases i <;> simp [Instr.reserved]

/-- The opcode bits of a word that has the opcode of a row. -/
theorem field_opcode_of_and {cw : Word} {i : Instr} (h : cw &&& 0xFF000000 = i.row.fixed) :
    field cw 31 24 = i.opcode := by
  have hnum : (cw &&& bitRange 31 24).toNat = i.row.fixed.toNat := congrArg BitVec.toNat h
  have hop := i.opcode_lt
  rw [toNat_and_bitRange (by decide), Instr.row, BitVec.toNat_ofNat] at hnum
  omega

/-- The reserved bits of a word, kept in place, lie below its opcode. -/
theorem toNat_and_reserved_lt (cw : Word) (i : Instr) :
    (cw &&& bitRange i.reserved.1 i.reserved.2).toNat < 2 ^ 24 := by
  have hmask : (bitRange i.reserved.1 i.reserved.2).toNat < 2 ^ 24 := by
    cases i <;> simp only [Instr.reserved] <;> decide
  exact Nat.and_lt_two_pow _ hmask

/-- A word satisfies the row of a command when it has the command's opcode and 0 in the reserved bits of its
format (R82, R85). -/
theorem and_row_mask_iff (cw : Word) (i : Instr) :
    cw &&& i.row.mask = i.row.fixed ↔
      field cw 31 24 = i.opcode ∧ field cw i.reserved.1 i.reserved.2 = 0 := by
  have hop := i.opcode_lt
  have hlow := toNat_and_reserved_lt cw i
  have hzero : (cw &&& bitRange i.reserved.1 i.reserved.2).toNat = 0 ↔
      field cw i.reserved.1 i.reserved.2 = 0 := by
    rw [toNat_and_bitRange i.reserved_hi_lt, Nat.mul_eq_zero,
      or_iff_left (Nat.two_pow_pos _).ne']
  rw [← BitVec.toNat_inj, Instr.row, BitVec.and_or_distrib_left, BitVec.toNat_or,
    toNat_and_bitRange (by decide), Nat.mul_comm, ← Nat.two_pow_add_eq_or_of_lt hlow, BitVec.toNat_ofNat, ← hzero]
  omega

/-! ### The decoder, row by row -/

/-- An arm of the decoder that checks the reserved bits of the format of the command it gives. -/
theorem exists_of_arm {cw : Word} {hi lo : Nat} {i : Instr} (hop : field cw 31 24 = i.opcode)
    (hres : i.reserved = (hi, lo)) : ∃ j : Instr, field cw 31 24 = j.opcode ∧
      whenReservedZero cw hi lo i = whenReservedZero cw j.reserved.1 j.reserved.2 j :=
  ⟨i, hop, by rw [hres]⟩

/-- The one format with no reserved bit has nothing to check. -/
theorem whenReservedZero_empty (cw : Word) (i : Instr) : whenReservedZero cw 23 24 i = .ok i :=
  if_pos (Nat.mod_one _)

/-- A word has the opcode of some command, and is that command or has a reserved bit set; or its opcode is in no
row (R85, R87, R88). -/
theorem decode_cases (cw : Word) :
    (∃ i : Instr, field cw 31 24 = i.opcode ∧
      decode cw = whenReservedZero cw i.reserved.1 i.reserved.2 i) ∨
    ((∀ i : Instr, field cw 31 24 ≠ i.opcode) ∧ decode cw = .error .unknownOpcode) := by
  unfold decode
  split
  case h_8 hop => exact .inl ⟨.pnum3 _ _ _, hop, (whenReservedZero_empty cw _).symm⟩
  case h_27 => exact .inr ⟨fun i => by cases i <;> assumption, rfl⟩
  all_goals exact .inl (exists_of_arm ‹_› rfl)

/-! ### Commands and their words -/

/-- A command whose reserved bits are checked comes out as it went in. -/
theorem whenReservedZero_eq_ok_iff {cw : Word} {hi lo : Nat} {i j : Instr} :
    whenReservedZero cw hi lo i = .ok j ↔ field cw hi lo = 0 ∧ i = j := by
  unfold whenReservedZero
  split <;> simp [*]

/-- A word is that of the command with its opcode and its operand bits. -/
theorem encode_eq_of_fields {cw : Word} {i : Instr} (hwf : i.wf = true) (hop : field cw 31 24 = i.opcode)
    (hlow : cw.toNat % 2 ^ 24 = i.operands) : encode i = cw ∧ i.wf = true := by
  refine ⟨BitVec.eq_of_toNat_eq ?_, hwf⟩
  have := cw.isLt
  rw [encode_toNat hwf, ← hop, ← hlow, field_eq]
  omega

/-- A field of one bit, kept as a Boolean. -/
theorem toNat_decide_field_eq_one (cw : Word) (b : Nat) :
    (decide (field cw b b = 1)).toNat = field cw b b := by
  have h := field_lt cw b b
  rw [Nat.add_sub_cancel_left] at h
  interval_cases field cw b b <;> rfl

/-- A command determines its word. The arm of `PNUM3` checks no bit, which is the check of an empty range; the
last arm gives no command. -/
theorem encode_of_decode {cw : Word} {i : Instr} (h : decode cw = .ok i) : encode i = cw ∧ i.wf = true := by
  unfold decode at h
  split at h
  case' h_8 => rw [← whenReservedZero_empty cw] at h
  case h_27 => cases h
  all_goals
    obtain ⟨hzero, rfl⟩ := whenReservedZero_eq_ok_iff.mp h
    refine encode_eq_of_fields ?_ ‹_› ?_
    · simp [Instr.wf, field, Nat.mod_lt]
    · simp only [Instr.operands, toNat_decide_field_eq_one]
      simp only [field] at hzero ⊢
      omega

/-- The word of a well-formed command has the command's opcode. -/
theorem field_opcode_encode {i : Instr} (h : i.wf = true) : field (encode i) 31 24 = i.opcode := by
  have hoperands := Instr.operands_lt h
  have hopcode := i.opcode_lt
  rw [field, encode_toNat h]
  omega

/-- The operands of a well-formed command leave the reserved bits of its format 0 (R82). -/
theorem field_reserved_encode {i : Instr} (h : i.wf = true) :
    field (encode i) i.reserved.1 i.reserved.2 = 0 := by
  rw [field, encode_toNat h]
  cases i <;> simp only [Instr.wf, Bool.and_eq_true, decide_eq_true_eq] at h <;>
    simp only [Instr.opcode, Instr.operands, Instr.reserved]
  case mset dark =>
    have := dark.toNat_lt
    omega
  all_goals omega

/-- The word of a well-formed command satisfies the command's row. -/
theorem encode_and_row_mask {i : Instr} (h : i.wf = true) : encode i &&& i.row.mask = i.row.fixed :=
  (and_row_mask_iff _ i).mpr ⟨field_opcode_encode h, field_reserved_encode h⟩

/-! ### What the decoder makes of a word, by its row -/

/-- The command of a word has a row that the word satisfies. -/
theorem and_row_mask_of_decode {cw : Word} {i : Instr} (h : decode cw = .ok i) :
    cw &&& i.row.mask = i.row.fixed := by
  obtain ⟨rfl, hwf⟩ := encode_of_decode h
  exact encode_and_row_mask hwf

/-- A word with the opcode of a row is a command of that row if it satisfies the row, and has a reserved bit set
if not (R85, R87). -/
theorem decode_of_opcode {cw : Word} {i : Instr} (hop : field cw 31 24 = i.opcode) :
    ∃ j : Instr, j.row = i.row ∧
      decode cw = if cw &&& i.row.mask = i.row.fixed then .ok j else .error .reservedBit := by
  rcases decode_cases cw with ⟨j, hj, hd⟩ | ⟨hnone, _⟩
  · have hrow := Instr.row_eq_of_opcode_eq (hj.symm.trans hop)
    refine ⟨j, hrow, ?_⟩
    rw [hd, ← hrow]
    exact if_congr ((and_row_mask_iff cw j).trans (and_iff_right hj)).symm rfl rfl
  · exact absurd hop (hnone i)

/-- A word that satisfies a row is a command of that row. -/
theorem decode_of_and_mask {cw : Word} {row : OpcodeRow} (hmem : row ∈ opcodeTable)
    (h : cw &&& row.mask = row.fixed) : ∃ i : Instr, decode cw = .ok i ∧ i.row = row := by
  obtain ⟨i, rfl⟩ := exists_row_eq row hmem
  obtain ⟨j, hrow, hd⟩ := decode_of_opcode ((and_row_mask_iff cw i).mp h).1
  exact ⟨j, hd.trans (if_pos h), hrow⟩

/-- A word with the opcode of a row that it does not satisfy has a reserved bit set. -/
theorem decode_of_and_mask_ne {cw : Word} {row : OpcodeRow} (hmem : row ∈ opcodeTable)
    (hop : cw &&& 0xFF000000 = row.fixed) (h : cw &&& row.mask ≠ row.fixed) :
    decode cw = .error .reservedBit := by
  obtain ⟨i, rfl⟩ := exists_row_eq row hmem
  obtain ⟨j, _, hd⟩ := decode_of_opcode (field_opcode_of_and hop)
  exact hd.trans (if_neg h)

/-- The bits below the opcode that a row's mask leaves free are those that some operand of its commands uses. -/
theorem row_mask_getLsbD_iff {i : Instr} {b : Nat} (hb : b < 24) : i.row.mask.getLsbD b = false ↔
    ∃ j : Instr, j.wf = true ∧ j.mnemonic = i.mnemonic ∧ (encode j).getLsbD b = true := by
  constructor
  · intro hfree
    have hsat : (i.row.fixed ||| BitVec.twoPow 32 b) &&& i.row.mask = i.row.fixed := by
      rw [BitVec.and_comm, BitVec.and_or_distrib_left, BitVec.and_twoPow, hfree, BitVec.and_comm,
        row_fixed_and_mask _ i.row_mem]
      simp
    obtain ⟨j, hd, hrow⟩ := decode_of_and_mask i.row_mem hsat
    obtain ⟨hword, hwf⟩ := encode_of_decode hd
    exact ⟨j, hwf, congrArg OpcodeRow.mnemonic hrow, by simp [hword, Nat.lt_trans hb]⟩
  · rintro ⟨j, hwf, hname, hbit⟩
    rw [← row_eq_of_mnemonic_eq _ j.row_mem _ i.row_mem hname]
    have h := congrArg (BitVec.getLsbD · b) (encode_and_row_mask hwf)
    simpa [hbit, j.getLsbD_row_fixed hb] using h

/-- Settles O3: the table holds exactly the rows of the commands, and a word satisfies a command's row when it
has its opcode and 0 in its reserved bits, which is what the decoder checks. -/
theorem decoderFollowsTheOpcodeTable : Obligations.DecoderFollowsTheOpcodeTable := by
  refine ⟨fun cw i h => ⟨i.row, i.row_mem, and_row_mask_of_decode h, rfl⟩, fun cw row hmem h => ?_,
    fun cw hnone => ?_, fun cw row row' hmem hmem' h h' => ?_, row_opcode_bits, fun row b hmem hb => ?_⟩
  · obtain ⟨i, hd, rfl⟩ := decode_of_and_mask hmem h
    exact ⟨i, hd, rfl⟩
  · cases hd : decode cw with
    | error e => exact ⟨e, rfl⟩
    | ok i => exact absurd (and_row_mask_of_decode hd) (hnone _ i.row_mem)
  · obtain ⟨i, hd, rfl⟩ := decode_of_and_mask hmem h
    obtain ⟨j, hd', rfl⟩ := decode_of_and_mask hmem' h'
    cases hd.symm.trans hd'
    rfl
  · obtain ⟨i, rfl⟩ := exists_row_eq row hmem
    exact row_mask_getLsbD_iff hb

end Sys2Proof
end

section
/-! PROOFS. What a step does with a word that is no command (spec 30_encoding.md R87, R88). -/

namespace Sys2Proof.Machine

/-- A word that is no command takes the fault `IllegalCommand`, outside `FAULT`. -/
theorem step_illegal {s : State} {cw : Word} {rest : List HostInput} {e : DecodeError}
    (hi : s.inputs = .command cw :: rest) (hphase : s.phase ≠ .fault) (hd : decode cw = .error e) :
    step s = .next (afterFault .illegalCommand cw { s with inputs := rest }) := by
  rw [step_command hi, hd]
  simp only [illegalWord, fail_of_ne_fault hphase]
  rfl

/-- Settles O6: a word that does not satisfy the row of its opcode has a reserved bit set, no command has an
opcode of the ranges left free, and the word of `NOP` is 0. -/
theorem illegalWordsFault : Obligations.IllegalWordsFault := by
  refine ⟨fun s cw rest row hi hphase hmem hop hmask => ?_, fun s cw rest hi hphase hrange => ?_, fun cw h => ?_⟩
  · exact step_illegal hi hphase (decode_of_and_mask_ne hmem hop hmask)
  · rcases decode_cases cw with ⟨i, hop, _⟩ | ⟨_, hd⟩
    · rw [hop] at hrange
      cases i <;> simp [Instr.opcode] at hrange
    · exact step_illegal hi hphase hd
  · exact (encode_of_decode h).1.symm

end Sys2Proof.Machine
end

section
/-! PROOFS. What `NOP` and `CFG` do (spec 40_control.md R110, R112), with the rules they rest on: what `exec`
answers when a command completes or faults, the words whose reserved bits are set, and the widths of the registers
the block table is loaded into. -/

namespace Sys2Proof.Machine

/-! ### What `exec` answers -/

section

variable {i : Instr} {s : State}

/-- A command whose checks all pass. -/
theorem exec_completes {t : Block} {v : Word} (hlegal : legalIn i s.phase = true)
    (hbody : bodyOf standard i s.toBlock = .ok (t, v)) : exec i s = .next (s.give (respond v t)) := by
  rw [exec_eq, perform_completes hlegal hbody]

/-- A command that meets a fault condition of its own, outside `FAULT`. -/
theorem exec_meets_fault {c : FaultCode} (hphase : s.phase ≠ .fault) (hlegal : legalIn i s.phase = true)
    (hbody : bodyOf standard i s.toBlock = .error c) : exec i s = .next (afterFault c (encode i) s) := by
  rw [exec_eq, perform_meets_fault hlegal hbody, fail_of_ne_fault hphase, give_raiseFault]

/-- A command in a phase other than `FAULT` where it is not legal. -/
theorem exec_wrong_phase (hphase : s.phase ≠ .fault) (hlegal : legalIn i s.phase = false) :
    exec i s = .next (afterFault .badPhase (encode i) s) := by
  rw [exec_eq, perform_wrong_phase hlegal, fail_of_ne_fault hphase, give_raiseFault]

end

/-! ### Reserved bits -/

/-- A word with the opcode of a command and a reserved bit of its format set is no command (30_encoding.md R87). -/
theorem reservedBitsRefused (i : Instr) : ReservedBitsRefused i.opcode i.reserved.1 i.reserved.2 := by
  intro cw hop hres
  obtain ⟨j, -, hd⟩ := decode_of_opcode hop
  exact hd.trans (if_neg fun h => hres ((and_row_mask_iff cw i).mp h).2)

/-! ### `NOP` -/

/-- Settles O10: `NOP` is legal in every phase and its body keeps the block; all 24 bits below its opcode are
reserved. -/
theorem nopChangesNothing : Obligations.NopChangesNothing :=
  ⟨fun _ => exec_eq_afterResponse rfl rfl, rfl, reservedBitsRefused .nop⟩

/-! ### The block table and the registers it is loaded into -/

/-- An entry of the block table fits the registers `K`, `NB1`, `DC1`, `NB2`, `DC2` and `TOT` (10_state.md R27). -/
def BlockEntry.FitsRegisters (e : BlockEntry) : Prop :=
  e.k < 2 ^ 5 ∧ e.nb1 < 2 ^ 7 ∧ e.dc1 < 2 ^ 8 ∧ e.nb2 < 2 ^ 7 ∧ e.dc2 < 2 ^ 8 ∧ e.tot < 2 ^ 12

/-- Every printed entry fits (43_rs_coder.md R160). -/
theorem fitsRegisters_of_mem_BLKTAB : ∀ row ∈ BLKTAB, ∀ e ∈ row, e.FitsRegisters := by
  unfold BlockEntry.FitsRegisters
  decide

/-- Whatever version and level are asked for: outside the table the entry is zero. -/
theorem blockEntry_fitsRegisters (ver ecl : Nat) : (blockEntry standard ver ecl).FitsRegisters := by
  have hzero : BlockEntry.FitsRegisters ⟨0, 0, 0, 0, 0⟩ := by
    unfold BlockEntry.FitsRegisters
    decide
  unfold blockEntry
  cases hrow : standard.BLKTAB[ver - 1]? with
  | none => exact hzero
  | some row =>
    cases he : row[ecl]? with
    | none => simpa [he] using hzero
    | some e =>
      simpa [he] using
        fitsRegisters_of_mem_BLKTAB row (List.mem_of_getElem? hrow) e (List.mem_of_getElem? he)

/-- `CFG` loads the entry of the block table uncut. -/
theorem configure_blockEntry (ver ecl : Nat) (s : Block) :
    (configure standard ver ecl s).k.toNat = (blockEntry standard ver ecl).k ∧
    (configure standard ver ecl s).nb1.toNat = (blockEntry standard ver ecl).nb1 ∧
    (configure standard ver ecl s).dc1.toNat = (blockEntry standard ver ecl).dc1 ∧
    (configure standard ver ecl s).nb2.toNat = (blockEntry standard ver ecl).nb2 ∧
    (configure standard ver ecl s).dc2.toNat = (blockEntry standard ver ecl).dc2 := by
  obtain ⟨hk, hnb1, hdc1, hnb2, hdc2, -⟩ := blockEntry_fitsRegisters ver ecl
  exact ⟨Nat.mod_eq_of_lt hk, Nat.mod_eq_of_lt hnb1, Nat.mod_eq_of_lt hdc1, Nat.mod_eq_of_lt hnb2,
    Nat.mod_eq_of_lt hdc2⟩

/-- The two totals `CFG` loads are uncut too, `DCAP` being at most `TOT`: they are those of the registers beside
them. -/
theorem configure_totals (ver ecl : Nat) (s : Block) {t : Block} (ht : t = configure standard ver ecl s) :
    t.dcap.toNat = t.nb1.toNat * t.dc1.toNat + t.nb2.toNat * t.dc2.toNat ∧
    t.tot.toNat = t.dcap.toNat + (t.nb1.toNat + t.nb2.toNat) * t.k.toNat := by
  subst ht
  obtain ⟨hk, hnb1, hdc1, hnb2, hdc2⟩ := configure_blockEntry ver ecl s
  obtain ⟨-, -, -, -, -, htot⟩ := blockEntry_fitsRegisters ver ecl
  have hdcap : (configure standard ver ecl s).dcap.toNat = (blockEntry standard ver ecl).dcap :=
    Nat.mod_eq_of_lt ((Nat.le_add_right _ _).trans_lt htot)
  rw [hdcap, hk, hnb1, hdc1, hnb2, hdc2]
  exact ⟨rfl, Nat.mod_eq_of_lt htot⟩

/-! ### `CFG` -/

/-- A version the block builds passes the operand check. -/
theorem cfgBody_of_version {p : Params} {ver : Nat} (ecl : Nat) (s : Block) (hmin : 1 ≤ ver) (hmax : ver ≤ 40) :
    cfgBody p ver ecl s = .ok (configure p ver ecl s, 0) :=
  if_neg (not_or.mpr ⟨hmin.not_gt, hmax.not_gt⟩)

/-- Any other version fails it. -/
theorem cfgBody_of_no_version {p : Params} {ver : Nat} (ecl : Nat) (s : Block) (h : ver = 0 ∨ 41 ≤ ver) :
    cfgBody p ver ecl s = .error .invalidOption :=
  if_pos (h.imp_left Nat.lt_one_iff.mpr)

/-- Settles O11: the phase check, the version check and the writes of `configure`, whose values are uncut because
every entry of the block table fits its registers. -/
theorem cfgLoadsTheGeometry : Obligations.CfgLoadsTheGeometry := by
  refine ⟨reservedBitsRefused (.cfg 0 0), fun s ver ecl hver hecl => ⟨?_, fun hfault hphase => ?_,
    fun hphase hno => ?_, fun hphase hmin hmax => ?_⟩⟩
  · rw [encode_toNat (by simp [Instr.wf, hver, hecl])]
    exact (Nat.add_assoc _ _ _).symm
  · exact exec_wrong_phase hfault (beq_false_of_ne hphase)
  · exact exec_meets_fault (by simp [hphase]) (beq_of_eq hphase) (cfgBody_of_no_version ecl _ hno)
  · obtain ⟨hk, hnb1, hdc1, hnb2, hdc2⟩ := configure_blockEntry ver ecl s.toBlock
    obtain ⟨hdcap, htot⟩ := configure_totals ver ecl s.toBlock rfl
    have hn : sideLength ver < 2 ^ 8 := by unfold sideLength; omega
    exact ⟨_, exec_completes (beq_of_eq hphase) (cfgBody_of_version ecl _ hmin hmax), rfl, rfl,
      Nat.mod_eq_of_lt hver, Nat.mod_eq_of_lt hecl, hk, hnb1, hdc1, hnb2, hdc2, hdcap, htot,
      Nat.mod_eq_of_lt hn, rfl, rfl⟩

end Sys2Proof.Machine
end

section
/-! PROOFS. The packer (spec 41_packer.md): what a command that appends one field does in every phase, the two
fields of `PHDR` as one, the alphanumeric set, and the stream that `PFIN` completes. -/

namespace Sys2Proof.Machine

/-! ### Appending a field -/

/-- Bits that were 0 beyond the end of the stream are 0 beyond the new end (10_state.md R29). -/
theorem Appended.zero_beyond {s t : Block} {v w : Nat} (h : Appended s t v w)
    (hzero : ∀ p, s.bitlen.toNat ≤ p → readStreamBit s.dbuf p = false) (p : Nat) (hp : t.bitlen.toNat ≤ p) :
    readStreamBit t.dbuf p = false := by
  obtain ⟨hlen, -, hother, -⟩ := h
  rw [hother p (by omega)]
  exact hzero p (by omega)

theorem appendBits_of_fit {s : Block} {w : Nat} (v : Nat) (h : s.bitlen.toNat + w ≤ 8 * s.dcap.toNat) :
    appendBits v w s = .ok (appendField v w s, 0) := if_pos (fits_iff.mpr h)

theorem appendBits_of_no_fit {s : Block} {w : Nat} (v : Nat) (h : 8 * s.dcap.toNat < s.bitlen.toNat + w) :
    appendBits v w s = .error .dataTooLong := if_neg fun hfit => h.not_ge (fits_iff.mp hfit)

/-- `AppendBits` succeeds only with a field that fits, which it appends (R121). -/
theorem fits_of_appendBits {s t : Block} {v w : Nat} {x : Word} (h : appendBits v w s = .ok (t, x)) :
    fits s w = true ∧ t = appendField v w s := by
  rcases appendBits_cases v w s with ⟨hfit, e⟩ | ⟨-, e⟩ <;> cases e.symm.trans h
  exact ⟨hfit, rfl⟩

/-- A command that is legal in `PACKING` alone and whose body is an operand check followed by `AppendBits`. -/
theorem packsField_of_body {i : Instr} {operandFault : Option FaultCode} {v w : Nat} {s : State}
    (hlegal : ∀ q, legalIn i q = (q == .packing))
    (hbody : bodyOf standard i s.toBlock = operandFault.elim (appendBits v w s.toBlock) .error) :
    PacksField i operandFault v w s := by
  refine ⟨fun hfault hphase => ?_, fun hphase c hc => ?_, fun hphase hnone hlong => ?_,
    fun hphase hnone hfit hcanonical hsizes => ?_⟩
  · exact exec_wrong_phase hfault ((hlegal _).trans (beq_false_of_ne hphase))
  · exact exec_meets_fault (by simp [hphase]) ((hlegal _).trans (beq_of_eq hphase)) (by rw [hbody, hc]; rfl)
  · refine exec_meets_fault (by simp [hphase]) ((hlegal _).trans (beq_of_eq hphase)) ?_
    rw [hbody, hnone]
    exact appendBits_of_no_fit v hlong
  · obtain ⟨⟨hwf, -⟩, -⟩ := hcanonical
    refine ⟨_, exec_completes ((hlegal _).trans (beq_of_eq hphase)) (t := appendField v w s.toBlock) (v := 0) ?_,
      rfl, appended_appendField v hwf (fits_iff.mpr hfit) hsizes.1, rfl⟩
    rw [hbody, hnone]
    exact appendBits_of_fit v hfit

/-- An operand check that names the operands refused, as a test before `AppendBits`. -/
theorem elim_ite_fault {P : Prop} [Decidable P] (c : FaultCode) (r : Except FaultCode (Block × Word)) :
    (if P then some c else none).elim r .error = if P then .error c else r := by
  split_ifs <;> rfl

/-- An operand check that names the operands accepted, as a test before `AppendBits`. -/
theorem elim_ite_pass {P : Prop} [Decidable P] (c : FaultCode) (r : Except FaultCode (Block × Word)) :
    (if P then none else some c).elim r .error = if P then r else .error c := by
  split_ifs <;> rfl

/-! ### `PUTB` and `PBYTE` -/

/-- Settles O25: the two operand checks of `PUTB` are one, and what follows them is `AppendBits`. -/
theorem putbAppendsTheField : Obligations.PutbAppendsTheField := by
  refine ⟨reservedBitsRefused (.putb 0 0), fun s width value hwidth hvalue => ⟨?_, ?_⟩⟩
  · rw [encode_toNat (i := .putb width value)
      (Bool.and_eq_true_iff.mpr ⟨decide_eq_true hwidth, decide_eq_true hvalue⟩)]
    exact (Nat.add_assoc _ _ _).symm
  · refine packsField_of_body (fun _ => rfl) ?_
    rw [elim_ite_fault, bodyOf, putbBody, ← ite_or]
    exact if_congr (by omega) rfl rfl

/-- Settles O30: `PBYTE` has no operand check. -/
theorem pbyteAppendsTheByte : Obligations.PbyteAppendsTheByte := by
  refine ⟨reservedBitsRefused (.pbyte 0), fun s c0 hc0 => ⟨?_, packsField_of_body (fun _ => rfl) rfl⟩⟩
  rw [encode_toNat (by simp [Instr.wf, hc0])]
  rfl

/-! ### Digits -/

theorem isDigit_iff {ch : Nat} : isDigit ch = true ↔ 0x30 ≤ ch ∧ ch ≤ 0x39 := by
  simp [isDigit]

/-- Settles O27: the operand check of each command tests its digits, and the field is the number they spell. -/
theorem digitCommandsPackDecimalNumbers : Obligations.DigitCommandsPackDecimalNumbers := by
  refine ⟨⟨reservedBitsRefused (.pnum1 0), reservedBitsRefused (.pnum2 0 0)⟩,
    fun s c0 c1 c2 h0 h1 h2 => ⟨⟨?_, ?_⟩, ⟨?_, ?_⟩, ?_, ?_⟩⟩
  · rw [encode_toNat (by simp [Instr.wf, h0])]
    rfl
  · refine packsField_of_body (fun _ => rfl) ?_
    rw [elim_ite_pass]
    exact if_congr isDigit_iff rfl rfl
  · rw [encode_toNat (by simp [Instr.wf, h0, h1])]
    exact (Nat.add_assoc _ _ _).symm
  · refine packsField_of_body (fun _ => rfl) ?_
    rw [elim_ite_pass]
    exact if_congr (by simp only [Bool.and_eq_true, isDigit_iff]) rfl rfl
  · rw [encode_toNat (by simp [Instr.wf, h0, h1, h2]), Instr.opcode, Instr.operands]
    omega
  · refine packsField_of_body (fun _ => rfl) ?_
    rw [elim_ite_pass]
    exact if_congr (by simp only [Bool.and_eq_true, isDigit_iff, and_assoc]) rfl rfl

/-! ### Alphanumeric characters -/

/-- The first list that holds `x` gives its position. -/
theorem positionFrom_append (x i : Nat) (l l' : List Nat) :
    positionFrom x i (l ++ l') = (positionFrom x i l).or (positionFrom x (i + l.length) l') := by
  induction l generalizing i with
  | nil => rfl
  | cons y rest ih =>
    rw [List.cons_append, positionFrom, positionFrom]
    split_ifs
    · rfl
    · rw [ih, List.length_cons, Nat.add_right_comm, Nat.add_assoc]

/-- The position of a code in a run of consecutive codes. -/
theorem positionFrom_range' (x i a n : Nat) :
    positionFrom x i (List.range' a n) = if a ≤ x ∧ x < a + n then some (i + (x - a)) else none := by
  induction n generalizing i a with
  | zero => rw [if_neg (by omega)]; rfl
  | succ n ih =>
    rw [List.range'_succ, positionFrom, ih]
    by_cases hx : a = x
    · rw [if_pos hx, if_pos (by omega), hx, Nat.sub_self, Nat.add_zero]
    · rw [if_neg hx]
      refine ite_congr (propext (by omega)) (fun h => ?_) fun _ => rfl
      congr 1
      omega

/-- The nine characters of the set that are no digit and no letter (R128). -/
def alnumMarks : List Nat := [0x20, 0x24, 0x25, 0x2A, 0x2B, 0x2D, 0x2E, 0x2F, 0x3A]

/-- The alphanumeric set is the digits, the letters and nine marks (R128). -/
theorem ALNUM_eq : ALNUM = List.range' 0x30 10 ++ (List.range' 0x41 26 ++ alnumMarks) := rfl

/-- The value of a character by its kind (R128). -/
theorem alnumValue_standard (ch : Nat) : alnumValue standard ch =
    (if 0x30 ≤ ch ∧ ch < 0x30 + 10 then some (0 + (ch - 0x30)) else none).or
      ((if 0x41 ≤ ch ∧ ch < 0x41 + 26 then some (10 + (ch - 0x41)) else none).or
        (positionFrom ch 36 alnumMarks)) := by
  rw [← positionFrom_range', ← positionFrom_range']
  exact (congrArg _ ALNUM_eq).trans (by rw [positionFrom_append, positionFrom_append]; rfl)

/-- The values of the marks (R128). -/
theorem positionFrom_alnumMarks (ch v : Nat) : positionFrom ch 36 alnumMarks = some v ↔
    (ch = 0x20 ∧ v = 36) ∨ (ch = 0x24 ∧ v = 37) ∨ (ch = 0x25 ∧ v = 38) ∨ (ch = 0x2A ∧ v = 39) ∨
    (ch = 0x2B ∧ v = 40) ∨ (ch = 0x2D ∧ v = 41) ∨ (ch = 0x2E ∧ v = 42) ∨ (ch = 0x2F ∧ v = 43) ∨
    (ch = 0x3A ∧ v = 44) := by
  simp only [alnumMarks, positionFrom]
  split_ifs
  case neg => simp only [false_iff]; omega
  all_goals rw [Option.some.injEq]; omega

/-- The three kinds of character share no code (R128). -/
theorem alnumValue_eq_some_iff (ch v : Nat) : alnumValue standard ch = some v ↔
    (0x30 ≤ ch ∧ ch ≤ 0x39 ∧ v = ch - 0x30) ∨ (0x41 ≤ ch ∧ ch ≤ 0x5A ∧ v = ch - 0x41 + 10) ∨
    positionFrom ch 36 alnumMarks = some v := by
  rw [alnumValue_standard]
  by_cases hdigit : 0x30 ≤ ch ∧ ch < 0x30 + 10
  · rw [if_pos hdigit, Option.some_or, Option.some.injEq, positionFrom_alnumMarks, or_iff_left (by omega)]
    omega
  by_cases hletter : 0x41 ≤ ch ∧ ch < 0x41 + 26
  · rw [if_neg hdigit, if_pos hletter, Option.none_or, Option.some_or, Option.some.injEq,
      positionFrom_alnumMarks, or_iff_right (by omega), or_iff_left (by omega)]
    omega
  · rw [if_neg hdigit, if_neg hletter, Option.none_or, Option.none_or, or_iff_right (by omega),
      or_iff_right (by omega)]

/-- `PALN1` appends the value of a character of the set and refuses any other (R131). -/
theorem paln1Body_eq (p : Params) (c0 : Nat) (s : Block) : paln1Body p c0 s =
    if alnumValue p c0 = none then .error .unsupportedCharacter
    else appendBits ((alnumValue p c0).getD 0) 6 s := by
  cases h0 : alnumValue p c0 <;> simp [paln1Body, h0]

/-- `PALN2` appends the value of a pair of characters of the set and refuses any other pair (R132). -/
theorem paln2Body_eq (p : Params) (c0 c1 : Nat) (s : Block) : paln2Body p c0 c1 s =
    if alnumValue p c0 = none ∨ alnumValue p c1 = none then .error .unsupportedCharacter
    else appendBits (45 * (alnumValue p c0).getD 0 + (alnumValue p c1).getD 0) 11 s := by
  cases h0 : alnumValue p c0 <;> cases h1 : alnumValue p c1 <;> simp [paln2Body, h0, h1]

/-- Settles O28: the set is two runs of codes and nine marks, and the operand check of the `PALN` commands asks
for a value. -/
theorem alphanumericSetHasTheSpecsValues : Obligations.AlphanumericSetHasTheSpecsValues := by
  refine ⟨fun ch v => by rw [alnumValue_eq_some_iff, positionFrom_alnumMarks], fun s ch other hphase hnone => ?_⟩
  have hfault : s.phase ≠ .fault := by simp [hphase]
  have hlegal := beq_of_eq hphase
  refine ⟨exec_meets_fault hfault hlegal ?_, exec_meets_fault hfault hlegal ?_, exec_meets_fault hfault hlegal ?_⟩
  · exact (paln1Body_eq ..).trans (if_pos hnone)
  · exact (paln2Body_eq ..).trans (if_pos (.inl hnone))
  · exact (paln2Body_eq ..).trans (if_pos (.inr hnone))

/-- Settles O29: the operand check asks for the values, and what follows it is `AppendBits`. -/
theorem alphanumericCommandsPackTableValues : Obligations.AlphanumericCommandsPackTableValues := by
  refine ⟨⟨reservedBitsRefused (.paln1 0), reservedBitsRefused (.paln2 0 0)⟩,
    fun s c0 c1 h0 h1 => ⟨⟨?_, ?_⟩, ?_, ?_⟩⟩
  · rw [encode_toNat (by simp [Instr.wf, h0])]
    rfl
  · refine packsField_of_body (fun _ => rfl) ?_
    rw [elim_ite_fault]
    exact paln1Body_eq ..
  · rw [encode_toNat (by simp [Instr.wf, h0, h1])]
    exact (Nat.add_assoc _ _ _).symm
  · refine packsField_of_body (fun _ => rfl) ?_
    rw [elim_ite_fault]
    exact paln2Body_eq ..

/-! ### Two fields in a row -/

/-- Only the low `w` bits of a value are written. -/
theorem writeField_congr (m : Buffer) (p : Nat) {v v' w : Nat} (h : ∀ j < w, v.testBit j = v'.testBit j) :
    writeField m p v w = writeField m p v' w := by
  induction w generalizing m p with
  | zero => rfl
  | succ w ih =>
    rw [writeField, writeField, h w (Nat.lt_succ_self w)]
    exact ih _ _ fun j hj => h j (Nat.lt_succ_of_lt hj)

/-- A field of `k` bits and one of `w` bits after it are one field of `k + w` bits. -/
theorem writeField_writeField (m : Buffer) (p a k : Nat) {b w : Nat} (hb : b < 2 ^ w) :
    writeField (writeField m p a k) (p + k) b w = writeField m p (a * 2 ^ w + b) (k + w) := by
  have hbit (j : Nat) : (a * 2 ^ w + b).testBit j = if j < w then b.testBit j else a.testBit (j - w) := by
    rw [Nat.mul_comm, Nat.testBit_two_pow_mul_add a hb]
  induction k generalizing m p with
  | zero =>
    rw [Nat.zero_add]
    exact writeField_congr m p fun j hj => by rw [hbit, if_pos hj]
  | succ k ih =>
    rw [show k + 1 + w = k + w + 1 by omega, writeField, writeField, ← ih, hbit, if_neg (by omega),
      Nat.add_sub_cancel, Nat.add_right_comm, Nat.add_assoc]

/-- Two fields that fit together are appended as one. -/
theorem appendField_appendField {s : Block} {b k w : Nat} (a : Nat) (hb : b < 2 ^ w)
    (hfit : fits s (k + w) = true) :
    appendField b w (appendField a k s) = appendField (a * 2 ^ w + b) (k + w) s := by
  have hk : fits s k = true := fits_iff.mpr (by have := fits_iff.mp hfit; omega)
  have hlen := appendField_bitlen_toNat (v := a) hk
  conv_lhs => rw [appendField, hlen, appendField_dbuf, writeField_writeField _ _ _ _ hb, Nat.add_assoc]
  rfl

/-! ### `PHDR` -/

/-- `PHDR` with an accepted mode appends the indicator and the count as one field, if the count fits (R125). -/
theorem phdrBody_of_mode {p : Params} {mode : Nat} {m : Mode} (count : Nat) {w : Nat} {s : Block}
    (hmode : modeOfIndicator p mode = some m) (hw : p.CCIW m (tier s.ver.toNat) = w) :
    phdrBody p mode count s =
      if 2 ^ w ≤ count then .error .badOperand else appendBits (mode * 2 ^ w + count) (4 + w) s := by
  subst hw
  simp only [phdrBody, hmode]
  refine ite_congr rfl (fun _ => rfl) fun hcount => ite_congr rfl (fun hfit => ?_) fun _ => rfl
  rw [appendField_appendField mode (Nat.not_le.mp hcount) hfit]

theorem phdrBody_of_no_mode {p : Params} {mode : Nat} (count : Nat) (s : Block)
    (hmode : modeOfIndicator p mode = none) : phdrBody p mode count s = .error .badOperand := by
  simp only [phdrBody, hmode]

/-- The accepted indicators (R123). -/
theorem modeOfIndicator_eq_none {mode : Nat} (h : mode ≠ 1 ∧ mode ≠ 2 ∧ mode ≠ 4) :
    modeOfIndicator standard mode = none := by
  obtain ⟨h1, h2, h4⟩ := h
  exact (if_neg h1).trans ((if_neg h2).trans (if_neg h4))

/-- The width of the length field by mode indicator and version (R124). -/
theorem exists_mode_CCIW {mode : Nat} (ver : Nat) (h : mode = 1 ∨ mode = 2 ∨ mode = 4) :
    ∃ m, modeOfIndicator standard mode = some m ∧ CCIW m (tier ver) =
      (if mode = 1 then (if ver ≤ 9 then 10 else if ver ≤ 26 then 12 else 14)
        else if mode = 2 then (if ver ≤ 9 then 9 else if ver ≤ 26 then 11 else 13)
        else (if ver ≤ 9 then 8 else 16)) := by
  rcases h with rfl | rfl | rfl
  · exact ⟨.numeric, rfl, by rw [if_pos rfl, tier]; split_ifs <;> rfl⟩
  · exact ⟨.alphanumeric, rfl, by rw [if_neg (by decide), if_pos rfl, tier]; split_ifs <;> rfl⟩
  · exact ⟨.byte, rfl, by rw [if_neg (by decide), if_neg (by decide), tier]; split_ifs <;> rfl⟩

/-- Settles O26: `PHDR` is an operand check followed by one `AppendBits` of both fields. -/
theorem phdrAppendsBothFieldsOrNeither : Obligations.PhdrAppendsBothFieldsOrNeither := by
  refine ⟨reservedBitsRefused (.phdr 0 0), fun s mode count w hmode hcount hw => ⟨?_, ?_⟩⟩
  · rw [encode_toNat (i := .phdr mode count)
      (Bool.and_eq_true_iff.mpr ⟨decide_eq_true hmode, decide_eq_true hcount⟩)]
    exact (Nat.add_assoc _ _ _).symm
  · refine packsField_of_body (fun _ => rfl) ?_
    rw [elim_ite_fault, bodyOf]
    by_cases hno : mode ≠ 1 ∧ mode ≠ 2 ∧ mode ≠ 4
    · rw [if_pos (.inl hno), phdrBody_of_no_mode _ _ (modeOfIndicator_eq_none hno)]
    · obtain ⟨m, hm, hCCIW⟩ := exists_mode_CCIW (mode := mode) s.ver.toNat (by omega)
      rw [phdrBody_of_mode count hm (hCCIW.trans hw.symm)]
      exact if_congr (or_iff_right hno).symm rfl rfl

/-- Settles O24: a field is appended whole or refused whole, and the two fields of `PHDR` are one. -/
theorem appendBitsWritesTheField : Obligations.AppendBitsWritesTheField := by
  refine ⟨fun s v w _ _ _ hcanonical hsizes => ⟨appendBits_of_no_fit v, fun hfit => ?_⟩,
    fun s t mode count hphase h => ?_⟩
  · obtain ⟨⟨hwf, -⟩, -⟩ := hcanonical
    have happended := appended_appendField v hwf (fits_iff.mpr hfit) hsizes.1
    exact ⟨_, appendBits_of_fit v hfit, happended, happended.zero_beyond⟩
  · have kept_of_fail (c : FaultCode) (ht : t = s.give (fail c (encode (.phdr mode count)) s.toBlock)) :
        t.dbuf = s.dbuf ∧ t.bitlen = s.bitlen := by
      rw [ht, fail_of_ne_fault (by simp [hphase])]
      exact ⟨rfl, rfl⟩
    rcases exec_cases h with ⟨u, v, -, hbody, rfl⟩ | ⟨c, -, -, ht⟩ | ⟨-, ht⟩
    · rw [bodyOf] at hbody
      cases hm : modeOfIndicator standard mode with
      | none => cases (phdrBody_of_no_mode count s.toBlock hm).symm.trans hbody
      | some m =>
        rw [phdrBody_of_mode count hm rfl] at hbody
        split at hbody
        · cases hbody
        obtain ⟨hfit, rfl⟩ := fits_of_appendBits hbody
        exact .inr ⟨m, rfl, appendField_bitlen_toNat hfit,
          (appendField_bitlen_toNat hfit).trans_le (fits_iff.mp hfit)⟩
    · exact .inl (kept_of_fail c ht)
    · exact .inl (kept_of_fail .badPhase ht)

/-! ### `PFIN` -/

theorem exec_pfin {s : State} (hphase : s.phase = .packing) :
    exec .pfin s = .next (s.give (respond 0 (fillStream s.toBlock))) :=
  exec_completes (beq_of_eq hphase) rfl

section

variable {s : Block}

/-- `PFIN` keeps every codeword before the first pad codeword and after the last. -/
theorem readCodeword_fillStream_outside {i : Nat} (hfit : s.bitlen.toNat ≤ capacityBits s)
    (hi : i < paddedLength s / 8 ∨ s.dcap.toNat ≤ i) :
    readCodeword (fillStream s).dbuf i = readCodeword s.dbuf i := by
  have hle := paddedLength_le hfit
  rw [capacityBits] at hle
  refine readCodeword_writeCodewords_outside _ _ _ _ _ (hi.imp_right fun h => ?_)
  rw [padCodewords_length]
  omega

/-- `PFIN` fills the codewords after the padded stream up to the capacity with pad codewords. -/
theorem readCodeword_fillStream_pad {i : Nat} (hwf : Memory.wf 0 s.dbuf = true)
    (hsize : s.dcap.toNat ≤ Config.DMAX) (hi : paddedLength s / 8 + i < s.dcap.toNat) :
    readCodeword (fillStream s).dbuf (paddedLength s / 8 + i) = padCodeword i := by
  have hlen : i < (padCodewords s).length := by rw [padCodewords_length]; omega
  rw [fillStream_dbuf, readCodeword_writeCodewords_inside _ _ _ hwf hlen (by omega)]
  simp [padCodewords]

/-- `PFIN` keeps every bit of the padded stream. -/
theorem readStreamBit_fillStream {q : Nat} (hfit : s.bitlen.toNat ≤ capacityBits s) (hq : q < paddedLength s) :
    readStreamBit (fillStream s).dbuf q = readStreamBit s.dbuf q := by
  have hmod := paddedLength_mod s
  rw [readStreamBit, readCodeword_fillStream_outside hfit (.inl (by omega)), ← readStreamBit]

end

/-- Settles O31: the pad codewords are written past the padded stream, whose last bits are 0 already. -/
theorem pfinFillsTheStream : Obligations.PfinFillsTheStream := by
  refine ⟨rfl, reservedBitsRefused .pfin, fun s hfault hphase => exec_wrong_phase hfault (beq_false_of_ne hphase),
    fun s t4 z e hphase hcanonical hsizes hstream ht4 hz he => ?_⟩
  obtain ⟨⟨hwf, -⟩, -⟩ := hcanonical
  obtain ⟨hfit, hzero⟩ := hstream.1 hphase
  obtain rfl : e = paddedLength s.toBlock := by rw [he, hz, ht4]; rfl
  have hmod := paddedLength_mod s.toBlock
  have hlen : s.bitlen.toNat ≤ paddedLength s.toBlock := by omega
  refine ⟨_, exec_pfin hphase, rfl, rfl, fillStream_bitlen_toNat hfit, fun p hp => ?_, fun p hp hpe => ?_,
    fun i hi => ?_, fun i hi => ?_, rfl⟩
  · exact readStreamBit_fillStream hfit (hp.trans_le hlen)
  · exact (readStreamBit_fillStream hfit hpe).trans (hzero p hp)
  · exact readCodeword_fillStream_pad hwf hsizes.1 (by omega)
  · exact readCodeword_fillStream_outside hfit (.inr hi)

/-! ### The empty payload -/

/-- Every printed entry has room for a codeword and fits `DBUF` (43_rs_coder.md R160, 00_scope.md R9). -/
theorem dcap_bounds_of_mem_BLKTAB : ∀ row ∈ BLKTAB, ∀ e ∈ row, 0 < e.dcap ∧ e.dcap ≤ Config.DMAX := by
  decide

theorem length_of_mem_BLKTAB : ∀ row ∈ BLKTAB, row.length = 4 := by decide

/-- The version and the level of `CFG` name an entry of the block table (R160). -/
theorem exists_blockEntry_mem {ver ecl : Nat} (hmin : 1 ≤ ver) (hmax : ver ≤ 40) (hecl : ecl < 4) :
    ∃ row ∈ BLKTAB, blockEntry standard ver ecl ∈ row := by
  have hver : ver - 1 < BLKTAB.length := by
    rw [show BLKTAB.length = 40 from rfl]
    omega
  have hrow := List.getElem_mem hver
  have hlevel : ecl < BLKTAB[ver - 1].length := by rw [length_of_mem_BLKTAB _ hrow]; exact hecl
  refine ⟨_, hrow, ?_⟩
  have hentry : blockEntry standard ver ecl = BLKTAB[ver - 1][ecl] := by
    simp [blockEntry, standard, hver, hlevel]
  rw [hentry]
  exact List.getElem_mem hlevel

/-- The capacity `CFG` loads has room for a codeword and fits `DBUF`. -/
theorem configure_dcap_bounds {ver ecl : Nat} (s : Block) (hmin : 1 ≤ ver) (hmax : ver ≤ 40) (hecl : ecl < 4) :
    0 < (configure standard ver ecl s).dcap.toNat ∧ (configure standard ver ecl s).dcap.toNat ≤ Config.DMAX := by
  obtain ⟨row, hrow, hentry⟩ := exists_blockEntry_mem hmin hmax hecl
  obtain ⟨-, hnb1, hdc1, hnb2, hdc2⟩ := configure_blockEntry ver ecl s
  rw [(configure_totals ver ecl s rfl).1, hnb1, hdc1, hnb2, hdc2]
  exact dcap_bounds_of_mem_BLKTAB row hrow _ hentry

/-- A command that answers a next state is followed by the rest of the list. -/
theorem execAll_cons {i : Instr} {s t : State} (h : exec i s = .next t) (rest : List Instr) :
    execAll (i :: rest) s = execAll rest t := by
  rw [execAll, h]

/-- The padded length of an empty stream with room for a codeword: the terminator and four zero bits. -/
theorem paddedLength_of_empty {s : Block} (hempty : s.bitlen = 0) (hroom : 0 < s.dcap.toNat) :
    paddedLength s = 8 := by
  have hlen : s.bitlen.toNat = 0 := by rw [hempty]; rfl
  simp only [paddedLength, terminatorBits, capacityBits, hlen]
  omega

/-- Settles O32: the padded stream is one codeword of an empty buffer, and pad codewords follow it. -/
theorem emptyPayloadIsTerminatorAndPads : Obligations.EmptyPayloadIsTerminatorAndPads := by
  intro ver ecl hmin hmax hecl
  obtain ⟨hroom, hsize⟩ := configure_dcap_bounds Block.reset hmin hmax hecl
  have hcfg := exec_completes (i := .cfg ver ecl) (s := State.reset) rfl
    (cfgBody_of_version (p := standard) ecl Block.reset hmin hmax)
  have hpadded := paddedLength_of_empty (configure_bitlen standard ver ecl Block.reset) hroom
  refine ⟨_, (execAll_cons hcfg _).trans (execAll_cons (exec_pfin rfl) _), rfl, rfl, ?_, fun i hi => ?_⟩
  · exact readCodeword_fillStream_outside (s := configure standard ver ecl Block.reset) (Nat.zero_le _)
      (.inl (by rw [hpadded]; decide))
  · have hpad := readCodeword_fillStream_pad (s := configure standard ver ecl Block.reset) (i := i) rfl hsize
    rw [hpadded, Nat.add_comm] at hpad
    exact hpad hi

end Sys2Proof.Machine
end

section
/-! PROOFS. The field and the generator polynomials (spec 42_gf256.md). A byte is a polynomial read from its highest
coefficient by Horner's rule, so that a fact about bytes is proved by induction on that rule; `x` generates the
255 non-zero elements, which makes the logarithm the inverse of the antilog table. -/

namespace Sys2Proof.Machine

/-! ### The ring laws, whatever the tables -/

section

variable (p : Params)

/-- One step of Horner's rule on the bits of `b` takes its bits above `j` to its bits from `j` on; the reduction
never applies, as bit 7 is clear. -/
theorem xtime_ushiftRight (b : Byte) (j : Nat) :
    xtime p (b >>> (j + 1)) ^^^ (if b.getLsbD j then 1 else 0) = b >>> j := by
  have htop : (b >>> (j + 1)).getLsbD 7 = false := by
    rw [BitVec.getLsbD_ushiftRight]
    exact BitVec.getLsbD_of_ge _ _ (by omega)
  rw [xtime, htop, if_neg Bool.false_ne_true]
  ext i hi
  cases i with
  | zero => cases h : b.getLsbD j <;> simp [h]
  | succ i => cases h : b.getLsbD j <;> simp [Nat.add_comm i 1, Nat.add_assoc]

theorem gmul_one_left (b : Byte) : gmul p 1 b = b := by
  have key (n : Nat) : (List.range n).reverse.foldl
      (fun acc j => xtime p acc ^^^ (if b.getLsbD j then 1 else 0)) (b >>> n) = b := by
    induction n with
    | zero => exact BitVec.ushiftRight_zero b
    | succ n ih => rw [List.range_succ, List.reverse_concat, List.foldl_cons, xtime_ushiftRight, ih]
  have h := key 8
  rw [BitVec.ushiftRight_eq_zero (Nat.le_refl 8)] at h
  exact h

/-- Induction along Horner's rule: every byte comes from 0 by multiplying by `x` and adding 1. -/
theorem horner_induction {P : Byte → Prop} (zero : P 0) (mul_x : ∀ b, P b → P (xtime p b))
    (add_one : ∀ b, P b → P (b ^^^ 1)) (b : Byte) : P b := by
  rw [← gmul_one_left p b]
  refine List.foldlRecOn _ _ zero fun acc hacc j _ => ?_
  split
  · exact add_one _ (mul_x _ hacc)
  · simpa using mul_x _ hacc

theorem gmul_xtime_left (a b : Byte) : gmul p (xtime p a) b = xtime p (gmul p a b) := by
  have h := List.foldl_hom (xtime p) (init := 0) (l := [7, 6, 5, 4, 3, 2, 1, 0])
    (g₁ := fun acc j => xtime p acc ^^^ (if b.getLsbD j then a else 0))
    (g₂ := fun acc j => xtime p acc ^^^ (if b.getLsbD j then xtime p a else 0)) fun x j => by
      rw [xtime_xor, apply_ite (xtime p), xtime_zero]
  rwa [xtime_zero] at h

theorem gmul_xtime_right (a b : Byte) : gmul p a (xtime p b) = xtime p (gmul p a b) := by
  induction a using horner_induction p with
  | zero => simp only [gmul_zero_left, xtime_zero]
  | mul_x a ih => rw [gmul_xtime_left, gmul_xtime_left, ih]
  | add_one a ih => simp only [gmul_xor_left, gmul_one_left, xtime_xor, ih]

theorem gmul_one_right (a : Byte) : gmul p a 1 = a := by
  induction a using horner_induction p with
  | zero => rw [gmul_zero_left]
  | mul_x a ih => rw [gmul_xtime_left, ih]
  | add_one a ih => rw [gmul_xor_left, gmul_one_left, ih]

theorem gmul_comm (a b : Byte) : gmul p a b = gmul p b a := by
  induction a using horner_induction p with
  | zero => rw [gmul_zero_left, gmul_zero_right]
  | mul_x a ih => rw [gmul_xtime_left, gmul_xtime_right, ih]
  | add_one a ih => rw [gmul_xor_left, gmul_xor_right, gmul_one_left, gmul_one_right, ih]

theorem gmul_assoc (a b c : Byte) : gmul p (gmul p a b) c = gmul p a (gmul p b c) := by
  induction c using horner_induction p with
  | zero => simp only [gmul_zero_right]
  | mul_x c ih => simp only [gmul_xtime_right, ih]
  | add_one c ih => simp only [gmul_xor_right, gmul_one_right, ih]

theorem gexp_add (i j : Nat) : gexp p (i + j) = gmul p (gexp p i) (gexp p j) := by
  induction j with
  | zero => exact (gmul_one_right p _).symm
  | succ j ih => rw [← Nat.add_assoc, gexp, ih, gmul_assoc, gexp]

/-- The search finds the exponent `n` when no smaller one has the same power and its fuel reaches `n`. -/
theorem glogFrom_gexp {n : Nat} (fuel i : Nat) (hle : i ≤ n) (hfuel : n ≤ i + fuel)
    (hfirst : ∀ j < n, gexp p j ≠ gexp p n) : glogFrom p (gexp p n) fuel i (gexp p i) = n := by
  induction fuel generalizing i with
  | zero => exact hle.antisymm hfuel
  | succ fuel ih =>
    rw [glogFrom]
    split
    · next heq => exact hle.eq_of_not_lt fun hlt => hfirst i hlt heq
    · next hne => exact ih (i + 1) (hle.lt_of_ne fun heq => hne (heq ▸ rfl)) (by omega)

end

/-! ### `x` generates the non-zero elements -/

/-- The antilog table by shifts (R141): `ALPHA` is `x` itself. -/
theorem gexp_succ (i : Nat) : gexp standard (i + 1) = xtime standard (gexp standard i) := by
  have hbase : standard.ALPHA = xtime standard 1 := by decide
  rw [gexp, hbase, gmul_xtime_right, gmul_one_right]

theorem gexp_eq_iterate (n : Nat) : gexp standard n = (xtime standard)^[n] 1 := by
  induction n with
  | zero => rfl
  | succ n ih => rw [Function.iterate_succ_apply', ← ih, gexp_succ]

/-- The table closes at 255 and at no maximal proper divisor of it. -/
theorem gexp_at_divisors : gexp standard 255 = 1 ∧
    gexp standard 15 ≠ 1 ∧ gexp standard 51 ≠ 1 ∧ gexp standard 85 ≠ 1 := by
  decide +kernel

/-- A divisor of 255 = 3 · 5 · 17 that divides no maximal proper divisor of it. -/
theorem eq_255_of_dvd {m : Nat} (h : m ∣ 255) (h15 : ¬m ∣ 15) (h51 : ¬m ∣ 51) (h85 : ¬m ∣ 85) : m = 255 := by
  have hdivisor : m ∈ Nat.divisors 255 := Nat.mem_divisors.mpr ⟨h, by decide⟩
  rw [show Nat.divisors 255 = {1, 3, 5, 15, 17, 51, 85, 255} by decide +kernel] at hdivisor
  fin_cases hdivisor <;> omega

/-- The period of the table is 255 and not a proper divisor of it. -/
theorem minimalPeriod_xtime : Function.minimalPeriod (xtime standard) 1 = 255 := by
  have dvd_iff (n : Nat) : Function.minimalPeriod (xtime standard) 1 ∣ n ↔ gexp standard n = 1 := by
    rw [gexp_eq_iterate]
    exact Function.isPeriodicPt_iff_minimalPeriod_dvd.symm
  obtain ⟨h255, h15, h51, h85⟩ := gexp_at_divisors
  exact eq_255_of_dvd ((dvd_iff _).mpr h255) (mt (dvd_iff _).mp h15) (mt (dvd_iff _).mp h51) (mt (dvd_iff _).mp h85)

/-- Exponents count modulo 255 (R154). -/
theorem gexp_mod (n : Nat) : gexp standard (n % 255) = gexp standard n := by
  rw [gexp_eq_iterate, gexp_eq_iterate, ← minimalPeriod_xtime, Function.iterate_mod_minimalPeriod_eq]

theorem gexp_injOn : Set.InjOn (gexp standard) (Set.Iio 255) := by
  have h := Function.iterate_injOn_Iio_minimalPeriod (f := xtime standard) (x := 1)
  simpa only [minimalPeriod_xtime, ← gexp_eq_iterate] using h

/-- `254 * n` is `-n` modulo 255. -/
theorem gmul_gexp_inverse (n : Nat) : gmul standard (gexp standard n) (gexp standard (254 * n)) = 1 := by
  rw [← gexp_add, ← gexp_mod, show (n + 254 * n) % 255 = 0 by omega]
  rfl

theorem gexp_ne_zero (n : Nat) : gexp standard n ≠ 0 := by
  intro h
  have hone := gmul_gexp_inverse n
  rw [h, gmul_zero_left] at hone
  exact absurd hone (by decide)

theorem toNat_mem_of_ne_zero {a : Byte} (ha : a ≠ 0) : a.toNat ∈ Finset.Ico 1 256 :=
  Finset.mem_Ico.mpr ⟨Nat.pos_of_ne_zero fun h => ha (BitVec.eq_of_toNat_eq h), a.isLt⟩

/-- The 255 powers below exponent 255 are different and not 0, so that they are all the non-zero elements. -/
theorem exists_gexp_eq {a : Byte} (ha : a ≠ 0) : ∃ n < 255, gexp standard n = a := by
  have hinj : Set.InjOn (fun n => (gexp standard n).toNat) (Finset.range 255) := fun i hi j hj h =>
    gexp_injOn (Finset.mem_range.mp hi) (Finset.mem_range.mp hj) (BitVec.eq_of_toNat_eq h)
  obtain ⟨n, hn, h⟩ := Finset.surjOn_of_injOn_of_card_le _
    (fun n _ => toNat_mem_of_ne_zero (gexp_ne_zero n)) hinj (by simp) (toNat_mem_of_ne_zero ha)
  exact ⟨n, Finset.mem_range.mp hn, BitVec.eq_of_toNat_eq h⟩

/-! ### The logarithm, the product and the quotient -/

theorem glog_gexp {n : Nat} (h : n < 255) : glog standard (gexp standard n) = n :=
  glogFrom_gexp _ 254 0 n.zero_le (by omega) fun _ hj heq => hj.ne (gexp_injOn (hj.trans h) h heq)

theorem glog_lt {a : Byte} (ha : a ≠ 0) : glog standard a < 255 := by
  obtain ⟨n, hn, rfl⟩ := exists_gexp_eq ha
  rwa [glog_gexp hn]

theorem gexp_glog {a : Byte} (ha : a ≠ 0) : gexp standard (glog standard a) = a := by
  obtain ⟨n, hn, rfl⟩ := exists_gexp_eq ha
  rw [glog_gexp hn]

/-- Settles O34: the product of two powers adds their exponents, which count modulo 255; the ring laws hold by
induction along Horner's rule. -/
theorem fieldProductLaws : Obligations.FieldProductLaws := by
  refine ⟨fun a b ha hb => ?_, fun a => ⟨gmul_zero_right _ a, gmul_zero_left _ a, gmul_one_right _ a⟩,
    gmul_comm _, gmul_assoc _, gmul_xor_right _⟩
  rw [gexp_mod, gexp_add, gexp_glog ha, gexp_glog hb]

/-- Settles O35: `xtime` has period 255 from 1, so that the 255 first powers are the non-zero elements, each once. -/
theorem logInvertsAntilog : Obligations.LogInvertsAntilog :=
  ⟨rfl, gexp_at_divisors.1, gexp_succ, fun _ => glog_gexp, fun _ ha => ⟨glog_lt ha, gexp_glog ha⟩⟩

theorem gmul_right_cancel {q r b : Byte} (hb : b ≠ 0) (h : gmul standard q b = gmul standard r b) : q = r := by
  obtain ⟨n, -, rfl⟩ := exists_gexp_eq hb
  have hinverse := congrArg (gmul standard · (gexp standard (254 * n))) h
  simpa only [gmul_assoc, gmul_gexp_inverse, gmul_one_right] using hinverse

theorem gdiv_of_ne_zero {a : Byte} (ha : a ≠ 0) (b : Byte) :
    gdiv standard a b = gexp standard ((glog standard a + 255 - glog standard b) % 255) := if_neg ha

theorem gmul_gdiv (a : Byte) {b : Byte} (hb : b ≠ 0) : gmul standard (gdiv standard a b) b = a := by
  by_cases ha : a = 0
  · rw [ha, gdiv, if_pos rfl, gmul_zero_left]
  · have hlog : glog standard a + 255 - glog standard b + glog standard b = glog standard a + 255 :=
      Nat.sub_add_cancel ((glog_lt hb).le.trans (Nat.le_add_left _ _))
    calc gmul standard (gdiv standard a b) b
      _ = gmul standard (gexp standard (glog standard a + 255 - glog standard b))
            (gexp standard (glog standard b)) := by rw [gdiv_of_ne_zero ha, gexp_mod, gexp_glog hb]
      _ = gexp standard (glog standard a + 255) := by rw [← gexp_add, hlog]
      _ = a := by rw [← gexp_mod, Nat.add_mod_right, gexp_mod, gexp_glog ha]

/-- Settles O36: the quotient subtracts logarithms, and a non-zero factor cancels. -/
theorem quotientIsUnique : Obligations.QuotientIsUnique := fun a b hb =>
  ⟨gmul_gdiv a hb, fun ha => if_pos ha, fun ha => gdiv_of_ne_zero ha b,
    fun _ hq => gmul_right_cancel hb (hq.trans (gmul_gdiv a hb).symm)⟩

/-! ### The generator polynomials, whatever the tables -/

section

variable (p : Params)

/-- The sum of a polynomial times `x` plus `c` and the polynomial times `r`, coefficient by coefficient. -/
theorem shiftedSum_getD (r c : Byte) (g : List Byte) (j : Nat) :
    (List.zipWith (· ^^^ ·) (c :: g) (g.map (gmul p r) ++ [0])).getD j 0 =
      (c :: g).getD j 0 ^^^ gmul p r (g.getD j 0) := by
  induction g generalizing c j with
  | nil =>
    rw [List.getD_nil, gmul_zero_right]
    cases j <;> simp
  | cons x g ih =>
    cases j with
    | zero => rfl
    | succ j => exact ih x j

theorem mulByRoot_getD (g : List Byte) (r : Byte) (j : Nat) : (mulByRoot p g r).getD j 0 =
    (if j = 0 then 0 else g.getD (j - 1) 0) ^^^ gmul p r (g.getD j 0) := by
  rw [mulByRoot, shiftedSum_getD]
  cases j <;> rfl

theorem genCoefficient_succ (k j : Nat) : genCoefficient p (k + 1) j =
    (if j = 0 then 0 else genCoefficient p k (j - 1)) ^^^
      gmul p (gexp p (p.GENROOT0 + k)) (genCoefficient p k j) := mulByRoot_getD p _ _ j

theorem genCoefficient_of_degree_lt {k j : Nat} (h : k < j) : genCoefficient p k j = 0 :=
  List.getD_eq_default _ _ (by rw [gen_length]; exact h)

theorem genCoefficient_leading (k : Nat) : genCoefficient p k k = 1 := by
  induction k with
  | zero => rfl
  | succ k ih =>
    rw [genCoefficient_succ, if_neg k.succ_ne_zero, genCoefficient_of_degree_lt p k.lt_succ_self, gmul_zero_right,
      Nat.add_sub_cancel, ih]
    rfl

end

/-- Settles O38: the coefficients of a product by `x + r`, and by induction the leading one. -/
theorem generatorIsTheProduct : Obligations.GeneratorIsTheProduct :=
  ⟨rfl, fun p => ⟨rfl, genCoefficient_succ p,
    fun k => ⟨genCoefficient_leading p k, fun _ => genCoefficient_of_degree_lt p⟩⟩⟩

/-! ### The queries -/

/-- The operand checks of `GENC` as one. -/
theorem gencBody_eq (p : Params) (a b : Nat) (s : Block) : gencBody p a b s =
    if a = 0 ∨ 31 ≤ a ∨ a < b then .error .badOperand
    else .ok (s, codewordResponse (genCoefficient p a b)) := by
  rw [gencBody, ← ite_or]
  exact if_congr (by rw [Nat.lt_one_iff, or_assoc]; rfl) rfl rfl

/-- Settles O37: the queries are legal in every phase but `FAULT`, and their bodies are an operand check and a value
beside the block as it was. -/
theorem fieldQueriesAnswer : Obligations.FieldQueriesAnswer := by
  refine ⟨⟨reservedBitsRefused (.gfmul 0 0), reservedBitsRefused (.gfdiv 0 0), reservedBitsRefused (.gfexp 0),
    reservedBitsRefused (.gflog 0), reservedBitsRefused (.genc 0 0)⟩, fun s a b ha hb hphase => ?_⟩
  have hlegal : (s.phase != .fault) = true := bne_iff_ne.mpr hphase
  have hone : decide (b < 2 ^ 8) = true := decide_eq_true hb
  have htwo : (decide (a < 2 ^ 8) && decide (b < 2 ^ 8)) = true :=
    Bool.and_eq_true_iff.mpr ⟨decide_eq_true ha, hone⟩
  refine ⟨⟨?_, exec_eq_afterResponse hlegal rfl⟩, ⟨?_, fun h => ?_, fun h => ?_⟩,
    ⟨encode_toNat (i := .gfexp b) hone, exec_eq_afterResponse hlegal rfl⟩,
    ⟨encode_toNat (i := .gflog b) hone, fun h => ?_, fun h => ?_⟩, ?_, fun h => ?_, fun h1 h30 hle => ?_⟩
  · exact (encode_toNat (i := .gfmul a b) htwo).trans (Nat.add_assoc _ _ _).symm
  · exact (encode_toNat (i := .gfdiv a b) htwo).trans (Nat.add_assoc _ _ _).symm
  · exact exec_meets_fault hphase hlegal (if_pos h)
  · exact exec_eq_afterResponse hlegal (if_neg h)
  · exact exec_meets_fault hphase hlegal (if_pos h)
  · exact exec_eq_afterResponse hlegal (if_neg h)
  · exact (encode_toNat (i := .genc a b) htwo).trans (Nat.add_assoc _ _ _).symm
  · exact exec_meets_fault hphase hlegal ((gencBody_eq _ _ _ _).trans (if_pos h))
  · exact exec_eq_afterResponse hlegal ((gencBody_eq _ _ _ _).trans (if_neg (by omega)))

end Sys2Proof.Machine
end

section
/-! PROOFS. The coder and the interleaver (spec 43_rs_coder.md): the totals of the block table, the cut of the data
into blocks, and the two buffers, each written as one sequence of rounds of equal length. -/

namespace Sys2Proof.Machine

/-! ### The block table -/

/-- Every entry of `BLKTAB` fills the version's modules (R160, R161). -/
theorem blockEntry_tot : ∀ v < 40, ∀ ecl < 4,
    (blockEntry standard (v + 1) ecl).tot = rawModules (v + 1) / 8 := by
  decide

/-- Settles O12: the sum is `TOT`, which is that of the version for each of the 160 entries. -/
theorem blockTableMeetsTheSumProperty : Obligations.BlockTableMeetsTheSumProperty := by
  intro ver ecl hmin hmax hecl
  have htot := blockEntry_tot (ver - 1) (by omega) ecl hecl
  rw [Nat.sub_add_cancel hmin] at htot
  rw [← htot, BlockEntry.tot, BlockEntry.dcap]
  ring

/-! ### The block split -/

section

variable (s : Block)

theorem blockLength_of_lt {b : Nat} (h : b < s.nb1.toNat) : blockLength s b = s.dc1.toNat := if_pos h

theorem blockLength_of_le {b : Nat} (h : s.nb1.toNat ≤ b) : blockLength s b = s.dc2.toNat := if_neg h.not_gt

theorem blockStart_of_le {b : Nat} (h : b ≤ s.nb1.toNat) : blockStart s b = b * s.dc1.toNat := if_pos h

/-- Where the blocks of group 2 start; the first of them starts where group 1 ends. -/
theorem blockStart_nb1_add (c : Nat) :
    blockStart s (s.nb1.toNat + c) = s.nb1.toNat * s.dc1.toNat + c * s.dc2.toNat := by
  cases c with
  | zero => rw [Nat.add_zero, blockStart_of_le s le_rfl, Nat.zero_mul, Nat.add_zero]
  | succ c => rw [blockStart, if_neg (by omega), Nat.add_sub_cancel_left]

/-- Each block starts where the one before it ends. -/
theorem blockStart_succ (b : Nat) : blockStart s (b + 1) = blockStart s b + blockLength s b := by
  by_cases hb : b < s.nb1.toNat
  · rw [blockStart_of_le s hb, blockStart_of_le s hb.le, blockLength_of_lt s hb, Nat.succ_mul]
  · obtain ⟨c, rfl⟩ := Nat.exists_eq_add_of_le (Nat.le_of_not_lt hb)
    rw [Nat.add_assoc, blockStart_nb1_add, blockStart_nb1_add, blockLength_of_le s (Nat.le_add_right _ _),
      Nat.succ_mul, Nat.add_assoc]

end

/-- Settles O42: the start of a block is one formula per group, and the two agree where group 2 begins. -/
theorem blocksPartitionTheData : Obligations.BlocksPartitionTheData := by
  refine fun s => ⟨fun _ => blockLength_of_lt s, fun _ => blockLength_of_le s,
    (blockStart_of_le s (Nat.zero_le _)).trans (Nat.zero_mul _), fun b _ => blockStart_succ s b,
    blockStart_nb1_add s _, fun b => ⟨blockData_length s b, fun i hi => ?_⟩⟩
  have hlen : i < (blockData s b).length := (blockData_length s b).symm ▸ hi
  rw [List.getD_eq_getElem _ _ hlen, blockData_get s b hi]

/-! ### Sequences written round by round -/

section

variable {α : Type} {f : Nat → List α} {n k : Nat}

theorem length_flatMap_range (hf : ∀ b < n, (f b).length = k) : ((List.range n).flatMap f).length = n * k := by
  induction n with
  | zero => simp
  | succ n ih =>
    rw [List.range_succ, List.flatMap_append, List.length_append, ih fun b hb => hf b (Nat.lt_succ_of_lt hb),
      List.flatMap_singleton, hf n (Nat.lt_succ_self n), Nat.succ_mul]

/-- Element `j` of round `b`, when all rounds have `k` elements. -/
theorem getElem?_flatMap_range {b j : Nat} (hf : ∀ b < n, (f b).length = k) (hb : b < n) (hj : j < k) :
    ((List.range n).flatMap f)[b * k + j]? = (f b)[j]? := by
  induction n with
  | zero => exact absurd hb (Nat.not_lt_zero b)
  | succ n ih =>
    have hf' : ∀ b < n, (f b).length = k := fun b hb => hf b (Nat.lt_succ_of_lt hb)
    have hlen := length_flatMap_range hf'
    rw [List.range_succ, List.flatMap_append, List.flatMap_singleton]
    rcases Nat.lt_succ_iff_lt_or_eq.mp hb with hlt | rfl
    · have hin : b * k + j < n * k :=
        calc b * k + j < b * k + k := Nat.add_lt_add_left hj _
          _ = (b + 1) * k := (Nat.succ_mul b k).symm
          _ ≤ n * k := Nat.mul_le_mul_right k hlt
      rw [List.getElem?_append_left (hin.trans_eq hlen.symm), ih hf' hlt]
    · rw [List.getElem?_append_right (hlen.trans_le (Nat.le_add_right _ _)), hlen, Nat.add_sub_cancel_left]

end

/-- A sequence in two parts is written part after part. -/
theorem writeCodewords_append (size : Nat) (m : Buffer) (i : Nat) (vs ws : List Byte) :
    writeCodewords size m i (vs ++ ws) =
      writeCodewords size (writeCodewords size m i vs) (i + vs.length) ws := by
  induction vs generalizing m i with
  | nil => rfl
  | cons v rest ih =>
    rw [List.cons_append, writeCodewords, writeCodewords, ih, List.length_cons, Nat.add_assoc, Nat.add_comm 1]

/-- Rounds of `k` codewords written at multiples of `k` are one sequence from index 0. -/
theorem foldl_writeCodewords (size : Nat) (m : Buffer) {f : Nat → List Byte} {k : Nat}
    (hf : ∀ b, (f b).length = k) (n : Nat) :
    (List.range n).foldl (fun m b => writeCodewords size m (b * k) (f b)) m =
      writeCodewords size m 0 ((List.range n).flatMap f) := by
  induction n with
  | zero => rfl
  | succ n ih =>
    rw [List.range_succ, List.foldl_append, List.flatMap_append, writeCodewords_append, ← ih,
      length_flatMap_range fun b _ => hf b, Nat.zero_add, List.flatMap_singleton]
    rfl

/-- A sequence written from index 0 into a buffer with room for it reads as written. -/
theorem readCodeword_writeCodewords_zero {size i : Nat} {m : Buffer} {vs : List Byte} {v : Byte}
    (hwf : Memory.wf 0 m = true) (hsize : vs.length ≤ size) (h : vs[i]? = some v) :
    readCodeword (writeCodewords size m 0 vs) i = v := by
  obtain ⟨hi, rfl⟩ := List.getElem?_eq_some_iff.mp h
  have hread := readCodeword_writeCodewords_inside (size := size) 0 vs i hwf hi (by omega)
  rwa [Nat.zero_add] at hread

/-! ### `ECC` -/

/-- The correction codewords of all blocks, block after block (R167). -/
def correctionCodewords (p : Params) (s : Block) : List Byte :=
  (List.range (blockCount s)).flatMap fun b => rsrem p (blockData s b) s.k.toNat

theorem correctionCodewords_length (p : Params) (s : Block) :
    (correctionCodewords p s).length = blockCount s * s.k.toNat :=
  length_flatMap_range fun _ _ => rsrem_length p _ _

theorem getElem?_correctionCodewords (p : Params) (s : Block) {b j : Nat} (hb : b < blockCount s)
    (hj : j < s.k.toNat) : (correctionCodewords p s)[b * s.k.toNat + j]? =
      some ((rsrem p (blockData s b) s.k.toNat).getD j 0) := by
  have hlen : j < (rsrem p (blockData s b) s.k.toNat).length := (rsrem_length p _ _).symm ▸ hj
  rw [correctionCodewords, getElem?_flatMap_range (fun _ _ => rsrem_length p _ _) hb hj,
    List.getElem?_eq_getElem hlen, List.getD_eq_getElem _ _ hlen]

theorem correctionBuffer_eq (p : Params) (s : Block) :
    correctionBuffer p s = writeCodewords Config.EMAX s.ebuf 0 (correctionCodewords p s) :=
  foldl_writeCodewords _ _ (fun _ => rsrem_length p _ _) _

/-- Coefficient `j` of the remainder of block `b` stands at `EBUF[b*K + j]` (R167). -/
theorem readCodeword_correctionBuffer (p : Params) {s : Block} {b j : Nat} (hwf : Memory.wf 0 s.ebuf = true)
    (hsize : blockCount s * s.k.toNat ≤ Config.EMAX) (hb : b < blockCount s) (hj : j < s.k.toNat) :
    readCodeword (correctionBuffer p s) (b * s.k.toNat + j) =
      (rsrem p (blockData s b) s.k.toNat).getD j 0 := by
  rw [correctionBuffer_eq]
  exact readCodeword_writeCodewords_zero hwf ((correctionCodewords_length p s).trans_le hsize)
    (getElem?_correctionCodewords p s hb hj)

/-- Entries past those of the last block are kept. -/
theorem readCodeword_correctionBuffer_beyond (p : Params) (s : Block) {i : Nat}
    (hi : blockCount s * s.k.toNat ≤ i) : readCodeword (correctionBuffer p s) i = readCodeword s.ebuf i := by
  rw [correctionBuffer_eq]
  refine readCodeword_writeCodewords_outside _ _ _ _ _ (.inr ?_)
  rwa [Nat.zero_add, correctionCodewords_length]

/-- Settles O43: the blocks' correction codewords are one sequence written from index 0 of `EBUF`. -/
theorem eccCodesEveryBlock : Obligations.EccCodesEveryBlock := by
  refine ⟨rfl, reservedBitsRefused .ecc, fun s hfault hphase => exec_wrong_phase hfault (beq_false_of_ne hphase),
    fun s ⟨_, _, htot⟩ => by rw [htot, Nat.add_sub_cancel_left], fun s hphase hcanonical hsizes => ?_⟩
  obtain ⟨-, ⟨hwf, -⟩, -⟩ := hcanonical
  obtain ⟨-, hsize, -⟩ := hsizes
  exact ⟨_, exec_completes (beq_of_eq hphase) rfl, rfl, rfl,
    fun _ _ => readCodeword_correctionBuffer standard hwf hsize,
    fun _ => readCodeword_correctionBuffer_beyond standard s.toBlock, rfl⟩

/-! ### The interleaved stream -/

section

variable {s : Block} (h : SplitGeometry s)

include h

/-- No block is shorter than those of group 1. -/
theorem dc1_le_blockLength {b : Nat} (hb : b < blockCount s) : s.dc1.toNat ≤ blockLength s b := by
  by_cases hlt : b < s.nb1.toNat
  · exact (blockLength_of_lt s hlt).ge
  · rw [blockLength_of_le s (Nat.le_of_not_lt hlt)]
    obtain ⟨⟨hnb2, -⟩ | ⟨-, hdc2⟩, -⟩ := h
    · rw [blockCount, hnb2] at hb
      exact absurd hb hlt
    · omega

/-- Until the blocks of group 1 end, a round takes a codeword of every block (R169). -/
theorem dataRound_of_lt {i : Nat} (hi : i < s.dc1.toNat) : dataRound s i =
    (List.range (blockCount s)).map fun b => readCodeword s.dbuf (blockStart s b + i) := by
  rw [dataRound, List.filter_eq_self.mpr]
  exact fun b hb => decide_eq_true (hi.trans_le (dc1_le_blockLength h (List.mem_range.mp hb)))

/-- The round after the last of group 1 takes the last codeword of the blocks of group 2 (R169). -/
theorem dataRound_dc1 : dataRound s s.dc1.toNat =
    (List.range s.nb2.toNat).map fun c =>
      readCodeword s.dbuf (blockStart s (s.nb1.toNat + c) + s.dc1.toNat) := by
  have hgroup1 : (List.range s.nb1.toNat).filter (fun b => decide (s.dc1.toNat < blockLength s b)) = [] := by
    refine List.filter_eq_nil_iff.mpr fun b hb => ?_
    rw [blockLength_of_lt s (List.mem_range.mp hb)]
    simp
  have hgroup2 : ((List.range s.nb2.toNat).map (s.nb1.toNat + ·)).filter
      (fun b => decide (s.dc1.toNat < blockLength s b)) = (List.range s.nb2.toNat).map (s.nb1.toNat + ·) := by
    refine List.filter_eq_self.mpr fun b hb => ?_
    obtain ⟨c, hc, rfl⟩ := List.mem_map.mp hb
    rw [blockLength_of_le s (Nat.le_add_right _ _)]
    obtain ⟨⟨hnb2, -⟩ | ⟨-, hdc2⟩, -⟩ := h
    · simp [hnb2] at hc
    · exact decide_eq_true (by omega)
  rw [dataRound, blockCount, List.range_add, List.filter_append, hgroup1, hgroup2, List.nil_append, List.map_map]
  rfl

/-- The stream in three parts: the rounds of all blocks, the round of the longer blocks, the correction rounds. -/
theorem interleaved_eq : interleaved s = (List.range s.dc1.toNat).flatMap (dataRound s) ++
    dataRound s s.dc1.toNat ++ (List.range s.k.toNat).flatMap (correctionRound s) := by
  have hlast := dataRound_dc1 h
  obtain ⟨⟨hnb2, hdc2⟩ | ⟨-, hdc2⟩, -⟩ := h
  · rw [hlast, interleaved, hdc2, hnb2]
    simp
  · rw [interleaved, hdc2, Nat.max_eq_right (Nat.le_succ _), List.range_succ, List.flatMap_append,
      List.flatMap_singleton]

theorem dataRound_length {i : Nat} (hi : i < s.dc1.toNat) : (dataRound s i).length = blockCount s := by
  rw [dataRound_of_lt h hi, List.length_map, List.length_range]

theorem dataRounds_length :
    ((List.range s.dc1.toNat).flatMap (dataRound s)).length = s.dc1.toNat * blockCount s :=
  length_flatMap_range fun _ => dataRound_length h

/-- The two data parts of the stream are `DCAP` codewords. -/
theorem dcap_eq : s.dcap.toNat = s.dc1.toNat * blockCount s + s.nb2.toNat := by
  obtain ⟨hgroups, hdcap, -⟩ := h
  rw [hdcap, blockCount]
  rcases hgroups with ⟨hnb2, -⟩ | ⟨-, hdc2⟩
  · simp [hnb2, Nat.mul_comm]
  · rw [hdc2]
    ring

theorem dataPart_length : ((List.range s.dc1.toNat).flatMap (dataRound s) ++
    dataRound s s.dc1.toNat).length = s.dcap.toNat := by
  rw [List.length_append, dataRounds_length h, dataRound_dc1 h, List.length_map, List.length_range, dcap_eq h]

theorem interleaved_length : (interleaved s).length = s.tot.toNat := by
  have ⟨_, _, htot⟩ := h
  rw [interleaved_eq h, List.length_append, dataPart_length h,
    length_flatMap_range fun i _ => correctionRound_length s i, htot, Nat.mul_comm, blockCount]

/-- The data codewords every block has, round by round. -/
theorem getElem?_interleaved_data {i b : Nat} (hi : i < s.dc1.toNat) (hb : b < blockCount s) :
    (interleaved s)[i * blockCount s + b]? = some (readCodeword s.dbuf (blockStart s b + i)) := by
  have hread : ((List.range s.dc1.toNat).flatMap (dataRound s))[i * blockCount s + b]? =
      some (readCodeword s.dbuf (blockStart s b + i)) := by
    rw [getElem?_flatMap_range (fun _ => dataRound_length h) hi hb, dataRound_of_lt h hi]
    simp [hb]
  obtain ⟨hlt, -⟩ := List.getElem?_eq_some_iff.mp hread
  rw [interleaved_eq h, List.append_assoc, List.getElem?_append_left hlt, hread]

/-- The last codewords of the longer blocks, in block order. -/
theorem getElem?_interleaved_last {c : Nat} (hc : c < s.nb2.toNat) :
    (interleaved s)[s.dc1.toNat * blockCount s + c]? =
      some (readCodeword s.dbuf (blockStart s (s.nb1.toNat + c) + s.dc1.toNat)) := by
  have hlen := dataRounds_length h
  rw [interleaved_eq h, List.append_assoc, List.getElem?_append_right (hlen.trans_le (Nat.le_add_right _ _)), hlen,
    Nat.add_sub_cancel_left, dataRound_dc1 h, List.getElem?_append_left (by simpa using hc)]
  simp [hc]

/-- The correction codewords, round by round. -/
theorem getElem?_interleaved_correction {i b : Nat} (hi : i < s.k.toNat) (hb : b < blockCount s) :
    (interleaved s)[s.dcap.toNat + (i * blockCount s + b)]? =
      some (readCodeword s.ebuf (b * s.k.toNat + i)) := by
  have hlen := dataPart_length h
  rw [interleaved_eq h, List.getElem?_append_right (hlen.trans_le (Nat.le_add_right _ _)), hlen,
    Nat.add_sub_cancel_left, getElem?_flatMap_range (fun i _ => correctionRound_length s i) hi hb]
  simp [correctionRound, hb]

/-! ### `ILV` -/

theorem readCodeword_interleaveStream {i : Nat} {v : Byte} (hwf : Memory.wf 0 s.obuf = true)
    (hsize : s.tot.toNat ≤ Config.TMAX) (hv : (interleaved s)[i]? = some v) :
    readCodeword (interleaveStream s).obuf i = v :=
  readCodeword_writeCodewords_zero hwf ((interleaved_length h).trans_le hsize) hv

/-- Codewords past the stream are kept. -/
theorem readCodeword_interleaveStream_beyond {i : Nat} (hi : s.tot.toNat ≤ i) :
    readCodeword (interleaveStream s).obuf i = readCodeword s.obuf i := by
  refine readCodeword_writeCodewords_outside _ _ _ _ _ (.inr ?_)
  rwa [Nat.zero_add, interleaved_length h]

end

/-- Settles O44: the stream is three sequences of rounds, written from index 0 of `OBUF`. -/
theorem ilvInterleavesRoundRobin : Obligations.IlvInterleavesRoundRobin := by
  refine ⟨rfl, reservedBitsRefused .ilv, fun s hfault hphase => exec_wrong_phase hfault (beq_false_of_ne hphase),
    fun s nb hphase hcanonical hsizes hsplit hnb => ?_⟩
  subst hnb
  obtain ⟨-, -, ⟨hwf, -⟩, -⟩ := hcanonical
  obtain ⟨-, -, hsize, -⟩ := hsizes
  have hread {i : Nat} {v : Byte} := readCodeword_interleaveStream hsplit hwf hsize (i := i) (v := v)
  refine ⟨_, exec_completes (beq_of_eq hphase) rfl, rfl, rfl, fun i b hi hb => ?_, fun b hle hb => ?_,
    fun i b hi hb => ?_, fun i hi => ?_, rfl⟩
  · exact hread (getElem?_interleaved_data hsplit hi hb)
  · obtain ⟨c, rfl⟩ := Nat.exists_eq_add_of_le hle
    rw [Nat.add_sub_cancel_left]
    exact hread (getElem?_interleaved_last hsplit (Nat.lt_of_add_lt_add_left hb))
  · rw [Nat.add_assoc]
    exact hread (getElem?_interleaved_correction hsplit hi hb)
  · exact readCodeword_interleaveStream_beyond hsplit hi

end Sys2Proof.Machine
end

section
/-! PROOFS. The module matrix and the candidates (spec 44_mask_scorer.md sections 2 and 4): what `MSET` writes, what
every command leaves set, and each candidate as a function of the modules read. -/

namespace Sys2Proof.Machine

/-! ### Writing a module -/

/-- An element that a memory would list reads back once written, whatever the form of the memory. -/
theorem Memory.read_write_same_of_ne {α : Type} [DecidableEq α] {d v : α} (m : List (Nat × α)) (a : Nat)
    (hv : v ≠ d) : Memory.read d (Memory.write d m a v) a = v := by
  induction m with
  | nil => simp [Memory.write, Memory.read, hv]
  | cons e rest ih =>
    obtain ⟨k, x⟩ := e
    simp only [Memory.write, if_neg hv]
    split_ifs with hlt heq
    · simp [Memory.read]
    · simp [Memory.read]
    · simpa [Memory.read, Ne.symm heq] using ih

/-- A module that is set reads back once written inside the matrix. -/
theorem readModule_write_same_of_set {r c : Nat} {v : Module} (m : Matrix) (hv : v.tag ≠ .unset)
    (hr : r < Config.NMAX) (hc : c < Config.NMAX) : readModule (writeModule m r c v) r c = v := by
  rw [writeModule, if_pos ⟨hr, hc⟩]
  exact Memory.read_write_same_of_ne m _ fun h => hv (congrArg Module.tag h)

/-- Writing a module that is set makes no module Unset. -/
theorem unset_of_unset_writeModule {m : Matrix} {row col r c : Nat} {v : Module} (hv : v.tag ≠ .unset)
    (h : (readModule (writeModule m row col v) r c).tag = .unset) : (readModule m r c).tag = .unset := by
  by_cases ha : moduleAddress r c = moduleAddress row col
  · by_cases hin : row < Config.NMAX ∧ col < Config.NMAX
    · have hsame := readModule_write_same_of_set m hv hin.1 hin.2
      rw [readModule, ha, ← readModule, hsame] at h
      exact absurd h hv
    · rwa [writeModule_outside m v hin] at h
  · rwa [readModule_write_ne m v ha] at h

/-! ### What the commands make of the matrix -/

theorem commandedTag_ne_unset {tag : Nat} {m : Tag} (h : commandedTag tag = some m) : m ≠ .unset := by
  unfold commandedTag at h
  split_ifs at h <;> cases h <;> decide

theorem commandedTag_eq_some {tag : Nat} (h : tag = 1 ∨ tag = 2) :
    commandedTag tag = some (if tag = 1 then .data else .reserved) := by
  rcases h with rfl | rfl <;> rfl

theorem commandedTag_eq_none {tag : Nat} (h : tag = 0 ∨ tag = 3) : commandedTag tag = none := by
  rcases h with rfl | rfl <;> rfl

/-- Of all a command but `RST` can make of the block, only `MSET` changes the matrix, and it writes a module that
is set (R181). -/
theorem mod_of_completion {p : Params} {s t : Block} {i : Instr} (h : Completion p s i t) (hne : i ≠ .rst) :
    t.mod = s.mod ∨ ∃ row col v, v.tag ≠ .unset ∧ t.mod = writeModule s.mod row col v := by
  cases h with
  | nop | read | configure | append | header | fill | code | interleave | score => exact .inl rfl
  | reset => exact absurd rfl hne
  | load dark hrow hcol htag => exact .inr ⟨_, _, _, commandedTag_ne_unset htag, rfl⟩

/-- A command that fails a check keeps the matrix (60_exceptions.md R226, R227). -/
@[simp] theorem fail_mod (c : FaultCode) (cw : Word) (s : Block) : (fail c cw s).1.mod = s.mod := by
  by_cases hf : s.phase = .fault
  · rw [fail_of_fault hf, refuse_block]
  · rw [fail_of_ne_fault hf, raiseFault_mod]

/-- A module that is Unset after a command other than `RST` was Unset before it (R182). -/
theorem unset_of_exec {i : Instr} {s t : State} {r c : Nat} (h : exec i s = .next t) (hne : i ≠ .rst)
    (hunset : (readModule t.mod r c).tag = .unset) : (readModule s.mod r c).tag = .unset := by
  rcases exec_cases h with ⟨u, v, -, hbody, rfl⟩ | ⟨e, -, -, rfl⟩ | ⟨-, rfl⟩
  · rcases mod_of_completion (completion_of_bodyOf hbody) hne with hkept | ⟨row, col, w, hw, hwritten⟩
    · rwa [give_toBlock, respond_block, hkept] at hunset
    · rw [give_toBlock, respond_block, hwritten] at hunset
      exact unset_of_unset_writeModule hw hunset
  · rwa [give_toBlock, fail_mod] at hunset
  · rwa [give_toBlock, fail_mod] at hunset

/-! ### `MSET` -/

section

variable {s : Block} {row col tag : Nat} (dark : Bool)

/-- Coordinates outside the N by N area and the tags 0 and 3 fail the operand check (R182). -/
theorem msetBody_of_bad_operand (h : s.n.toNat ≤ row ∨ s.n.toNat ≤ col ∨ tag = 0 ∨ tag = 3) :
    msetBody row col tag dark s = .error .badOperand := by
  by_cases hout : s.n.toNat ≤ row ∨ s.n.toNat ≤ col
  · exact if_pos hout
  · rw [msetBody, if_neg hout, commandedTag_eq_none (by omega)]

/-- Operands that pass the operand check leave the check of the module addressed (R181, R182). -/
theorem msetBody_of_operands (hrow : row < s.n.toNat) (hcol : col < s.n.toNat) (htag : tag = 1 ∨ tag = 2) :
    msetBody row col tag dark s =
      if (readModule s.mod row col).tag = .reserved then .error .reservedOverwrite
      else .ok (loadModule row col ⟨if tag = 1 then .data else .reserved, dark⟩ s, 0) := by
  rw [msetBody, if_neg (not_or.mpr ⟨hrow.not_ge, hcol.not_ge⟩), commandedTag_eq_some htag]

end

/-- Settles O45: the checks of `MSET` in their order, and its one write, of a module that is set; no other command
but `RST` writes the matrix. -/
theorem msetWritesOneModule : Obligations.MsetWritesOneModule := by
  refine ⟨reservedBitsRefused (.mset 0 0 0 false), fun i s t r c h hne => unset_of_exec h hne,
    fun s row col tag dark hrow hcol htag => ⟨?_, fun hfault hphase => ?_, fun hphase hbad => ?_,
    fun hphase hr hc hset hres => ?_, fun hphase hr hc hset hfree hsizes => ?_⟩⟩
  · rw [encode_toNat (i := .mset row col tag dark) (by simp [Instr.wf, hrow, hcol, htag])]
    simp only [Instr.opcode, Instr.operands, Nat.add_assoc]
  · exact exec_wrong_phase hfault (beq_false_of_ne hphase)
  · exact exec_meets_fault (by simp [hphase]) (beq_of_eq hphase) (msetBody_of_bad_operand dark hbad)
  · exact exec_meets_fault (by simp [hphase]) (beq_of_eq hphase)
      ((msetBody_of_operands dark hr hc hset).trans (if_pos hres))
  · obtain ⟨-, -, -, hn⟩ := hsizes
    refine ⟨_, exec_completes (beq_of_eq hphase) ((msetBody_of_operands dark hr hc hset).trans (if_neg hfree)),
      rfl, ?_, fun r c hc256 hother => ?_, rfl⟩
    · exact readModule_write_same_of_set s.mod (commandedTag_ne_unset (commandedTag_eq_some hset))
        (hr.trans_le hn) (hc.trans_le hn)
    · exact readModule_write_ne s.mod _ fun ha =>
        hother (Prod.ext_iff.mpr ((moduleAddress_inj hc256 hcol).mp ha))

/-! ### The candidates -/

/-- A row as the modules a read finds, column by column. -/
theorem moduleRow_eq_map (m : Matrix) (r : Nat) {n : Nat} (hn : n ≤ 2 ^ 8) :
    moduleRow n m r = (List.range n).map (readModule m r) :=
  List.map_congr_left fun _ hc => readModule_listedInRow m r ((List.mem_range.mp hc).trans_le hn)

/-- A candidate as a function of the modules a read finds (R185). -/
theorem candidate_eq_map (p : Params) (k : Nat) (m : Matrix) {n : Nat} (hn : n ≤ 2 ^ 8) :
    candidate p k n m =
      (List.range n).map fun r => (List.range n).map fun c => maskedDark p k r c (readModule m r c) := by
  simp only [candidate, moduleRow_eq_map m _ hn, List.zipWith_map_right, List.zipWith_self]

theorem isSquare_candidate (p : Params) (k n : Nat) (m : Matrix) : IsSquare n (candidate p k n m) :=
  ⟨candidate_length p k n m, fun _ => candidate_row_length⟩

/-- Module `(r, c)` of a candidate (R185). -/
theorem cell_candidate (p : Params) (k : Nat) (m : Matrix) {n r c : Nat} (hn : n ≤ 2 ^ 8) (hr : r < n)
    (hc : c < n) : cell (candidate p k n m) r c = maskedDark p k r c (readModule m r c) := by
  simp [cell, candidate_eq_map p k m hn, hr, hc]

theorem maskedDark_of_flipped {p : Params} {k r c : Nat} {m : Module} (h : m.tag = .data ∧ p.MASKF k r c = true) :
    maskedDark p k r c m = !m.dark :=
  if_pos (by simpa using h)

theorem maskedDark_of_kept {p : Params} {k r c : Nat} {m : Module}
    (h : ¬(m.tag = .data ∧ p.MASKF k r c = true)) : maskedDark p k r c m = m.dark :=
  if_neg (by simpa using h)

/-- Settles O46: the formulas are those of R184, and a module of a candidate is the masked colour of the module a
read finds there. -/
theorem candidatesFlipOnlyDataModules : Obligations.CandidatesFlipOnlyDataModules := by
  refine ⟨fun r c => ?_, fun k n m hn => ⟨isSquare_candidate _ _ _ _, fun r c hr hc =>
    ⟨fun h => ?_, fun h => ?_⟩⟩⟩
  · simp only [MASKF, beq_iff_eq, and_self]
  · exact (cell_candidate standard k m hn hr hc).trans (maskedDark_of_flipped h)
  · exact (cell_candidate standard k m hn hr hc).trans (maskedDark_of_kept h)

end Sys2Proof.Machine
end

section
/-! PROOFS. The four penalty rules (spec 44_mask_scorer.md sections 3, 5 and 6): the runs of a line, the sums over
the 2N lines, each rule as the sum its statement names, and the largest value each can take. -/

namespace Sys2Proof.Machine

/-! ### Runs -/

/-- The runs found after `len` modules of value `v`, laid end to end. -/
theorem alternating_runLengthsFrom (v : Bool) (len : Nat) (line : List Bool) :
    alternating v (runLengthsFrom v len line) = List.replicate len v ++ line := by
  induction line generalizing v len with
  | nil => rfl
  | cons x rest ih =>
    rw [runLengthsFrom]
    split_ifs with hx
    · rw [ih, List.replicate_succ', List.append_assoc, hx, List.singleton_append]
    · rw [alternating, ← Bool.eq_not.mpr hx, ih]
      rfl

theorem one_le_of_mem_runLengthsFrom {v : Bool} {len l : Nat} {line : List Bool} (hlen : 1 ≤ len)
    (h : l ∈ runLengthsFrom v len line) : 1 ≤ l := by
  induction line generalizing v len with
  | nil => exact (List.mem_singleton.mp h) ▸ hlen
  | cons x rest ih =>
    rw [runLengthsFrom] at h
    split_ifs at h
    · exact ih (Nat.le_succ_of_le hlen) h
    · rcases List.mem_cons.mp h with rfl | h
      · exact hlen
      · exact ih le_rfl h

/-- Settles O48: a run is laid down with its first module and grows by each module of the same colour. -/
theorem runsPartitionTheLine : Obligations.RunsPartitionTheLine := by
  intro line
  cases line with
  | nil => exact ⟨rfl, nofun⟩
  | cons x rest => exact ⟨alternating_runLengthsFrom x 1 rest, fun _ => one_le_of_mem_runLengthsFrom le_rfl⟩

/-! ### The lines of a square matrix -/

/-- A list as the list of what its indices hold. -/
theorem map_getD_range {α : Type} (l : List α) (d : α) :
    (List.range l.length).map (fun i => l.getD i d) = l := by
  refine List.ext_getElem (by simp) fun i _ hi => ?_
  simp [hi]

section

variable {n : Nat} {rows : List (List Bool)} (h : IsSquare n rows)

include h

theorem rowLine_length {r : Nat} (hr : r < n) : (rowLine rows r).length = n := by
  obtain ⟨hlen, hrow⟩ := h
  rw [rowLine, List.getD_eq_getElem _ _ (hr.trans_eq hlen.symm)]
  exact hrow _ (List.getElem_mem _)

theorem map_rowLine_range : (List.range n).map (rowLine rows) = rows := by
  obtain ⟨rfl, -⟩ := h
  exact map_getD_range rows []

theorem columnLine_eq_map (c : Nat) : columnLine n rows c = rows.map fun row => row.getD c false := by
  conv_rhs => rw [← map_rowLine_range h, List.map_map]
  rfl

/-- What the 2N lines add up to (section 3). -/
theorem sum_map_linesOf (f : List Bool → Nat) : ((linesOf n rows).map f).sum = sumOverLines n rows f := by
  have hcolumns : columns n rows = (List.range n).map (columnLine n rows) :=
    List.map_congr_left fun c _ => (columnLine_eq_map h c).symm
  have hrows : rows.map f = (List.range n).map (f ∘ rowLine rows) := by
    conv_lhs => rw [← map_rowLine_range h, List.map_map]
  rw [linesOf, hcolumns, List.map_append, List.sum_append, hrows, List.map_map]
  rfl

/-- Every line of the sum has `n` modules. -/
theorem sumOverLines_congr {f g : List Bool → Nat} (hfg : ∀ line : List Bool, line.length = n → f line = g line) :
    sumOverLines n rows f = sumOverLines n rows g := by
  have hrows := List.map_congr_left fun r hr => hfg _ (rowLine_length h (List.mem_range.mp hr))
  have hcolumns : (List.range n).map (fun c => f (columnLine n rows c)) =
      (List.range n).map fun c => g (columnLine n rows c) :=
    List.map_congr_left fun c _ => hfg _ (by simp [columnLine])
  rw [sumOverLines, sumOverLines, hrows, hcolumns]

/-- What the 2N lines add up to, when no line adds more than `b`. -/
theorem sumOverLines_le {f : List Bool → Nat} {b : Nat} (hf : ∀ line : List Bool, line.length = n → f line ≤ b) :
    sumOverLines n rows f ≤ 2 * n * b := by
  have hrows := List.sum_le_card_nsmul ((List.range n).map fun r => f (rowLine rows r)) b (by
    simpa using fun r hr => hf _ (rowLine_length h hr))
  have hcolumns := List.sum_le_card_nsmul ((List.range n).map fun c => f (columnLine n rows c)) b (by
    simpa using fun c _ => hf _ (by simp [columnLine]))
  simp only [List.length_map, List.length_range, smul_eq_mul] at hrows hcolumns
  rw [sumOverLines, Nat.mul_assoc, Nat.two_mul]
  exact Nat.add_le_add hrows hcolumns

end

/-! ### Rule (a) -/

/-- What the runs of a line add is what the long ones among them add (R187). -/
theorem sum_map_runPenalty (p : Params) (lens : List Nat) : (lens.map (runPenalty p)).sum =
    ((lens.filter fun len => decide (5 ≤ len)).map fun len => p.W1 + (len - 5)).sum := by
  induction lens with
  | nil => rfl
  | cons len rest ih => by_cases hlong : 5 ≤ len <;> simp [runPenalty, hlong, ih]

/-- Settles O49: a run shorter than 5 adds nothing. -/
theorem runPenaltyCountsLongRuns : Obligations.RunPenaltyCountsLongRuns := by
  intro n rows h
  rw [penaltyRuns, sum_map_linesOf h]
  exact sumOverLines_congr h fun line _ => sum_map_runPenalty standard (runLengths line)

/-- A run adds at most its length less 2, and so do the runs of a line together. -/
theorem sum_map_runPenalty_le (lens : List Nat) : (lens.map (runPenalty standard)).sum ≤ lens.sum - 2 := by
  induction lens with
  | nil => exact Nat.zero_le _
  | cons len rest ih =>
    have hrun : runPenalty standard len ≤ len - 2 := by
      have hW1 : standard.W1 = 3 := rfl
      rw [runPenalty, hW1]
      split_ifs <;> omega
    rw [List.map_cons, List.sum_cons, List.sum_cons]
    omega

theorem penaltyRuns_le {n : Nat} {rows : List (List Bool)} (h : IsSquare n rows) :
    penaltyRuns standard n rows ≤ 2 * n * (n - 2) := by
  rw [penaltyRuns, sum_map_linesOf h]
  refine sumOverLines_le h fun line hline => ?_
  have hle := sum_map_runPenalty_le (runLengths line)
  rwa [runLengths_sum, hline] at hle

/-! ### Rule (b) -/

/-- The four modules of the window at column `c` of two neighbouring rows are of one colour (R188). -/
def uniformAt (upper lower : List Bool) (c : Nat) : Bool :=
  upper.getD c false == upper.getD (c + 1) false && upper.getD c false == lower.getD c false &&
    upper.getD c false == lower.getD (c + 1) false

/-- The windows of one colour are counted at every column but the last. -/
theorem uniformWindows_eq_countP {upper lower : List Bool} (h : upper.length = lower.length) :
    uniformWindows upper lower = (List.range (upper.length - 1)).countP (uniformAt upper lower) := by
  induction upper, lower using uniformWindows.induct with
  | case1 a b upper c d lower ih =>
    have hlen : (a :: b :: upper).length - 1 = (b :: upper).length - 1 + 1 := rfl
    have hshift : uniformAt (a :: b :: upper) (c :: d :: lower) ∘ Nat.succ = uniformAt (b :: upper) (d :: lower) :=
      rfl
    rw [uniformWindows, ih (Nat.succ.inj h), hlen, List.range_succ_eq_map, List.countP_cons, List.countP_map, hshift,
      Nat.add_comm]
    congr 1
    exact if_congr (by simp [uniformAt, and_assoc]) rfl rfl
  | case2 upper lower hshort =>
    have hlen : upper.length - 1 = 0 := by
      match upper, lower with
      | [], _ => rfl
      | [_], _ => rfl
      | _ :: _ :: _, _ :: _ :: _ => exact absurd rfl (hshort _ _ _ _ _ _ rfl)
    rw [hlen, uniformWindows]
    · rfl
    · exact hshort

/-- Rule (b) looks at every pair of neighbouring rows. -/
theorem zipWith_drop_one {n : Nat} {rows : List (List Bool)} (h : IsSquare n rows) (f : List Bool → List Bool → Nat) :
    List.zipWith f rows (rows.drop 1) =
      (List.range (n - 1)).map fun r => f (rowLine rows r) (rowLine rows (r + 1)) := by
  obtain ⟨rfl, -⟩ := h
  refine List.ext_getElem (by simp) fun r hr _ => ?_
  have hlt : r + 1 < rows.length := by simp at hr; omega
  have hlt' : r < rows.length := Nat.lt_of_succ_lt hlt
  simp [rowLine, hlt, hlt']

theorem penaltyWindows_eq {n : Nat} {rows : List (List Bool)} (h : IsSquare n rows) :
    penaltyWindows standard rows = 3 * ((List.range (n - 1)).map fun r =>
      (List.range (n - 1)).countP (uniformAt (rowLine rows r) (rowLine rows (r + 1)))).sum := by
  rw [penaltyWindows, zipWith_drop_one h]
  refine congrArg (3 * List.sum ·) (List.map_congr_left fun r hr => ?_)
  have hr := List.mem_range.mp hr
  have hupper := rowLine_length h (r := r) (by omega)
  have hlower := rowLine_length h (r := r + 1) (by omega)
  rw [uniformWindows_eq_countP (hupper.trans hlower.symm), hupper]

/-- Settles O50: a window is named by its upper left module, which is in neither the last row nor the last
column. -/
theorem windowPenaltyCountsUniformWindows : Obligations.WindowPenaltyCountsUniformWindows :=
  fun _ _ h => penaltyWindows_eq h

theorem penaltyWindows_le {n : Nat} {rows : List (List Bool)} (h : IsSquare n rows) :
    penaltyWindows standard rows ≤ 3 * (n - 1) ^ 2 := by
  have hsum := List.sum_le_card_nsmul ((List.range (n - 1)).map fun r =>
    (List.range (n - 1)).countP (uniformAt (rowLine rows r) (rowLine rows (r + 1)))) (n - 1) (by
      simpa using fun r _ => List.countP_le_length.trans_eq List.length_range)
  rw [penaltyWindows_eq h]
  simpa [pow_two] using hsum

/-! ### Rule (c) -/

/-- Place `i` of a line holds the 11 modules of the pattern `p` (R189). -/
def holdsAt (p line : List Bool) (i : Nat) : Bool :=
  (List.range 11).all fun t => line.getD (i + t) false == p.getD t false

theorem windowsHolding_eq_countP (n : Nat) (p line : List Bool) :
    windowsHolding n p line = (List.range (n - 10)).countP (holdsAt p line) := rfl

theorem getD_of_holdsAt {p line : List Bool} {i t : Nat} (h : holdsAt p line i = true) (ht : t < 11) :
    line.getD (i + t) false = p.getD t false :=
  eq_of_beq (List.all_eq_true.mp h t (List.mem_range.mpr ht))

/-- A pattern stands at the head of a line that is long enough when the line holds its modules one by one. -/
theorem holdsAt_zero {p line : List Bool} (hp : p.length = 11) (hline : 11 ≤ line.length) :
    holdsAt p line 0 = p.isPrefixOf line := by
  have hlen : p.length ≤ line.length := hp.trans_le hline
  rw [holdsAt, ← hp, Bool.eq_iff_iff, List.isPrefixOf_iff_prefix, List.prefix_iff_getElem?, List.all_eq_true]
  refine forall_congr' fun t => ?_
  rw [List.mem_range, beq_iff_eq, Nat.zero_add]
  refine forall_congr' fun ht => ?_
  simp [ht, ht.trans_le hlen]

/-- The places after the first are those of the rest of the line. -/
theorem holdsAt_comp_succ (p : List Bool) (x : Bool) (line : List Bool) :
    holdsAt p (x :: line) ∘ Nat.succ = holdsAt p line := by
  funext i
  simp only [Function.comp_apply, holdsAt, Nat.succ_add, List.getD_cons_succ]

/-- One more module in front of a line opens one more place, if the line has room for it. -/
theorem windowsHolding_cons {p : List Bool} (hp : p.length = 11) (x : Bool) (line : List Bool) :
    windowsHolding (line.length + 1) p (x :: line) =
      (if p.isPrefixOf (x :: line) then 1 else 0) + windowsHolding line.length p line := by
  rw [windowsHolding_eq_countP, windowsHolding_eq_countP]
  by_cases hroom : 10 ≤ line.length
  · rw [Nat.sub_add_comm hroom, List.range_succ_eq_map, List.countP_cons, List.countP_map, holdsAt_comp_succ,
      holdsAt_zero hp (by simpa using hroom), Nat.add_comm]
  · have hnone : p.isPrefixOf (x :: line) = false := by
      refine Bool.eq_false_iff.mpr fun hprefix => hroom ?_
      have hle := (List.isPrefixOf_iff_prefix.mp hprefix).length_le
      rw [hp] at hle
      exact Nat.le_of_succ_le_succ hle
    simp [hnone, show line.length + 1 - 10 = 0 by omega, show line.length - 10 = 0 by omega]

/-- The places of a line that hold a pattern of 11 modules (R189). -/
theorem patternMatches_eq_windowsHolding {p : List Bool} (hp : p.length = 11) (line : List Bool) :
    patternMatches p line = windowsHolding line.length p line := by
  induction line with
  | nil => rfl
  | cons x rest ih => rw [patternMatches, ih, List.length_cons, windowsHolding_cons hp]

theorem penaltyFinders_eq {n : Nat} {rows : List (List Bool)} (h : IsSquare n rows) :
    penaltyFinders standard n rows = 40 * sumOverLines n rows fun line =>
      windowsHolding n finderPattern1 line + windowsHolding n finderPattern2 line := by
  rw [penaltyFinders, sum_map_linesOf h]
  refine congrArg (40 * ·) (sumOverLines_congr h fun line hline => ?_)
  rw [patternMatches_eq_windowsHolding rfl, patternMatches_eq_windowsHolding rfl, hline]

/-- Settles O51: a place holds a pattern when the rest of the line begins with it. -/
theorem finderPenaltyCountsBothPatterns : Obligations.FinderPenaltyCountsBothPatterns :=
  fun _ _ h => penaltyFinders_eq h

/-- No place holds both patterns, which differ in their first module. -/
theorem windowsHolding_finders_le (n : Nat) (line : List Bool) :
    windowsHolding n finderPattern1 line + windowsHolding n finderPattern2 line ≤ n - 10 := by
  refine (Nat.add_le_add_left (List.countP_mono_left fun i _ h2 => ?_) _).trans
    ((List.length_eq_countP_add_countP _).symm.le.trans_eq List.length_range)
  refine decide_eq_true fun h1 => ?_
  have hdark : line.getD i false = true := getD_of_holdsAt h1 (by decide : 0 < 11)
  have hlight : line.getD i false = false := getD_of_holdsAt h2 (by decide : 0 < 11)
  exact Bool.false_ne_true (hlight.symm.trans hdark)

theorem penaltyFinders_le {n : Nat} {rows : List (List Bool)} (h : IsSquare n rows) :
    penaltyFinders standard n rows ≤ 40 * (2 * n * (n - 10)) := by
  rw [penaltyFinders_eq h]
  exact Nat.mul_le_mul_left 40 (sumOverLines_le h fun line _ => windowsHolding_finders_le n line)

/-! ### Rule (d) -/

section

variable {n : Nat} {rows : List (List Bool)} (h : IsSquare n rows)

include h

/-- The dark modules, counted row by row and column by column. -/
theorem darkCount_eq_sum : darkCount rows =
    ((List.range n).map fun r => (List.range n).countP fun c => cell rows r c).sum := by
  rw [darkCount]
  conv_lhs => rw [← map_rowLine_range h, List.map_map]
  refine congrArg List.sum (List.map_congr_left fun r hr => ?_)
  have hlen := rowLine_length h (List.mem_range.mp hr)
  have hrow := map_getD_range (rowLine rows r) false
  rw [hlen] at hrow
  rw [Function.comp_apply, ← hrow, List.count, List.countP_map]
  simp [Function.comp_def, cell, rowLine]

theorem darkCount_le : darkCount rows ≤ n * n := by
  obtain ⟨hlen, hrow⟩ := h
  have hsum := List.sum_le_card_nsmul (rows.map fun row => row.count true) n (by
    simpa using fun row hmem => List.count_le_length.trans_eq (hrow row hmem))
  simpa [darkCount, hlen] using hsum

end

theorem absDifference_eq_natAbs (a b : Nat) : absDifference a b = ((a : Int) - b).natAbs := by
  unfold absDifference
  omega

/-- Settles O52: the difference over the integers is that over the naturals, taken both ways. -/
theorem balancePenaltyMeasuresTheDarkShare : Obligations.BalancePenaltyMeasuresTheDarkShare := by
  intro n dark rows h hdark
  rw [← darkCount_eq_sum h] at hdark
  rw [penaltyBalance, absDifference_eq_natAbs, hdark]
  rfl

theorem penaltyBalance_le {n : Nat} {rows : List (List Bool)} (h : IsSquare n rows) :
    penaltyBalance standard n rows ≤ 100 := by
  have hdark := darkCount_le h
  have hdiff : absDifference (2 * darkCount rows) (n * n) ≤ n * n := by
    unfold absDifference
    omega
  have hshare : absDifference (2 * darkCount rows) (n * n) * 10 / (n * n) ≤ 10 :=
    Nat.div_le_of_le_mul (Nat.mul_le_mul_right 10 hdiff)
  exact Nat.mul_le_mul_left 10 hshare

/-! ### The four together -/

/-- The four penalties of a matrix that is no larger than the largest fit a word together (10_state.md section 7). -/
theorem sum_of_penalties_lt {n : Nat} {rows : List (List Bool)} (hn : n ≤ 177) (h : IsSquare n rows) :
    penaltyRuns standard n rows + penaltyWindows standard rows + penaltyFinders standard n rows +
      penaltyBalance standard n rows < 2 ^ 22 := by
  have hruns : penaltyRuns standard n rows ≤ 2 * 177 * (177 - 2) := (penaltyRuns_le h).trans (by gcongr)
  have hwindows : penaltyWindows standard rows ≤ 3 * (177 - 1) ^ 2 := (penaltyWindows_le h).trans (by gcongr)
  have hfinders : penaltyFinders standard n rows ≤ 40 * (2 * 177 * (177 - 10)) :=
    (penaltyFinders_le h).trans (by gcongr)
  have hbalance := penaltyBalance_le h
  omega

end Sys2Proof.Machine
end

section
/-! PROOFS. What `SCORE` does (spec 44_mask_scorer.md section 7): the choice of the lowest total, the words the
penalties are recorded in, and the dependence on the modules of the N by N area alone. -/

namespace Sys2Proof.Machine

/-! ### The choice -/

/-- Walking on from `b` through later indices, and moving only to a smaller value, ends at the least index of the
smallest value met. -/
theorem foldl_least_minimal (f : Fin 8 → Nat) (b : Fin 8) (later : List (Fin 8))
    (hsorted : (b :: later).Pairwise (· < ·)) {r : Fin 8}
    (hr : r = later.foldl (fun b j => if f j < f b then j else b) b) :
    ∀ j ∈ b :: later, f r ≤ f j ∧ (j < r → f r < f j) := by
  induction later generalizing b with
  | nil => simp [hr]
  | cons x rest ih =>
    obtain ⟨hb, hrest⟩ := List.pairwise_cons.mp hsorted
    have hbx := hb x List.mem_cons_self
    rw [List.foldl_cons] at hr
    split_ifs at hr with hlower
    · have hleast := ih x hrest hr
      have hlt : f r < f b := (hleast x List.mem_cons_self).1.trans_lt hlower
      exact List.forall_mem_cons.mpr ⟨⟨hlt.le, fun _ => hlt⟩, hleast⟩
    · have hskip := List.pairwise_cons.mpr ⟨fun j hj => hb j (List.mem_cons_of_mem x hj), hrest.of_cons⟩
      obtain ⟨hfirst, hleast⟩ := List.forall_mem_cons.mp (ih b hskip hr)
      have hx : f b ≤ f x := not_lt.mp hlower
      refine List.forall_mem_cons.mpr ⟨hfirst, List.forall_mem_cons.mpr ⟨⟨?_, fun hxr => ?_⟩, hleast⟩⟩
      · exact hfirst.1.trans hx
      · exact (hfirst.2 (hbx.trans hxr)).trans_le hx

/-- The choice is the least index whose total is minimal (R192). -/
theorem isBest_bestMask (pen : Vector Word 8) : IsBest pen (bestMask pen) := by
  have hleast := foldl_least_minimal (fun j => (pen.get j).toNat) 0 [1, 2, 3, 4, 5, 6, 7] (by decide) rfl
  have hall (j : Fin 8) : j ∈ ([0, 1, 2, 3, 4, 5, 6, 7] : List (Fin 8)) := by fin_cases j <;> decide
  exact ⟨fun j => (hleast j (hall j)).1, fun j => (hleast j (hall j)).2⟩

/-- `BEST` holds every index. -/
theorem toNat_ofNat_fin_eight (b : Fin 8) : (BitVec.ofNat 3 b.val).toNat = b :=
  Nat.mod_eq_of_lt b.isLt

/-! ### The penalties as words -/

/-- The four penalties of a matrix and their total, which no word cuts (R191, R193; 10_state.md section 7). -/
theorem rulePenalties_toNat {n : Nat} {rows : List (List Bool)} (hn : n ≤ 177) (h : IsSquare n rows)
    {q : Vector Word 4} (hq : q = rulePenalties standard n rows) :
    (q.get 0).toNat = penaltyRuns standard n rows ∧ (q.get 1).toNat = penaltyWindows standard rows ∧
    (q.get 2).toNat = penaltyFinders standard n rows ∧ (q.get 3).toNat = penaltyBalance standard n rows ∧
    (totalPenalty q).toNat = (q.get 0).toNat + (q.get 1).toNat + (q.get 2).toNat + (q.get 3).toNat := by
  have hsum := sum_of_penalties_lt hn h
  have hword {x : Nat} (hx : x < 2 ^ 22) : (BitVec.ofNat 32 x).toNat = x := Nat.mod_eq_of_lt (by omega)
  have hget : (q.get 0).toNat = penaltyRuns standard n rows ∧ (q.get 1).toNat = penaltyWindows standard rows ∧
      (q.get 2).toNat = penaltyFinders standard n rows ∧ (q.get 3).toNat = penaltyBalance standard n rows := by
    subst hq
    exact ⟨hword (by omega), hword (by omega), hword (by omega), hword (by omega)⟩
  obtain ⟨hruns, hwindows, hfinders, hbalance⟩ := hget
  refine ⟨hruns, hwindows, hfinders, hbalance, ?_⟩
  have htotal : totalPenalty q = q.get 0 + q.get 1 + q.get 2 + q.get 3 := rfl
  simp only [htotal, BitVec.toNat_add]
  omega

/-! ### `SCORE` -/

section

variable {s : State} (hphase : s.phase = .streamed)

include hphase

/-- With an Unset module in the N by N area `SCORE` takes `UnsetCell` (R194). -/
theorem exec_score_of_unset (h : hasUnset s.n.toNat s.mod = true) :
    exec .score s = .next (afterFault .unsetCell (encode .score) s) :=
  exec_meets_fault (by simp [hphase]) (beq_of_eq hphase) (if_pos h)

/-- With every module of the N by N area set `SCORE` completes (R193). -/
theorem exec_score_of_set (h : hasUnset s.n.toNat s.mod = false) :
    exec .score s = .next (s.give (respond 0 (scoreMatrix standard s.toBlock))) :=
  exec_completes (beq_of_eq hphase) (if_neg (Bool.eq_false_iff.mp h))

end

/-- What `SCORE` records of candidate `j` (R193). -/
theorem scoreMatrix_get (p : Params) (s : Block) (j : Fin 8) :
    (scoreMatrix p s).penr.get j = rulePenalties p s.n.toNat (candidate p j s.n.toNat s.mod) ∧
    (scoreMatrix p s).pen.get j = totalPenalty ((scoreMatrix p s).penr.get j) := by
  constructor
  · rw [scoreMatrix_penr, perMask_get]
  · rw [scoreMatrix_pen, perMask_get]

/-- Settles O54: the Unset modules are those a read finds, no penalty is cut, and the choice is a walk through the
totals. -/
theorem scoreScoresEveryCandidate : Obligations.ScoreScoresEveryCandidate := by
  refine ⟨rfl, reservedBitsRefused .score, fun s hfault hphase => exec_wrong_phase hfault (beq_false_of_ne hphase),
    fun s r c hphase hr hc hunset => ?_, fun s hphase hn hset => ?_⟩
  · exact exec_score_of_unset hphase ((hasUnset_iff s.mod s.n.isLt.le).mpr ⟨r, c, hr, hc, hunset⟩)
  · have hnone : hasUnset s.n.toNat s.mod = false := Bool.eq_false_iff.mpr fun hsome =>
      have ⟨r, c, hr, hc, hunset⟩ := (hasUnset_iff s.mod s.n.isLt.le).mp hsome
      hset r c hr hc hunset
    refine ⟨_, exec_score_of_set hphase hnone, rfl, rfl, fun j => ?_,
      ⟨bestMask (scoreMatrix standard s.toBlock).pen, toNat_ofNat_fin_eight _, isBest_bestMask _⟩, rfl⟩
    obtain ⟨hpenr, hpen⟩ := scoreMatrix_get standard s.toBlock j
    rw [give_toBlock, respond_block, hpen]
    exact rulePenalties_toNat hn (isSquare_candidate _ _ _ _) hpenr

/-! ### What `SCORE` depends on -/

section

variable {n : Nat} {m m' : Matrix} (hn : n ≤ 2 ^ 8)
  (hm : ∀ r c, r < n → c < n → readModule m r c = readModule m' r c)

include hn hm

/-- Two matrices that read the same in the N by N area have the same rows there. -/
theorem moduleRow_congr {r : Nat} (hr : r < n) : moduleRow n m r = moduleRow n m' r := by
  rw [moduleRow_eq_map m r hn, moduleRow_eq_map m' r hn]
  exact List.map_congr_left fun c hc => hm r c hr (List.mem_range.mp hc)

theorem candidate_congr (p : Params) (k : Nat) : candidate p k n m = candidate p k n m' :=
  List.map_congr_left fun r hr => by rw [moduleRow_congr hn hm (List.mem_range.mp hr)]

theorem hasUnset_congr : hasUnset n m = hasUnset n m' := by
  refine Bool.eq_iff_iff.mpr ((hasUnset_iff m hn).trans (Iff.trans ?_ (hasUnset_iff m' hn).symm))
  refine exists_congr fun r => exists_congr fun c => and_congr_right fun hr => and_congr_right fun hc => ?_
  rw [hm r c hr hc]

end

/-- Settles O55: the check and the candidates are functions of `N` and the modules read in the N by N area, and all
that `SCORE` decides is a function of these. -/
theorem scoreDependsOnlyOnTheMatrix : Obligations.ScoreDependsOnlyOnTheMatrix := by
  intro s u s' u' hs hu hn hm h h'
  have hcheck : hasUnset s.n.toNat s.mod = hasUnset u.n.toNat u.mod := hn ▸ hasUnset_congr s.n.isLt.le hm
  have hpenr : (scoreMatrix standard s.toBlock).penr = (scoreMatrix standard u.toBlock).penr := by
    rw [scoreMatrix_penr, scoreMatrix_penr, ← hn]
    simp only [candidate_congr s.n.isLt.le hm]
  have hpen : (scoreMatrix standard s.toBlock).pen = (scoreMatrix standard u.toBlock).pen := by
    rw [scoreMatrix_pen, scoreMatrix_pen, hpenr]
  cases hunset : hasUnset s.n.toNat s.mod with
  | true =>
    rw [exec_score_of_unset hs hunset] at h
    rw [exec_score_of_unset hu (hcheck.symm.trans hunset)] at h'
    cases h
    cases h'
    exact ⟨rfl, rfl, nofun⟩
  | false =>
    rw [exec_score_of_set hs hunset] at h
    rw [exec_score_of_set hu (hcheck.symm.trans hunset)] at h'
    cases h
    cases h'
    exact ⟨rfl, rfl, fun _ => ⟨hpen, hpenr, by simp only [give_toBlock, respond_block, scoreMatrix_best, hpen]⟩⟩

end Sys2Proof.Machine
end

section
/-! PROOFS. What the read-out commands do (spec 45_readout.md): the register map, the phases each command is legal
in, the codewords of the three buffers, and the modules as a selection shows them. -/

namespace Sys2Proof.Machine

/-! ### The register map -/

section

variable {s : State} {addr : Nat} {v : Word}

/-- `RDR` is legal in every phase, so a mapped address completes (R210). -/
theorem rdrReturns_of_mapped (h : readRegister s.toBlock addr = some v) : RdrReturns s addr v :=
  exec_eq_afterResponse rfl (by simp only [bodyOf, rdrBody, h])

/-- A register shorter than a word reads as its value: its unused bits are 0 (10_state.md R37). -/
theorem rdrReturns_of_short_register {w : Nat} {x : BitVec w}
    (h : readRegister s.toBlock addr = some (x.setWidth 32)) : RdrReturns s addr (BitVec.ofNat 32 x.toNat) := by
  rw [BitVec.ofNat_toNat]
  exact rdrReturns_of_mapped h

theorem rdrBody_of_unmapped {b : Block} (h : readRegister b addr = none) : rdrBody addr b = .error .badOperand := by
  simp only [rdrBody, h]

end

/-- `STATUS` with its fields in the order of their bits (10_state.md R21). -/
theorem statusWord_eq (s : Block) :
    statusWord s = BitVec.ofNat 32 (s.phase.code.toNat + 2 ^ 4 * (errCode s.err).toNat) := by
  rw [statusWord, Nat.add_comm, Nat.mul_comm]

/-- `CFGR` with its fields in the order of their bits (10_state.md R25). -/
theorem cfgrWord_eq (s : Block) : cfgrWord s = BitVec.ofNat 32 (s.ver.toNat + 2 ^ 6 * s.ecl.toNat) := by
  rw [cfgrWord, Nat.add_comm, Nat.mul_comm]

theorem readRegister_pen (s : Block) (j : Fin 8) : readRegister s (0x10 + j) = some (s.pen.get j) := by
  fin_cases j <;> rfl

theorem readRegister_penr (s : Block) (j : Fin 8) (l : Fin 4) :
    readRegister s (0x20 + 4 * j + l) = some ((s.penr.get j).get l) := by
  have hj : (0x20 + 4 * (j : Nat) + l - 0x20) / 4 = j := by omega
  have hl : (0x20 + 4 * (j : Nat) + l - 0x20) % 4 = l := by omega
  simp (disch := omega) only [readRegister, if_neg, dif_neg, dif_pos, hj, hl]
  rfl

/-- The addresses between and beyond the registers (10_state.md R38). -/
theorem readRegister_unmapped (s : Block) {addr : Nat}
    (h : addr = 0x0D ∨ addr = 0x0E ∨ (0x18 ≤ addr ∧ addr ≤ 0x1F) ∨ (0x40 ≤ addr ∧ addr ≤ 0xFF)) :
    readRegister s addr = none := by
  simp (disch := omega) only [readRegister, if_neg, dif_neg]

/-- A command legal in `FAULT` that meets a fault condition there is refused (60_exceptions.md R227). -/
theorem exec_refused {i : Instr} {s : State} {c : FaultCode} (hphase : s.phase = .fault)
    (hlegal : legalIn i s.phase = true) (hbody : bodyOf standard i s.toBlock = .error c) :
    exec i s = .next { s with response := some ⟨false, 0⟩ } := by
  rw [exec_eq, perform_meets_fault hlegal hbody, fail_of_fault hphase]
  rfl

/-- Settles O56: each mapped address reads its register, which fills the word from bit 0, and an unmapped one is a
fault condition. -/
theorem rdrReadsTheRegisterMap : Obligations.RdrReadsTheRegisterMap := by
  refine ⟨⟨reservedBitsRefused (.rdr 0), fun addr haddr => encode_toNat (i := .rdr addr) (decide_eq_true haddr)⟩,
    by decide, fun s => ⟨?status, ?cfgr, ?n, ?tot, ?dcap, ?k, ?nb1, ?dc1, ?nb2, ?dc2, ?bitlen, ?best, ?finfo, ?ID,
      fun j => ?pen, fun j l => ?penr, fun addr hno => ?unmapped⟩⟩
  case status => exact rdrReturns_of_mapped (congrArg some (statusWord_eq s.toBlock))
  case cfgr => exact rdrReturns_of_mapped (congrArg some (cfgrWord_eq s.toBlock))
  case n | tot | dcap | k | nb1 | dc1 | nb2 | dc2 | bitlen | best => exact rdrReturns_of_short_register rfl
  case finfo | ID => exact rdrReturns_of_mapped rfl
  case pen => exact rdrReturns_of_mapped (readRegister_pen _ j)
  case penr => exact rdrReturns_of_mapped (readRegister_penr _ j l)
  case unmapped =>
    have hbody := rdrBody_of_unmapped (readRegister_unmapped s.toBlock hno)
    exact ⟨fun hphase => exec_meets_fault hphase rfl hbody, fun hphase => exec_refused hphase rfl hbody⟩

/-! ### The phases of the read-out commands -/

/-- In an earlier phase than its own a read-out command takes `BadPhase` (R211 to R214; 20_memory.md R76). -/
theorem exec_read_wrong_phase {i : Instr} {s : State} (hread : IsRead i) (h : WrongPhase i s.phase) :
    exec i s = .next (afterFault .badPhase (encode i) s) := by
  obtain ⟨hfault, hillegal⟩ : s.phase ≠ .fault ∧ legalIn i s.phase = false := by
    generalize s.phase = q at h ⊢
    cases i with
    | rdd => rcases h with rfl | rfl <;> exact ⟨nofun, rfl⟩
    | rde => rcases h with rfl | rfl | rfl <;> exact ⟨nofun, rfl⟩
    | rdo | rdm => rcases h with rfl | rfl | rfl | rfl <;> exact ⟨nofun, rfl⟩
    | rdr | gfmul | gfdiv | gfexp | gflog | genc => exact h.elim
    | _ => exact hread.elim
  exact exec_wrong_phase hfault hillegal

section

variable {idx row col msel : Nat} {q : Phase}

theorem legalIn_rdd : legalIn (.rdd idx) q = true ↔ q = .filled ∨ q = .coded ∨ q = .streamed ∨ q = .masked := by
  simp [legalIn, or_assoc]

theorem legalIn_rde : legalIn (.rde idx) q = true ↔ q = .coded ∨ q = .streamed ∨ q = .masked := by
  simp [legalIn, or_assoc]

theorem legalIn_rdo : legalIn (.rdo idx) q = true ↔ q = .streamed ∨ q = .masked := by
  simp [legalIn]

theorem legalIn_rdm : legalIn (.rdm row col msel) q = true ↔ q = .streamed ∨ q = .masked := by
  simp [legalIn]

end

/-- A command that is not legal in `FAULT` is legal outside it only. -/
theorem ne_fault_of_legalIn {i : Instr} {q : Phase} (hlegal : legalIn i q = true) (h : legalIn i .fault = false) :
    q ≠ .fault := by
  rintro rfl
  exact Bool.false_ne_true (h.symm.trans hlegal)

/-! ### The buffers -/

/-- A codeword read-out command in a phase where it is legal: the index check, and the codeword as a word (R215). -/
theorem exec_readEntry {i : Instr} {s : State} {m : Buffer} {valid idx : Nat} (hlegal : legalIn i s.phase = true)
    (hfault : legalIn i .fault = false) (hbody : bodyOf standard i s.toBlock = readEntry m valid idx s.toBlock) :
    (valid ≤ idx → exec i s = .next (afterFault .badOperand (encode i) s)) ∧
    (idx < valid → exec i s = .next (afterResponse (BitVec.ofNat 32 (readCodeword m idx).toNat) s)) := by
  refine ⟨fun h => ?_, fun h => ?_⟩
  · exact exec_meets_fault (ne_fault_of_legalIn hlegal hfault) hlegal (hbody.trans (if_pos h))
  · rw [BitVec.ofNat_toNat]
    exact exec_eq_afterResponse hlegal (hbody.trans (if_neg h.not_ge))

/-- Settles O57: the three commands differ in the phases they are legal in, the buffer and the number of its valid
entries. -/
theorem bufferReadsReturnTheirCodeword : Obligations.BufferReadsReturnTheirCodeword := by
  refine ⟨⟨reservedBitsRefused (.rdd 0), reservedBitsRefused (.rde 0), reservedBitsRefused (.rdo 0)⟩,
    fun s idx hidx => ?_⟩
  have hwf : decide (idx < 2 ^ 12) = true := decide_eq_true hidx
  refine ⟨⟨?_, ?_, fun h => ?_⟩, ⟨?_, ?_, fun h => ?_⟩, ⟨?_, ?_, fun h => ?_⟩⟩
  · exact encode_toNat (i := .rdd idx) hwf
  · exact exec_read_wrong_phase (i := .rdd idx) trivial
  · exact exec_readEntry (legalIn_rdd.mpr h) rfl rfl
  · exact encode_toNat (i := .rde idx) hwf
  · exact exec_read_wrong_phase (i := .rde idx) trivial
  · exact exec_readEntry (legalIn_rde.mpr h) rfl rfl
  · exact encode_toNat (i := .rdo idx) hwf
  · exact exec_read_wrong_phase (i := .rdo idx) trivial
  · exact exec_readEntry (legalIn_rdo.mpr h) rfl rfl

/-! ### The modules -/

/-- The operand checks of `RDM` as one. -/
theorem rdmBody_eq (p : Params) (row col msel : Nat) (s : Block) : rdmBody p row col msel s =
    if s.n.toNat ≤ row ∨ s.n.toNat ≤ col ∨ 9 ≤ msel then .error .badOperand
    else .ok (s, moduleResponse (selectedModule p row col msel (readModule s.mod row col))) := by
  rw [rdmBody, ← ite_or]
  exact if_congr or_assoc rfl rfl

/-- The tag stands above the colour, and the word cuts neither. -/
theorem moduleResponse_toNat (m : Module) : (moduleResponse m).toNat = 2 * m.tag.code.toNat + m.dark.toNat := by
  have htag : m.tag.code.toNat < 2 ^ 2 := m.tag.code.isLt
  have hdark := m.dark.toNat_lt
  rw [moduleResponse, BitVec.toNat_ofNat]
  omega

/-- The responses 1, 6 and 7 are those of no module whose colour is light when it is Unset (R214). -/
theorem moduleResponse_of_light_unset {m : Module} (h : m.tag = .unset → m.dark = false) :
    moduleResponse m = 0 ∨ moduleResponse m = 2 ∨ moduleResponse m = 3 ∨ moduleResponse m = 4 ∨
      moduleResponse m = 5 := by
  obtain ⟨tag, dark⟩ := m
  cases tag with
  | unset => obtain rfl : dark = false := h rfl; decide
  | data | reserved => cases dark <;> decide

section

variable {p : Params} {row col msel : Nat} {m : Module}

@[simp] theorem selectedModule_tag : (selectedModule p row col msel m).tag = m.tag := by
  unfold selectedModule
  split_ifs <;> rfl

theorem selectedModule_dark_of_flipped (h : msel ≤ 7 ∧ m.tag = .data ∧ p.MASKF msel row col = true) :
    (selectedModule p row col msel m).dark = !m.dark := by
  obtain ⟨hmask, hflip⟩ := h
  rw [selectedModule, if_pos (show msel < Config.NMASK from Nat.lt_succ_of_le hmask)]
  exact maskedDark_of_flipped hflip

theorem selectedModule_dark_of_kept (h : ¬(msel ≤ 7 ∧ m.tag = .data ∧ p.MASKF msel row col = true)) :
    (selectedModule p row col msel m).dark = m.dark := by
  unfold selectedModule
  split_ifs with hmask
  · exact maskedDark_of_kept fun hflip => h ⟨Nat.le_of_lt_succ hmask, hflip⟩
  · rfl

end

/-- Settles O58: the operand checks of `RDM`, and the response of the module selected, which has the tag of the
module read and its colour, flipped for a Data module alone. -/
theorem rdmReadsTheSelectedModule : Obligations.RdmReadsTheSelectedModule := by
  refine ⟨reservedBitsRefused (.rdm 0 0 0), fun s row col msel hrow hcol hmsel => ⟨?_, ?_, fun hphase => ?_⟩⟩
  · rw [encode_toNat (i := .rdm row col msel) (by simp [Instr.wf, hrow, hcol, hmsel])]
    simp only [Instr.opcode, Instr.operands, Nat.add_assoc]
  · exact exec_read_wrong_phase (i := .rdm row col msel) trivial
  · have hlegal : legalIn (.rdm row col msel) s.phase = true := legalIn_rdm.mpr hphase
    refine ⟨fun hbad => ?_, fun hr hc hk => ?_⟩
    · exact exec_meets_fault (ne_fault_of_legalIn hlegal rfl) hlegal ((rdmBody_eq _ _ _ _ _).trans (if_pos hbad))
    · have htag {t : Tag} (h : (readModule s.mod row col).tag = t) :
          (selectedModule standard row col msel (readModule s.mod row col)).tag.code.toNat = t.code.toNat := by
        rw [selectedModule_tag, h]
      refine ⟨_, _, _, exec_eq_afterResponse hlegal ((rdmBody_eq _ _ _ _ _).trans (if_neg (by omega))),
        moduleResponse_toNat _, htag, htag, htag, fun h => selectedModule_dark_of_flipped h,
        fun h => selectedModule_dark_of_kept h, fun hlight => moduleResponse_of_light_unset fun hunset => ?_⟩
      rw [selectedModule_tag] at hunset
      rw [selectedModule_dark_of_kept (by simp [hunset])]
      exact hlight _ hunset

end Sys2Proof.Machine
end

section
/-! PROOFS. Faults and the phase `FAULT` (spec 60_exceptions.md R226, R227, R229): a word at the port completes its
command or fails with its code alone, and in `FAULT` a word that is not one of the three let through is refused. -/

namespace Sys2Proof.Machine

/-! ### A step with a command word -/

/-- Everything a step can do with a command word: it is a command whose checks all pass, or it fails, with nothing
but a fault code and the word itself to go by (30_encoding.md R90). -/
theorem step_command_cases {s : State} {cw : Word} {rest : List HostInput} (hi : s.inputs = .command cw :: rest) :
    (∃ i t v, decode cw = .ok i ∧ legalIn i s.phase = true ∧ bodyOf standard i s.toBlock = .ok (t, v) ∧
      step s = .next (State.give { s with inputs := rest } (respond v t))) ∨
    ∃ c, step s = .next (State.give { s with inputs := rest } (fail c cw s.toBlock)) := by
  rw [step_command hi]
  cases hd : decode cw with
  | error e => exact .inr ⟨.illegalCommand, rfl⟩
  | ok i =>
    simp only [exec_eq, ← (encode_of_decode hd).1]
    rcases perform_cases i (bodyOf standard i) s.toBlock with
      ⟨t, v, hlegal, hbody, e⟩ | ⟨c, _, _, e⟩ | ⟨_, e⟩
    · exact .inl ⟨i, t, v, rfl, hlegal, hbody, by rw [e]⟩
    · exact .inr ⟨c, by rw [e]⟩
    · exact .inr ⟨.badPhase, by rw [e]⟩

/-- A step with a word whose command completes and keeps the block changes the port alone. -/
theorem step_eq_afterResponse {s : State} {cw : Word} {rest : List HostInput} {i : Instr} {v : Word}
    (hi : s.inputs = .command cw :: rest) (hd : decode cw = .ok i) (hlegal : legalIn i s.phase = true)
    (hbody : bodyOf standard i s.toBlock = .ok (s.toBlock, v)) :
    step s = .next (afterResponse v { s with inputs := rest }) := by
  rw [step_command hi, hd]
  exact exec_eq_afterResponse hlegal hbody

/-! ### Fault entry -/

/-- No command that completes enters `FAULT` (10_state.md R22). -/
theorem PhaseMove.ne_fault {i : Instr} {q q' : Phase} (h : PhaseMove i q q') (hq : q ≠ .fault) : q' ≠ .fault := by
  cases h with
  | stay => exact hq
  | reset | configure | fill | code | interleave | score => exact nofun

/-- Settles O13: a command that completes stays outside `FAULT` and responds with `ok` set; a word that fails
outside `FAULT` is the fault entry. -/
theorem faultsArePrecise : Obligations.FaultsArePrecise := by
  intro s t cw rest hi hphase h
  rcases step_command_cases hi with ⟨i, u, v, _, hlegal, hbody, hstep⟩ | ⟨c, hstep⟩
  · cases h.symm.trans hstep
    have hne : u.phase ≠ .fault := (phaseMove_of_completion hlegal (completion_of_bodyOf hbody)).ne_fault hphase
    exact ⟨fun hfault => absurd hfault hne, fun hfault => absurd hfault hne, fun ⟨_, hr⟩ => by cases hr⟩
  · rw [fail_of_ne_fault hphase] at hstep
    cases h.symm.trans hstep
    exact ⟨fun _ => ⟨c, rfl⟩, fun _ => ⟨0, rfl⟩, fun _ => rfl⟩

/-! ### In `FAULT` -/

/-- The words of `RDR` (30_encoding.md R83, R86). -/
theorem decode_eq_rdr_iff {cw : Word} {addr : Nat} : decode cw = .ok (.rdr addr) ↔
    (field cw 31 24 = 0x40 ∧ field cw 23 8 = 0) ∧ field cw 7 0 = addr := by
  have hword (h : field cw 31 24 = 0x40 ∧ field cw 23 8 = 0) : decode cw = .ok (.rdr (field cw 7 0)) := by
    simp only [decode, h.1, whenReservedZero, h.2, if_true]
  constructor
  · intro hd
    obtain ⟨rfl, hwf⟩ := encode_of_decode hd
    have hfields := And.intro (field_opcode_encode hwf) (field_reserved_encode hwf)
    exact ⟨hfields, (Instr.rdr.inj (Except.ok.inj (hd.symm.trans (hword hfields)))).symm⟩
  · rintro ⟨hfields, rfl⟩
    exact hword hfields

/-- `RDR` completes only at a mapped address (R227). -/
theorem readRegister_of_rdrBody {b t : Block} {addr : Nat} {v : Word} (h : rdrBody addr b = .ok (t, v)) :
    readRegister b addr = some v := by
  cases hread : readRegister b addr with
  | none => cases (rdrBody_of_unmapped hread).symm.trans h
  | some w =>
    simp only [rdrBody, hread] at h
    cases h
    rfl

/-- Settles O14: of the commands legal in `FAULT`, `NOP` and `RST` have one word each, and `RDR` fails at an
unmapped address; a word that fails in `FAULT` is refused. -/
theorem faultPhaseRefusesTheRest : Obligations.FaultPhaseRefusesTheRest := by
  intro s cw rest hphase hi
  refine ⟨?nop, ?rst, fun v hop hres hread => ?rdr, fun hnop hrst hrdr => ?refused⟩
  case nop =>
    rintro rfl
    exact step_eq_afterResponse hi (i := .nop) rfl rfl rfl
  case rst =>
    rintro rfl
    exact ⟨_, step_command hi, rfl, rfl⟩
  case rdr =>
    exact step_eq_afterResponse hi (decode_eq_rdr_iff.mpr ⟨⟨hop, hres⟩, rfl⟩) rfl
      (by simp only [bodyOf, rdrBody, hread])
  case refused =>
    rcases step_command_cases hi with ⟨i, t, v, hd, hlegal, hbody, _⟩ | ⟨c, hstep⟩
    · rw [hphase] at hlegal
      rcases legalIn_fault hlegal with rfl | rfl | ⟨addr, rfl⟩
      · exact absurd (encode_of_decode hd).1.symm hnop
      · exact absurd (encode_of_decode hd).1.symm hrst
      · obtain ⟨⟨hop, hres⟩, rfl⟩ := decode_eq_rdr_iff.mp hd
        exact absurd ⟨hop, hres, v, readRegister_of_rdrBody hbody⟩ hrdr
    · rw [hstep, fail_of_fault hphase]
      rfl

/-- Settles O15: of the four kinds of word in `FAULT`, all but that of `RST` keep the phase, as an idle step does. -/
theorem onlyResetLeavesFault : Obligations.OnlyResetLeavesFault := by
  intro s t hphase h hleft
  have leaves {u : State} (hstep : step s = .next u) : u.phase ≠ .fault := by
    cases h.symm.trans hstep
    exact hleft
  rcases hi : s.inputs with _ | ⟨cw | _, rest⟩
  · exact absurd hphase (leaves (step_idle hi))
  · obtain ⟨hnop, hrst, hrdr, hrefused⟩ := faultPhaseRefusesTheRest s cw rest hphase hi
    have hcw : cw = 0x01000000 := by
      by_contra hne
      by_cases hzero : cw = 0x00000000
      · exact leaves (hnop hzero) hphase
      by_cases hread : field cw 31 24 = 0x40 ∧ field cw 23 8 = 0 ∧
          ∃ v, readRegister s.toBlock (field cw 7 0) = some v
      · obtain ⟨hop, hres, v, hv⟩ := hread
        exact leaves (hrdr v hop hres hv) hphase
      · exact leaves (hrefused hzero hne hread) hphase
    obtain ⟨u, hstep, hreset, _⟩ := hrst hcw
    cases h.symm.trans hstep
    exact ⟨hreset, .inr ⟨rest, by rw [hcw]⟩⟩
  · cases h.symm.trans (step_resetPulse hi)
    exact ⟨rfl, .inl ⟨rest, rfl⟩⟩

end Sys2Proof.Machine
end

section
/-! PROOFS. The two resets and the state they lead to (spec 70_reset_and_hazards.md R250, R251; 40_control.md R111). -/

namespace Sys2Proof.Machine

/-! ### The ways to the reset state -/

/-- `RST` is legal in every phase, and its body has no check (40_control.md R111). -/
theorem exec_rst (s : State) : exec .rst s = .next (s.give (respond 0 Block.reset)) :=
  exec_completes rfl rfl

/-- In `MASKED` and `FAULT` no command but `RST` has a move of its own (10_state.md R22). -/
theorem PhaseMove.eq_of_masked_or_fault {i : Instr} {q q' : Phase} (h : PhaseMove i q q')
    (hq : q = .masked ∨ q = .fault) (hne : i ≠ .rst) : q' = q := by
  cases h with
  | stay => rfl
  | reset => exact absurd rfl hne
  | configure | fill | code | interleave | score => rcases hq with hq | hq <;> cases hq

/-- Settles O8: the reset input and the body of `RST` both put `Block.reset` for the block, whatever it was; no other
command moves the phase out of `MASKED` or `FAULT`, and all 24 bits below the opcode of `RST` are reserved. -/
theorem bothResetsGiveTheResetState : Obligations.BothResetsGiveTheResetState := by
  refine ⟨fun s rest hi => ⟨_, step_resetPulse hi, rfl⟩, fun s => ⟨_, exec_rst s, rfl, rfl, ?unbuilt⟩,
    fun i s t h hq hne => ?leaves, rfl, reservedBitsRefused .rst⟩
  case unbuilt =>
    exact fun hphase herr hreset => (hreset hphase herr).symm
  case leaves =>
    rcases exec_phaseMove h with hmove | ⟨hfault, _⟩
    · exact .inl (hmove.eq_of_masked_or_fault hq hne)
    · exact .inr hfault

/-! ### The items of the reset state -/

/-- Every penalty total is 0 (R251). -/
@[simp] theorem reset_pen_get (j : Fin 8) : Block.reset.pen.get j = 0 := Vector.getElem_replicate j.isLt

/-- Every penalty of one rule is 0 (R251). -/
@[simp] theorem reset_penr_get_get (j : Fin 8) (l : Fin 4) : (Block.reset.penr.get j).get l = 0 := by
  have hrules : Block.reset.penr.get j = Vector.replicate 4 0 := Vector.getElem_replicate j.isLt
  rw [hrules]
  exact Vector.getElem_replicate l.isLt

/-- Settles O9: the registers by their values in `Block.reset`, the buffers and the matrix because nothing is listed in
them, the penalties by `reset_pen_get` and `reset_penr_get_get`; `ID` is no state. -/
theorem resetStateItemByItem : Obligations.ResetStateItemByItem :=
  ⟨rfl, rfl, rfl, rfl, rfl, rfl, rfl, rfl, rfl, rfl, rfl, rfl, rfl, rfl,
    readCodeword_nil, readCodeword_nil, readCodeword_nil, readModule_nil,
    reset_pen_get, reset_penr_get_get, rfl, fun _ => rfl⟩

end Sys2Proof.Machine
end

section
/-! PROOFS. Commands and their words both ways (spec 30_encoding.md sections 2 and 3). -/

namespace Sys2Proof

/-- A well-formed command is read back from its word: the opcode selects its arm, the reserved bits of its format
are 0, and each operand stands where the arm looks for it. -/
theorem decode_encode {i : Instr} (h : i.wf = true) : decode (encode i) = .ok i := by
  have hop := field_opcode_encode h
  have hreserved := field_reserved_encode h
  have hnum := encode_toNat h
  cases i
  all_goals
    simp only [Instr.opcode, Instr.reserved] at hop hreserved
    simp only [Instr.wf, Bool.and_eq_true, decide_eq_true_eq] at h
    simp only [Instr.opcode, Instr.operands] at hnum
    simp only [decode, hop, whenReservedZero, hreserved, if_true]
  -- what is left are the commands with operands
  all_goals
    simp only [field, hnum]
    refine congrArg Except.ok ?_
  case mset dark =>
    have hdark := dark.toNat_lt
    congr 1
    · omega
    · omega
    · omega
    · cases dark <;> simp <;> omega
  all_goals congr 1 <;> omega

/-- Settles O1: the arm of the command's opcode reads every operand back. -/
theorem decodeOfEncodeIsTheCommand : Obligations.DecodeOfEncodeIsTheCommand := fun _ => decode_encode

/-- Settles O2: a command determines its word, arm by arm of the decoder. -/
theorem encodeOfDecodeIsTheWord : Obligations.EncodeOfDecodeIsTheWord := fun _ _ => encode_of_decode

/-- Settles O4: each of the nine words is decoded as it stands. -/
theorem printedWordsDecode : Obligations.PrintedWordsDecode :=
  ⟨rfl, rfl, rfl, rfl, rfl, rfl, rfl, rfl, rfl⟩

end Sys2Proof
end

section
/-! PROOFS. A step as the block's own function of state and word (spec 30_encoding.md sections 1, 5 and 6), and the
runs of the machine as the runs of the block. -/

namespace Sys2Proof.Machine

/-! ### The step and the block's function -/

/-- A step with a command word at the input gives what the block makes of the word. -/
theorem step_eq_blockStep {s : State} {cw : Word} {rest : List HostInput} (hi : s.inputs = .command cw :: rest) :
    step s = .next (State.give { s with inputs := rest } (blockStep standard s.toBlock cw)) := by
  rw [step_command hi]
  cases hd : decode cw with
  | ok i => simp only [exec_eq, blockStep_command hd]
  | error e => simp only [blockStep_illegal hd]

/-- Settles O5: the next word is taken and its command executed; a well-formed command is decoded from its word. -/
theorem stepRunsTheDecodedCommand : Obligations.StepRunsTheDecodedCommand := by
  refine ⟨fun s cw rest i hi hd => ?_, fun s i hwf => ?_, fun s cw rest hi => step_eq_blockStep hi⟩
  · simp only [step_command hi, hd]
  · have hword : BitVec.ofNat 32 ((encode i).toNat % 2 ^ 32) = encode i := by
      rw [Nat.mod_eq_of_lt (encode i).isLt, BitVec.ofNat_toNat, BitVec.setWidth_eq]
    rw [step_command (withFetchWord_inputs s 32 _), hword, decode_encode hwf]
    rfl

/-! ### One response for each word -/

/-- A response whose `ok` is 0 carries the value 0 (30_encoding.md R93). -/
theorem blockStep_response (p : Params) (s : Block) (cw : Word) (h : (blockStep p s cw).2.ok = false) :
    (blockStep p s cw).2.resp = 0 := by
  cases hd : decode cw with
  | error e => rw [blockStep_illegal hd, illegalWord, fail_response]
  | ok i =>
    rw [blockStep_command hd] at h ⊢
    rcases perform_cases i (bodyOf p i) s with ⟨t, v, -, -, e⟩ | ⟨c, -, -, e⟩ | ⟨-, e⟩
    · rw [e] at h
      cases h
    · rw [e, fail_response]
    · rw [e, fail_response]

theorem run_commands_length (p : Params) (s : Block) (words : List Word) :
    (run p s (words.map .command)).1.length = words.length := by
  induction words generalizing s with
  | nil => rfl
  | cons cw words ih => simp only [List.map_cons, run_command, List.length_cons, ih]

/-- A run whose last input is a command word has a response. -/
theorem run_responses_ne_nil (p : Params) (s : Block) (before : List HostInput) (cw : Word) :
    (run p s (before ++ [.command cw])).1 ≠ [] := by
  induction before generalizing s with
  | nil => exact List.cons_ne_nil _ _
  | cons input before ih =>
    cases input with
    | command => exact List.cons_ne_nil _ _
    | resetPulse => exact ih _

/-- One step of the machine on the first of the inputs, then the others. -/
theorem core_run_succ {s t : State} (n : Nat) (h : step s = .next t) :
    Host.Core.run core (n + 1) s = Host.Core.run core n t := by
  have hstep : core.step s = .next t := h
  simp only [Host.Core.run, hstep]

/-- The machine stepped to the end of its inputs is in the state of the block's run, and has given the last response
of that run where the last input is a command word. -/
theorem core_run_inputs (inputs : List HostInput) (s : State) (hi : s.inputs = inputs) :
    ∃ t : State, Host.Core.run core inputs.length s = .next t ∧ t.inputs = [] ∧
      t.toBlock = (run standard s.toBlock inputs).2 ∧
      ∀ (before : List HostInput) (cw : Word), inputs = before ++ [.command cw] →
        t.response = (run standard s.toBlock inputs).1.getLast? := by
  induction inputs generalizing s with
  | nil => exact ⟨s, rfl, hi, rfl, fun before cw h => absurd h (by simp)⟩
  | cons input rest ih =>
    cases input with
    | command cw =>
      obtain ⟨t, hrun, hempty, hblock, hlast⟩ :=
        ih (State.give { s with inputs := rest } (blockStep standard s.toBlock cw)) rfl
      refine ⟨t, (core_run_succ _ (step_eq_blockStep hi)).trans hrun, hempty, hblock, fun before cw' h => ?_⟩
      cases before with
      | nil =>
        cases h
        cases hrun
        rfl
      | cons b before =>
        obtain ⟨-, rfl⟩ := List.cons.inj h
        exact (hlast before cw' rfl).trans
          (List.getLast?_cons_of_ne_nil (run_responses_ne_nil standard _ before cw')).symm
    | resetPulse =>
      obtain ⟨t, hrun, hempty, hblock, hlast⟩ := ih (resetInput { s with inputs := rest }) rfl
      refine ⟨t, (core_run_succ _ (step_resetPulse hi)).trans hrun, hempty, hblock, fun before cw h => ?_⟩
      cases before with
      | nil => cases h
      | cons b before => exact hlast before cw (List.cons.inj h).2

/-- Settles O7: a step gives what the block's function makes of the word, so that a run of the machine is the block's
run. -/
theorem everyWordGetsOneResponse : Obligations.EveryWordGetsOneResponse := by
  refine ⟨fun s cw rest hi => ?_, fun s rest hi => ⟨_, step_resetPulse hi, rfl, rfl⟩, run_commands_length,
    fun s => core_run_inputs s.inputs s rfl⟩
  exact ⟨_, _, step_eq_blockStep hi, rfl, rfl, blockStep_response standard s.toBlock cw⟩

/-! ### The phase check -/

/-- The phase check fails in the phases that the opcode map does not list for the command (30_encoding.md R86). -/
theorem legalIn_of_wrongPhase {i : Instr} {q : Phase} (h : WrongPhase i q) : legalIn i q = false := by
  cases i with
  | nop | rst | rdr | gfmul | gfdiv | gfexp | gflog | genc => exact h.elim
  | cfg | putb | phdr | pnum1 | pnum2 | pnum3 | paln1 | paln2 | pbyte | pfin | ecc | ilv | mset | score =>
    exact beq_false_of_ne h
  | rdd => rcases h with rfl | rfl <;> rfl
  | rde => rcases h with rfl | rfl | rfl <;> rfl
  | rdo | rdm => rcases h with rfl | rfl | rfl | rfl <;> rfl

/-- Settles O17: the phase check comes before every check of the command's own. -/
theorem wrongPhaseTakesBadPhase : Obligations.WrongPhaseTakesBadPhase := fun _ _ hphase hwrong =>
  exec_wrong_phase hphase (legalIn_of_wrongPhase hwrong)

end Sys2Proof.Machine
end

section
/-! PROOFS. What every step keeps (spec 10_state.md section 7): a property that holds at reset and that every completed
command and every fault keep is kept by every step. First the canonical form of the buffers and the matrix, and the
fault registers. -/

namespace Sys2Proof.Machine

/-! ### Everything a step can make of the block -/

/-- Of all a command can make of the block, `RST` makes only the reset state (40_control.md R111). -/
theorem eq_reset_of_completion {p : Params} {s t : Block} (h : Completion p s .rst t) : t = Block.reset := by
  cases h with
  | reset => rfl
  | read hread => exact hread.elim
  | append hpack => exact hpack.elim

/-- Everything a step can make of the block: nothing; the reset state; what a command completes with; or, outside
`FAULT`, a fault. The word of a fault is never 0: that word is `NOP`, which completes in every phase. -/
theorem step_block_cases {s t : State} (h : step s = .next t) :
    t.toBlock = s.toBlock ∨ t.toBlock = Block.reset ∨
    (∃ i, i.wf = true ∧ i ≠ .rst ∧ legalIn i s.phase = true ∧ Completion standard s.toBlock i t.toBlock) ∨
    ∃ c cw, s.phase ≠ .fault ∧ cw ≠ 0 ∧ t.toBlock = (raiseFault c cw s.toBlock).1 := by
  rcases hi : s.inputs with _ | ⟨cw | _, rest⟩
  · cases h.symm.trans (step_idle hi)
    exact .inl rfl
  · by_cases hzero : cw = 0
    · subst hzero
      cases h.symm.trans (step_eq_afterResponse hi (i := .nop) rfl rfl rfl)
      exact .inl rfl
    rcases step_command_cases hi with ⟨i, u, v, hd, hlegal, hbody, hstep⟩ | ⟨c, hstep⟩
    · cases h.symm.trans hstep
      have hcompletion := completion_of_bodyOf hbody
      by_cases hrst : i = .rst
      · subst hrst
        exact .inr (.inl (eq_reset_of_completion hcompletion))
      · exact .inr (.inr (.inl ⟨i, (encode_of_decode hd).2, hrst, hlegal, hcompletion⟩))
    · cases h.symm.trans hstep
      by_cases hphase : s.phase = .fault
      · rw [fail_of_fault hphase]
        exact .inl rfl
      · rw [fail_of_ne_fault hphase]
        exact .inr (.inr (.inr ⟨c, cw, hphase, hzero, rfl⟩))
  · cases h.symm.trans (step_resetPulse hi)
    exact .inr (.inl rfl)

/-- What the reset state has, and what completed commands and faults keep, every step keeps. -/
theorem step_keeps {P : Block → Prop} (hreset : P Block.reset)
    (hcompletes : ∀ (i : Instr) (s t : Block), i.wf = true → i ≠ .rst → legalIn i s.phase = true →
      Completion standard s i t → P s → P t)
    (hfault : ∀ (c : FaultCode) (cw : Word) (s : Block), s.phase ≠ .fault → cw ≠ 0 → P s → P (raiseFault c cw s).1)
    {s t : State} (hs : P s.toBlock) (h : step s = .next t) : P t.toBlock := by
  rcases step_block_cases h with e | e | ⟨i, hwf, hne, hlegal, hcompletion⟩ | ⟨c, cw, hphase, hcw, e⟩
  · rwa [e]
  · rwa [e]
  · exact hcompletes i _ _ hwf hne hlegal hcompletion hs
  · rw [e]
    exact hfault c cw _ hphase hcw hs

/-! ### The canonical form -/

section

variable {p : Params} {s t : Block} {i : Instr}

theorem memoriesCanonical_reset : MemoriesCanonical Block.reset := ⟨⟨rfl, rfl⟩, ⟨rfl, rfl⟩, ⟨rfl, rfl⟩, ⟨rfl, rfl⟩⟩

theorem memoriesCanonical_appendField (v w : Nat) (hs : MemoriesCanonical s) :
    MemoriesCanonical (appendField v w s) := by
  obtain ⟨⟨hwf, hbelow⟩, hrest⟩ := hs
  exact ⟨⟨appendField_wf v w hwf, appendField_below v w hbelow⟩, hrest⟩

theorem memoriesCanonical_fillStream (hs : MemoriesCanonical s) : MemoriesCanonical (fillStream s) := by
  obtain ⟨⟨hwf, hbelow⟩, hrest⟩ := hs
  exact ⟨⟨wf_writeCodewords _ _ hwf, below_writeCodewords _ _ hbelow⟩, hrest⟩

theorem memoriesCanonical_codeBlocks (hs : MemoriesCanonical s) : MemoriesCanonical (codeBlocks p s) := by
  obtain ⟨hdbuf, ⟨hwf, hbelow⟩, hrest⟩ := hs
  exact ⟨hdbuf, ⟨wf_correctionBuffer hwf, below_correctionBuffer hbelow⟩, hrest⟩

theorem memoriesCanonical_interleaveStream (hs : MemoriesCanonical s) : MemoriesCanonical (interleaveStream s) := by
  obtain ⟨hdbuf, hebuf, ⟨hwf, hbelow⟩, hmod⟩ := hs
  exact ⟨hdbuf, hebuf, ⟨wf_writeCodewords _ _ hwf, below_writeCodewords _ _ hbelow⟩, hmod⟩

theorem memoriesCanonical_loadModule (row col : Nat) (m : Module) (hs : MemoriesCanonical s) :
    MemoriesCanonical (loadModule row col m s) := by
  obtain ⟨hdbuf, hebuf, hobuf, hwf, hinside⟩ := hs
  exact ⟨hdbuf, hebuf, hobuf, wf_writeModule row col m hwf, modulesInside_writeModule row col m hinside⟩

theorem memoriesCanonical_of_completion (h : Completion p s i t) (hs : MemoriesCanonical s) :
    MemoriesCanonical t := by
  cases h with
  | nop | read | configure | score => exact hs
  | reset => exact memoriesCanonical_reset
  | append => exact memoriesCanonical_appendField _ _ hs
  | header => exact memoriesCanonical_appendField _ _ (memoriesCanonical_appendField _ _ hs)
  | fill => exact memoriesCanonical_fillStream hs
  | code => exact memoriesCanonical_codeBlocks hs
  | interleave => exact memoriesCanonical_interleaveStream hs
  | load => exact memoriesCanonical_loadModule _ _ _ hs

/-- Settles O21: every write of a buffer or of the matrix keeps its form, and a fault writes none of them. -/
theorem stepKeepsMemoriesCanonical : Obligations.StepKeepsMemoriesCanonical := fun _ _ =>
  step_keeps memoriesCanonical_reset (fun _ _ _ _ _ _ => memoriesCanonical_of_completion) fun _ _ _ _ _ hs => hs

/-! ### The fault registers -/

/-- No command that completes writes `ERR` and `FINFO`, but `RST` (R23, R24). -/
theorem err_of_completion (h : Completion p s i t) (hne : i ≠ .rst) : t.err = s.err ∧ t.finfo = s.finfo := by
  cases h with
  | reset => exact absurd rfl hne
  | nop | read | configure | append | header | fill | code | interleave | load | score => exact ⟨rfl, rfl⟩

/-- A command that completes neither enters `FAULT` nor, but for `RST`, leaves it. -/
theorem fault_iff_of_completion (hlegal : legalIn i s.phase = true) (h : Completion p s i t) (hne : i ≠ .rst) :
    t.phase = .fault ↔ s.phase = .fault := by
  refine ⟨fun ht => ?_, fun hs => ?_⟩
  · exact by_contra fun hs => (phaseMove_of_completion hlegal h).ne_fault hs ht
  · rw [(phaseMove_of_completion hlegal h).eq_of_masked_or_fault (.inr hs) hne, hs]

theorem faultRecorded_reset : FaultRecorded Block.reset :=
  ⟨⟨fun h => absurd rfl h, nofun⟩, ⟨fun _ => rfl, fun _ => rfl⟩⟩

theorem faultRecorded_raiseFault (c : FaultCode) {cw : Word} (hcw : cw ≠ 0) : FaultRecorded (raiseFault c cw s).1 :=
  ⟨⟨fun _ => rfl, nofun⟩, ⟨fun h => absurd h hcw, nofun⟩⟩

theorem faultRecorded_of_completion (hlegal : legalIn i s.phase = true) (h : Completion p s i t) (hne : i ≠ .rst)
    (hs : FaultRecorded s) : FaultRecorded t := by
  obtain ⟨herr, hfinfo⟩ := err_of_completion h hne
  rw [FaultRecorded, herr, hfinfo, fault_iff_of_completion hlegal h hne]
  exact hs

/-- Outside `FAULT` no fault is recorded (R23). -/
theorem FaultRecorded.err_eq_none (h : FaultRecorded s) (hphase : s.phase ≠ .fault) : s.err = none :=
  not_not.mp fun herr => hphase (h.1.mp herr)

end

/-- Settles O22: only a fault writes `ERR` and `FINFO`, apart from the resets, and none is taken in `FAULT`; a step
out of `FAULT` is a reset. -/
theorem stepKeepsTheFirstFault : Obligations.StepKeepsTheFirstFault := by
  intro s t hs h
  have ht : FaultRecorded t.toBlock := step_keeps faultRecorded_reset
    (fun _ _ _ _ hne hlegal hcompletion => faultRecorded_of_completion hlegal hcompletion hne)
    (fun c _ _ _ hcw _ => faultRecorded_raiseFault c hcw) hs h
  refine ⟨ht, fun hphase => ?_, fun hphase => ?_⟩
  · refine or_iff_not_imp_right.mpr fun hstays => ?_
    rw [ht.err_eq_none hstays, hs.err_eq_none hphase]
  · by_cases hstays : t.phase = .fault
    · rcases step_block_cases h with e | e | ⟨i, -, hne, -, hcompletion⟩ | ⟨-, -, hne, -⟩
      · exact .inl ⟨congrArg Block.err e, congrArg Block.finfo e⟩
      · rw [e] at hstays
        cases hstays
      · exact .inl (err_of_completion hcompletion hne)
      · exact absurd hphase hne
    · exact .inr (onlyResetLeavesFault s t hphase h hstays)

end Sys2Proof.Machine
end

section
/-! PROOFS. The invariant of spec 10_state.md section 7: it holds at reset, and each operation that writes the block
keeps it in the phase where its command is legal. -/

namespace Sys2Proof.Machine

/-! ### What the block table gives -/

/-- A printed entry fits the buffers and splits as R162 has it: the blocks of a second group are one codeword longer
(43_rs_coder.md R160, 00_scope.md R9). -/
def BlockEntry.FitsBuffers (e : BlockEntry) : Prop :=
  (e.nb1 + e.nb2) * e.k ≤ Config.EMAX ∧ e.tot ≤ Config.TMAX ∧
    (e.nb2 = 0 ∧ e.dc2 = 0 ∨ e.nb2 ≠ 0 ∧ e.dc2 = e.dc1 + 1)

theorem fitsBuffers_of_mem_BLKTAB : ∀ row ∈ BLKTAB, ∀ e ∈ row, e.FitsBuffers := by
  unfold BlockEntry.FitsBuffers
  decide

theorem blockEntry_fitsBuffers {ver ecl : Nat} (hmin : 1 ≤ ver) (hmax : ver ≤ 40) (hecl : ecl < 4) :
    (blockEntry standard ver ecl).FitsBuffers :=
  have ⟨row, hrow, hentry⟩ := exists_blockEntry_mem hmin hmax hecl
  fitsBuffers_of_mem_BLKTAB row hrow _ hentry

section

variable {s : Block} {ver ecl : Nat} (hmin : 1 ≤ ver) (hmax : ver ≤ 40) (hecl : ecl < 4)

include hmin hmax hecl

theorem withinSizes_configure : WithinSizes (configure standard ver ecl s) := by
  obtain ⟨hk, hnb1, hdc1, hnb2, hdc2⟩ := configure_blockEntry ver ecl s
  obtain ⟨hdcap, htot⟩ := configure_totals ver ecl s rfl
  obtain ⟨hebuf, hobuf, -⟩ := blockEntry_fitsBuffers hmin hmax hecl
  refine ⟨(configure_dcap_bounds s hmin hmax hecl).2, ?_, ?_, ?_⟩
  · rwa [hk, hnb1, hnb2]
  · rwa [htot, hdcap, hk, hnb1, hdc1, hnb2, hdc2]
  · rw [configure_n, BitVec.toNat_ofNat, sideLength, Config.NMAX]
    omega

theorem geometryFollowsTable_configure : GeometryFollowsTable (configure standard ver ecl s) := by
  intro _
  have hver : (configure standard ver ecl s).ver.toNat = ver := Nat.mod_eq_of_lt (by omega)
  have hlevel : (configure standard ver ecl s).ecl.toNat = ecl := Nat.mod_eq_of_lt hecl
  have hn : (configure standard ver ecl s).n.toNat = 4 * ver + 17 :=
    Nat.mod_eq_of_lt (by unfold sideLength; omega)
  obtain ⟨hk, hnb1, hdc1, hnb2, hdc2⟩ := configure_blockEntry ver ecl s
  obtain ⟨hdcap, htot⟩ := configure_totals ver ecl s rfl
  rw [hver, hlevel]
  exact ⟨hmin, hmax, hn, hk, hnb1, hdc1, hnb2, hdc2, hdcap, htot⟩

end

/-- The geometry of a configured block is one the split into blocks and the interleaver are made for. -/
theorem GeometryFollowsTable.splitGeometry {s : Block} (h : GeometryFollowsTable s) (hphase : s.phase.configured) :
    SplitGeometry s := by
  obtain ⟨hmin, hmax, -, -, -, hdc1, hnb2, hdc2, hdcap, htot⟩ := h hphase
  obtain ⟨-, -, hsplit⟩ := blockEntry_fitsBuffers hmin hmax s.ecl.isLt
  rw [← hnb2, ← hdc1, ← hdc2] at hsplit
  refine ⟨hsplit.imp ?_ ?_, hdcap, htot⟩
  · exact fun ⟨h1, h2⟩ => ⟨BitVec.eq_of_toNat_eq h1, BitVec.eq_of_toNat_eq h2⟩
  · exact fun ⟨h1, h2⟩ => ⟨fun e => h1 (congrArg BitVec.toNat e), h2⟩

/-! ### Reset and faults -/

theorem inv_reset : Inv Block.reset where
  memories := memoriesCanonical_reset
  sizes := ⟨Nat.zero_le _, Nat.zero_le _, Nat.zero_le _, Nat.zero_le _⟩
  fault := faultRecorded_reset
  unbuilt := fun _ _ => rfl
  geometry := fun h => absurd rfl h.1
  stream := ⟨nofun, by simp [Block.reset]⟩
  valid := ⟨fun _ _ => rfl, fun _ _ => rfl, fun _ _ => rfl, fun _ _ _ _ => rfl⟩
  unset := fun _ _ => rfl
  untouched := ⟨fun _ _ => rfl, fun _ _ => ⟨rfl, rfl, rfl⟩⟩
  scored := nofun

/-- Settles O20: nothing is listed in the buffers of the reset state, and every register holds 0. -/
theorem resetMeetsTheInvariant : Obligations.ResetMeetsTheInvariant := inv_reset

section

variable {s : Block}

theorem inv_raiseFault (c : FaultCode) {cw : Word} (hcw : cw ≠ 0) (hs : Inv s) : Inv (raiseFault c cw s).1 where
  memories := hs.memories
  sizes := hs.sizes
  fault := faultRecorded_raiseFault c hcw
  unbuilt := nofun
  geometry := fun h => absurd rfl h.2
  stream := by simp [StreamWithinCapacity]
  valid := hs.valid
  unset := hs.unset
  untouched := by simp [UntouchedBeforeUse]
  scored := nofun

/-! ### `CFG` -/

/-- In `UNBUILT` the block is as it was reset. -/
theorem Inv.eq_reset (hs : Inv s) (hphase : s.phase = .unbuilt) : s = Block.reset :=
  hs.unbuilt hphase (hs.fault.err_eq_none (by simp [hphase]))

theorem inv_configure {ver ecl : Nat} (hs : Inv s) (hphase : s.phase = .unbuilt) (hmin : 1 ≤ ver)
    (hmax : ver ≤ 40) (hecl : ecl < 4) : Inv (configure standard ver ecl s) := by
  obtain rfl := hs.eq_reset hphase
  exact {
    memories := memoriesCanonical_reset
    sizes := withinSizes_configure hmin hmax hecl
    fault := ⟨⟨fun h => absurd rfl h, nofun⟩, inv_reset.fault.2⟩
    unbuilt := nofun
    geometry := geometryFollowsTable_configure hmin hmax hecl
    stream := ⟨fun _ => ⟨Nat.zero_le _, fun _ _ => BitVec.getLsbD_zero⟩, by simp⟩
    valid := ⟨fun _ _ => rfl, fun _ _ => rfl, fun _ _ => rfl, fun _ _ _ _ => rfl⟩
    unset := fun _ _ => rfl
    untouched := ⟨fun _ _ => rfl, fun _ _ => ⟨rfl, rfl, rfl⟩⟩
    scored := nofun }

/-! ### The packing commands and `PFIN` -/

theorem inv_appendField {w : Nat} (v : Nat) (hs : Inv s) (hphase : s.phase = .packing) (hfit : fits s w = true) :
    Inv (appendField v w s) := by
  have ⟨⟨hwf, _⟩, _⟩ := hs.memories
  have happended := appended_appendField v hwf hfit hs.sizes.1
  obtain ⟨-, hzero⟩ := hs.stream.1 hphase
  obtain ⟨hdbuf, hrest⟩ := hs.valid
  have hroom := fits_iff.mp hfit
  have hkept (i : Nat) (hi : s.dcap.toNat ≤ i) : readCodeword (appendField v w s).dbuf i = readCodeword s.dbuf i :=
    readCodeword_writeField_outside _ _ _ _ _ (.inr (by omega))
  exact {
    memories := memoriesCanonical_appendField v w hs.memories
    sizes := hs.sizes
    fault := hs.fault
    unbuilt := by simp [UnbuiltIsReset, hphase]
    geometry := hs.geometry
    stream := ⟨fun _ => ⟨(appendField_bitlen_toNat hfit).trans_le hroom, happended.zero_beyond hzero⟩, by simp [hphase]⟩
    valid := ⟨fun i hi => (hkept i hi).trans (hdbuf i hi), hrest⟩
    unset := hs.unset
    untouched := hs.untouched
    scored := by simp [ScoredWhenMasked, hphase] }

theorem inv_fillStream (hs : Inv s) (hphase : s.phase = .packing) : Inv (fillStream s) := by
  obtain ⟨hfit, _⟩ := hs.stream.1 hphase
  have hclear : ScoresClear s := hs.untouched.2 (by simp [hphase]) (by simp [hphase])
  obtain ⟨hdbuf, hrest⟩ := hs.valid
  exact {
    memories := memoriesCanonical_fillStream hs.memories
    sizes := hs.sizes
    fault := faultRecorded_of_completion (p := standard) (i := .pfin) (beq_of_eq hphase) .fill nofun hs.fault
    unbuilt := nofun
    geometry := fun _ => hs.geometry (by simp [Phase.configured, hphase])
    stream := ⟨nofun, fun _ => fillStream_bitlen_toNat hfit⟩
    valid := ⟨fun i hi => (readCodeword_fillStream_outside hfit (.inr hi)).trans (hdbuf i hi), hrest⟩
    unset := hs.unset
    untouched := ⟨fun _ => hs.untouched.1 (by simp [hphase]), fun _ _ => hclear⟩
    scored := nofun }

/-! ### `ECC` and `ILV` -/

theorem inv_codeBlocks (hs : Inv s) (hphase : s.phase = .filled) : Inv (codeBlocks standard s) := by
  have hgeometry : s.phase.configured := by simp [Phase.configured, hphase]
  have hclear : ScoresClear s := hs.untouched.2 (by simp [hphase]) (by simp [hphase])
  obtain ⟨hdbuf, hebuf, hrest⟩ := hs.valid
  obtain ⟨-, -, htot⟩ := hs.geometry.splitGeometry hgeometry
  have hcount : blockCount s * s.k.toNat = s.tot.toNat - s.dcap.toNat := by
    rw [htot, Nat.add_sub_cancel_left, blockCount]
  have hkept (i : Nat) (hi : s.tot.toNat - s.dcap.toNat ≤ i) :
      readCodeword (correctionBuffer standard s) i = readCodeword s.ebuf i :=
    readCodeword_correctionBuffer_beyond standard s (hcount.trans_le hi)
  exact {
    memories := memoriesCanonical_codeBlocks hs.memories
    sizes := hs.sizes
    fault := faultRecorded_of_completion (p := standard) (i := .ecc) (beq_of_eq hphase) .code nofun hs.fault
    unbuilt := nofun
    geometry := fun _ => hs.geometry hgeometry
    stream := ⟨nofun, fun _ => hs.stream.2 (by simp [hphase])⟩
    valid := ⟨hdbuf, fun i hi => (hkept i hi).trans (hebuf i hi), hrest⟩
    unset := hs.unset
    untouched := ⟨fun _ => hs.untouched.1 (by simp [hphase]), fun _ _ => hclear⟩
    scored := nofun }

theorem inv_interleaveStream (hs : Inv s) (hphase : s.phase = .coded) : Inv (interleaveStream s) := by
  have hgeometry : s.phase.configured := by simp [Phase.configured, hphase]
  have hclear : ScoresClear s := hs.untouched.2 (by simp [hphase]) (by simp [hphase])
  obtain ⟨hdbuf, hebuf, hobuf, hmod⟩ := hs.valid
  have hkept (i : Nat) (hi : s.tot.toNat ≤ i) : readCodeword (interleaveStream s).obuf i = readCodeword s.obuf i :=
    readCodeword_interleaveStream_beyond (hs.geometry.splitGeometry hgeometry) hi
  exact {
    memories := memoriesCanonical_interleaveStream hs.memories
    sizes := hs.sizes
    fault := faultRecorded_of_completion (p := standard) (i := .ilv) (beq_of_eq hphase) .interleave nofun hs.fault
    unbuilt := nofun
    geometry := fun _ => hs.geometry hgeometry
    stream := ⟨nofun, fun _ => hs.stream.2 (by simp [hphase])⟩
    valid := ⟨hdbuf, hebuf, fun i hi => (hkept i hi).trans (hobuf i hi), hmod⟩
    unset := hs.unset
    untouched := ⟨by simp, fun _ _ => hclear⟩
    scored := nofun }

/-! ### `MSET` and `SCORE` -/

/-- A module that is set may have either colour (10_state.md R45). -/
theorem unsetIsLight_loadModule (row col : Nat) {m : Module} (hs : UnsetIsLight s)
    (hwf : Memory.wf Module.blank s.mod = true) (hm : m.tag ≠ .unset) : UnsetIsLight (loadModule row col m s) := by
  intro a hunset
  simp only [loadModule, writeModule] at hunset ⊢
  split_ifs at hunset ⊢
  · by_cases ha : a = moduleAddress row col
    · rw [ha, Memory.read_write_same _ m hwf] at hunset
      exact absurd hunset hm
    · rw [Memory.read_write_ne _ m ha] at hunset ⊢
      exact hs a hunset
  · exact hs a hunset

/-- Modules outside the N by N area are not written (R182). -/
theorem readModule_loadModule_outside {row col r c : Nat} (m : Module) (hrow : row < s.n.toNat)
    (hcol : col < s.n.toNat) (hc : c < 2 ^ 8) (hout : s.n.toNat ≤ r ∨ s.n.toNat ≤ c) :
    readModule (loadModule row col m s).mod r c = readModule s.mod r c := by
  have hn := s.n.isLt
  refine readModule_write_ne s.mod m fun ha => ?_
  obtain ⟨rfl, rfl⟩ := (moduleAddress_inj hc (by omega)).mp ha
  omega

/-- Every module of the N by N area has one of the two tags that `MSET` writes, if none is Unset (R194). -/
theorem data_or_reserved_of_set {r c : Nat} (hset : hasUnset s.n.toNat s.mod = false) (hr : r < s.n.toNat)
    (hc : c < s.n.toNat) : (readModule s.mod r c).tag = .data ∨ (readModule s.mod r c).tag = .reserved := by
  have hne : (readModule s.mod r c).tag ≠ .unset := fun hunset =>
    Bool.eq_false_iff.mp hset ((hasUnset_iff s.mod s.n.isLt.le).mpr ⟨r, c, hr, hc, hunset⟩)
  cases htag : (readModule s.mod r c).tag with
  | unset => exact absurd htag hne
  | data => exact .inl rfl
  | reserved => exact .inr rfl

theorem inv_loadModule {row col : Nat} {m : Module} (hs : Inv s) (hphase : s.phase = .streamed)
    (hrow : row < s.n.toNat) (hcol : col < s.n.toNat) (hm : m.tag ≠ .unset) : Inv (loadModule row col m s) := by
  obtain ⟨hdbuf, hebuf, hobuf, hmod⟩ := hs.valid
  have ⟨_, _, _, hwf, _⟩ := hs.memories
  exact {
    memories := memoriesCanonical_loadModule row col m hs.memories
    sizes := hs.sizes
    fault := hs.fault
    unbuilt := by simp [UnbuiltIsReset, hphase]
    geometry := hs.geometry
    stream := hs.stream
    valid := ⟨hdbuf, hebuf, hobuf, fun r c hc hout =>
      (readModule_loadModule_outside m hrow hcol hc hout).trans (hmod r c hc hout)⟩
    unset := unsetIsLight_loadModule row col hs.unset hwf hm
    untouched := ⟨by simp [hphase], hs.untouched.2⟩
    scored := by simp [ScoredWhenMasked, hphase] }

theorem inv_scoreMatrix (hs : Inv s) (hphase : s.phase = .streamed) (hset : hasUnset s.n.toNat s.mod = false) :
    Inv (scoreMatrix standard s) where
  memories := hs.memories
  sizes := hs.sizes
  fault := faultRecorded_of_completion (p := standard) (i := .score) (beq_of_eq hphase) (.score hset) nofun hs.fault
  unbuilt := nofun
  geometry := fun _ => hs.geometry (by simp [Phase.configured, hphase])
  stream := ⟨nofun, fun _ => hs.stream.2 (by simp [hphase])⟩
  valid := hs.valid
  unset := hs.unset
  untouched := ⟨by simp, fun h => absurd rfl h⟩
  scored := fun _ => ⟨fun _ _ => data_or_reserved_of_set hset,
    fun j => (scoreMatrix_get standard s j).2, _, rfl, isBest_bestMask _⟩

/-! ### Every command -/

/-- A packing command is legal in `PACKING` alone (30_encoding.md R86). -/
theorem phase_of_writesStream {i : Instr} {q : Phase} (hpack : WritesStream i) (hlegal : legalIn i q = true) :
    q = .packing := by
  cases i with
  | putb | phdr | pnum1 | pnum2 | pnum3 | paln1 | paln2 | pbyte | pfin => exact eq_of_beq hlegal
  | _ => exact hpack.elim

theorem inv_of_completion {t : Block} {i : Instr} (hwf : i.wf = true) (hne : i ≠ .rst)
    (hlegal : legalIn i s.phase = true) (h : Completion standard s i t) (hs : Inv s) : Inv t := by
  cases h with
  | nop | read => exact hs
  | reset => exact absurd rfl hne
  | configure ecl hmin hmax =>
    obtain ⟨-, hecl⟩ := Bool.and_eq_true_iff.mp hwf
    exact inv_configure hs (eq_of_beq hlegal) hmin hmax (of_decide_eq_true hecl)
  | append hpack _ hfit => exact inv_appendField _ hs (phase_of_writesStream hpack hlegal) hfit
  | header hcount hfit =>
    rw [appendField_appendField _ hcount hfit]
    exact inv_appendField _ hs (eq_of_beq hlegal) hfit
  | fill => exact inv_fillStream hs (eq_of_beq hlegal)
  | code => exact inv_codeBlocks hs (eq_of_beq hlegal)
  | interleave => exact inv_interleaveStream hs (eq_of_beq hlegal)
  | load dark hrow hcol htag => exact inv_loadModule hs (eq_of_beq hlegal) hrow hcol (commandedTag_ne_unset htag)
  | score hset => exact inv_scoreMatrix hs (eq_of_beq hlegal) hset

end

/-- Settles O19: the reset state meets the invariant, and every operation that writes the block keeps it in the phase
where the phase check lets its command through, as a fault does. -/
theorem stepKeepsTheInvariant : Obligations.StepKeepsTheInvariant := fun _ _ =>
  step_keeps inv_reset (fun _ _ _ => inv_of_completion) fun c _ _ _ hcw => inv_raiseFault c hcw

end Sys2Proof.Machine
end

section
/-! PROOFS. The items of state and the commands that write them (spec 10_state.md sections 2 to 5, 20_memory.md
section 1), and the form that makes two buffers that read alike equal. -/

namespace Sys2Proof.Machine

/-! ### What a completed command leaves as it was -/

section

variable {p : Params} {s t : Block} {i : Instr}

/-- Everything `exec` can do, with what a completed command makes of the block. -/
theorem exec_completion_cases {s t : State} (h : exec i s = .next t) :
    (∃ u v, legalIn i s.phase = true ∧ Completion standard s.toBlock i u ∧ t = s.give (respond v u)) ∨
    ∃ c, t = s.give (fail c (encode i) s.toBlock) := by
  rcases exec_cases h with ⟨u, v, hlegal, hbody, ht⟩ | ⟨c, -, -, ht⟩ | ⟨-, ht⟩
  · exact .inl ⟨u, v, hlegal, completion_of_bodyOf hbody, ht⟩
  · exact .inr ⟨c, ht⟩
  · exact .inr ⟨.badPhase, ht⟩

/-- A command with no move of its own keeps the phase (R22). -/
theorem PhaseMove.eq_of_no_move {q q' : Phase} (h : PhaseMove i q q') (hrst : i ≠ .rst)
    (hcfg : ∀ ver ecl, i ≠ .cfg ver ecl) (hpfin : i ≠ .pfin) (hecc : i ≠ .ecc) (hilv : i ≠ .ilv)
    (hscore : i ≠ .score) : q' = q := by
  cases h with
  | stay => rfl
  | reset => exact absurd rfl hrst
  | configure => exact absurd rfl (hcfg _ _)
  | fill => exact absurd rfl hpfin
  | code => exact absurd rfl hecc
  | interleave => exact absurd rfl hilv
  | score => exact absurd rfl hscore

/-- Only `CFG` writes the version, the level and the geometry (R25 to R27). -/
theorem geometry_of_completion (h : Completion p s i t) (hrst : i ≠ .rst) (hcfg : ∀ ver ecl, i ≠ .cfg ver ecl) :
    t.ver = s.ver ∧ t.ecl = s.ecl ∧ t.n = s.n ∧ t.tot = s.tot ∧ t.dcap = s.dcap ∧ t.k = s.k ∧
      t.nb1 = s.nb1 ∧ t.dc1 = s.dc1 ∧ t.nb2 = s.nb2 ∧ t.dc2 = s.dc2 := by
  cases h with
  | nop | read | append | header | fill | code | interleave | load | score =>
    exact ⟨rfl, rfl, rfl, rfl, rfl, rfl, rfl, rfl, rfl, rfl⟩
  | reset => exact absurd rfl hrst
  | configure => exact absurd rfl (hcfg _ _)

/-- Only the packing commands and `PFIN` write the stream, and its length but for `CFG` (R28, R29). -/
theorem stream_of_completion (h : Completion p s i t) (hrst : i ≠ .rst) (hpack : ¬WritesStream i) :
    t.dbuf = s.dbuf ∧ ((∀ ver ecl, i ≠ .cfg ver ecl) → t.bitlen = s.bitlen) := by
  cases h with
  | nop | read | code | interleave | load | score => exact ⟨rfl, fun _ => rfl⟩
  | reset => exact absurd rfl hrst
  | configure => exact ⟨rfl, fun hcfg => absurd rfl (hcfg _ _)⟩
  | append hwrites => exact absurd hwrites hpack
  | header | fill => exact absurd trivial hpack

/-- Only `ECC` writes `EBUF` (R30). -/
theorem ebuf_of_completion (h : Completion p s i t) (hrst : i ≠ .rst) (hecc : i ≠ .ecc) : t.ebuf = s.ebuf := by
  cases h with
  | nop | read | configure | append | header | fill | interleave | load | score => rfl
  | reset => exact absurd rfl hrst
  | code => exact absurd rfl hecc

/-- Only `ILV` writes `OBUF` (R31). -/
theorem obuf_of_completion (h : Completion p s i t) (hrst : i ≠ .rst) (hilv : i ≠ .ilv) : t.obuf = s.obuf := by
  cases h with
  | nop | read | configure | append | header | fill | code | load | score => rfl
  | reset => exact absurd rfl hrst
  | interleave => exact absurd rfl hilv

/-- Only `MSET` writes the matrix (R32). -/
theorem mod_eq_of_completion (h : Completion p s i t) (hrst : i ≠ .rst)
    (hmset : ∀ row col tag dark, i ≠ .mset row col tag dark) : t.mod = s.mod := by
  cases h with
  | nop | read | configure | append | header | fill | code | interleave | score => rfl
  | reset => exact absurd rfl hrst
  | load => exact absurd rfl (hmset _ _ _ _)

/-- Only `SCORE` writes the penalties and the choice (R34, R35). -/
theorem scores_of_completion (h : Completion p s i t) (hrst : i ≠ .rst) (hscore : i ≠ .score) :
    t.pen = s.pen ∧ t.penr = s.penr ∧ t.best = s.best := by
  cases h with
  | nop | read | configure | append | header | fill | code | interleave | load => exact ⟨rfl, rfl, rfl⟩
  | reset => exact absurd rfl hrst
  | score => exact absurd rfl hscore

end

/-- A fault condition changes the response alone in `FAULT`, and is the fault entry elsewhere. -/
theorem give_fail_cases (c : FaultCode) (cw : Word) (s : State) :
    s.give (fail c cw s.toBlock) = { s with response := some ⟨false, 0⟩ } ∨
    s.give (fail c cw s.toBlock) = afterFault c cw s := by
  by_cases hphase : s.phase = .fault
  · exact .inl (by rw [fail_of_fault hphase, give_refuse])
  · exact .inr (by rw [fail_of_ne_fault hphase, give_raiseFault])

/-- Settles O18: of all a command can make of the block, each item is written by the operations of its own commands;
a fault condition writes `PHASE`, `ERR` and `FINFO` at most. -/
theorem eachItemHasItsWriters : Obligations.EachItemHasItsWriters := by
  intro i s t h hrst
  rcases exec_completion_cases h with ⟨u, v, hlegal, hu, rfl⟩ | ⟨c, rfl⟩
  · exact ⟨fun hcfg hpfin hecc hilv hscore =>
        .inl ((phaseMove_of_completion hlegal hu).eq_of_no_move hrst hcfg hpfin hecc hilv hscore),
      .inl (err_of_completion hu hrst), geometry_of_completion hu hrst, stream_of_completion hu hrst,
      ebuf_of_completion hu hrst, obuf_of_completion hu hrst, mod_eq_of_completion hu hrst,
      scores_of_completion hu hrst, rfl⟩
  · have hkept := give_fail_cases c (encode i) s
    generalize s.give (fail c (encode i) s.toBlock) = t at hkept
    refine ⟨fun _ _ _ _ _ => hkept.imp (fun ht => by rw [ht]) fun ht => ⟨c, ht⟩,
      hkept.imp (fun ht => by rw [ht]; exact ⟨rfl, rfl⟩) fun ht => ⟨c, ht⟩, ?_⟩
    rcases hkept with rfl | rfl <;>
      exact ⟨fun _ => ⟨rfl, rfl, rfl, rfl, rfl, rfl, rfl, rfl, rfl, rfl⟩, fun _ => ⟨rfl, fun _ => rfl⟩, fun _ => rfl,
        fun _ => rfl, fun _ => rfl, fun _ => ⟨rfl, rfl, rfl⟩, rfl⟩

/-! ### The canonical form is unique -/

section

variable {α : Type} [DecidableEq α] {d : α} {lo lo' : Nat}

/-- The first element listed is set, and the others stand at larger addresses. -/
theorem Memory.wfFrom_cons {k : Nat} {x : α} {rest : List (Nat × α)}
    (h : Memory.wfFrom d lo ((k, x) :: rest) = true) : lo ≤ k ∧ x ≠ d ∧ Memory.wfFrom d (k + 1) rest = true := by
  simpa [Memory.wfFrom, and_assoc] using h

omit [DecidableEq α] in
@[simp] theorem Memory.read_cons_same (k : Nat) (x : α) (rest : List (Nat × α)) :
    Memory.read d ((k, x) :: rest) k = x := if_pos rfl

/-- A memory that reads as one with a first element at `k` lists something at `k` or before. -/
theorem Memory.head_le_of_read_eq {k k' : Nat} {x x' : α} {rest rest' : List (Nat × α)}
    (h : Memory.wfFrom d lo ((k, x) :: rest) = true) (h' : Memory.wfFrom d lo' ((k', x') :: rest') = true)
    (hread : ∀ a, Memory.read d ((k, x) :: rest) a = Memory.read d ((k', x') :: rest') a) : k' ≤ k := by
  by_contra hlt
  obtain ⟨-, hx, -⟩ := Memory.wfFrom_cons h
  obtain ⟨-, hx', hrest'⟩ := Memory.wfFrom_cons h'
  have hunlisted : Memory.read d ((k', x') :: rest') k = d :=
    Memory.read_of_wfFrom_lt (lo := k') (by simp [Memory.wfFrom, hx', hrest']) (by omega)
  rw [← hread k, Memory.read_cons_same] at hunlisted
  exact hx hunlisted

/-- Memories in canonical form that read alike are the same list: their first elements stand at the same address,
and what follows them reads alike. -/
theorem Memory.eq_of_read_eq {m m' : List (Nat × α)} (h : Memory.wfFrom d lo m = true)
    (h' : Memory.wfFrom d lo' m' = true) (hread : ∀ a, Memory.read d m a = Memory.read d m' a) : m = m' := by
  induction m generalizing m' lo lo' with
  | nil =>
    cases m' with
    | nil => rfl
    | cons e' rest' =>
      obtain ⟨-, hx', -⟩ := Memory.wfFrom_cons h'
      have hunlisted := hread e'.1
      rw [Memory.read_cons_same] at hunlisted
      exact absurd hunlisted.symm hx'
  | cons e rest ih =>
    obtain ⟨k, x⟩ := e
    obtain ⟨-, hx, hrest⟩ := Memory.wfFrom_cons h
    cases m' with
    | nil =>
      have hunlisted := hread k
      rw [Memory.read_cons_same] at hunlisted
      exact absurd hunlisted hx
    | cons e' rest' =>
      obtain ⟨k', x'⟩ := e'
      obtain ⟨-, -, hrest'⟩ := Memory.wfFrom_cons h'
      obtain rfl : k = k' := (Memory.head_le_of_read_eq h' h fun a => (hread a).symm).antisymm
        (Memory.head_le_of_read_eq h h' hread)
      obtain rfl : x = x' := by simpa using hread k
      rw [ih hrest hrest' fun a => ?_]
      by_cases ha : k = a
      · rw [← ha, Memory.read_of_wfFrom_lt hrest k.lt_succ_self, Memory.read_of_wfFrom_lt hrest' k.lt_succ_self]
      · simpa [Memory.read, ha] using hread a

end

/-- Settles O23: the canonical form lists exactly the elements that read as set, in order. -/
theorem canonicalMemoriesReadingAlikeAreEqual : Obligations.CanonicalMemoriesReadingAlikeAreEqual :=
  ⟨fun _ _ => Memory.eq_of_read_eq, fun _ _ => Memory.eq_of_read_eq⟩

end Sys2Proof.Machine
end

section
/-! PROOFS. Reserved modules, and the bounds of the four penalties (spec 44_mask_scorer.md section 4, 45_readout.md,
10_state.md section 7). -/

namespace Sys2Proof.Machine

/-- No selection changes a module that is not a Data module (44_mask_scorer.md R185, 45_readout.md R214). -/
theorem selectedModule_of_not_data {p : Params} {row col msel : Nat} {m : Module} (h : m.tag ≠ .data) :
    selectedModule p row col msel m = m := by
  unfold selectedModule
  split_ifs
  · rw [maskedDark_of_kept fun ⟨hdata, _⟩ => h hdata]
  · rfl

/-- Settles O47: only Data modules are flipped, in a candidate and in a selection. -/
theorem structuralModulesKeepTheirColour : Obligations.StructuralModulesKeepTheirColour := by
  intro s r c hr hc hreserved
  have hdata : (readModule s.mod r c).tag ≠ .data := by simp [hreserved]
  refine ⟨fun k => ?_, fun hphase msel hmsel => ⟨_, exec_eq_afterResponse (legalIn_rdm.mpr hphase)
    ((rdmBody_eq _ _ _ _ _).trans (if_neg (by omega))), ?_⟩⟩
  · rw [cell_candidate standard k s.mod s.n.isLt.le hr hc, maskedDark_of_kept fun h => hdata h.1]
  · rw [selectedModule_of_not_data hdata, moduleResponse, hreserved]
    rfl

/-- Settles O53: the bound of each rule, and that of their sum. -/
theorem penaltiesNeverOverflow : Obligations.PenaltiesNeverOverflow := fun _ _ hn h =>
  ⟨penaltyRuns_le h, penaltyWindows_le h, penaltyFinders_le h, penaltyBalance_le h, sum_of_penalties_lt hn h⟩

end Sys2Proof.Machine
end

section
/-! PROOFS. The remainder and the generator polynomials as polynomials (spec 42_gf256.md section 3, 43_rs_coder.md
section 2): the remainder is linear; the generator vanishes at its roots; and so does a codeword. -/

namespace Sys2Proof.Machine

/-! ### The remainder is linear, whatever the tables -/

@[simp] theorem xorLists_nil_left (e : List Byte) : xorLists [] e = [] := rfl

@[simp] theorem xorLists_nil_right (d : List Byte) : xorLists d [] = [] := List.zipWith_nil_right

@[simp] theorem xorLists_cons (x y : Byte) (d e : List Byte) :
    xorLists (x :: d) (y :: e) = (x ^^^ y) :: xorLists d e := rfl

/-- The sum of a sequence with itself. -/
theorem xorLists_self (d : List Byte) : xorLists d d = List.replicate d.length 0 := by
  simp only [xorLists, List.zipWith_self, BitVec.xor_self, List.map_const']
  rfl

section

variable (p : Params)

/-- The feedback of a round is linear in the shifted remainder and in the factor. -/
theorem zipWith_feedback_xor (a a' fb : List Byte) (f f' : Byte) :
    List.zipWith (fun x g => x ^^^ gmul p g (f ^^^ f')) (xorLists a a') fb =
      xorLists (List.zipWith (fun x g => x ^^^ gmul p g f) a fb)
        (List.zipWith (fun x g => x ^^^ gmul p g f') a' fb) := by
  induction a generalizing a' fb with
  | nil => rfl
  | cons x a ih =>
    cases a' with
    | nil => simp
    | cons x' a' =>
      cases fb with
      | nil => simp
      | cons g fb =>
        rw [xorLists_cons, List.zipWith_cons_cons, List.zipWith_cons_cons, List.zipWith_cons_cons, xorLists_cons, ih,
          gmul_xor_right, xor_xor_xor_comm]

/-- The first codeword of the sum of two sequences of the same length. -/
theorem headD_xorLists {r r' : List Byte} (h : r.length = r'.length) :
    (xorLists r r').headD 0 = r.headD 0 ^^^ r'.headD 0 := by
  cases r with
  | nil =>
    cases r' with
    | nil => rfl
    | cons => cases h
  | cons =>
    cases r' with
    | nil => cases h
    | cons => rfl

/-- One round on the sum of two remainders of the same length and of two codewords. -/
theorem rsStep_xorLists (fb : List Byte) {r r' : List Byte} (d d' : Byte) (h : r.length = r'.length) :
    rsStep p fb (xorLists r r') (d ^^^ d') = xorLists (rsStep p fb r d) (rsStep p fb r' d') := by
  have hhead : d ^^^ d' ^^^ (xorLists r r').headD 0 = (d ^^^ r.headD 0) ^^^ (d' ^^^ r'.headD 0) := by
    rw [headD_xorLists h, xor_xor_xor_comm]
  have hshift : (xorLists r r').drop 1 ++ [0] = xorLists (r.drop 1 ++ [0]) (r'.drop 1 ++ [0]) := by
    rw [xorLists, xorLists, List.zipWith_append (by simp [h]), List.drop_zipWith]
    rfl
  simp only [rsStep, hhead, hshift, zipWith_feedback_xor]

theorem foldl_rsStep_xorLists {fb r r' d d' : List Byte} (hd : d.length = d'.length)
    (hr : r.length = fb.length) (hr' : r'.length = fb.length) :
    (xorLists d d').foldl (rsStep p fb) (xorLists r r') =
      xorLists (d.foldl (rsStep p fb) r) (d'.foldl (rsStep p fb) r') := by
  induction d generalizing d' r r' with
  | nil => cases d' with
    | nil => rfl
    | cons => cases hd
  | cons x d ih =>
    cases d' with
    | nil => cases hd
    | cons x' d' =>
      rw [xorLists_cons, List.foldl_cons, rsStep_xorLists p fb x x' (hr.trans hr'.symm)]
      exact ih (Nat.succ.inj hd) (rsStep_length p x hr) (rsStep_length p x' hr')

theorem rsrem_xorLists {d e : List Byte} (k : Nat) (h : d.length = e.length) :
    rsrem p (xorLists d e) k = xorLists (rsrem p d k) (rsrem p e k) := by
  have hzero : List.replicate k 0 = xorLists (List.replicate k 0) (List.replicate k 0) := by
    rw [xorLists_self, List.length_replicate]
  rw [rsrem, hzero]
  exact foldl_rsStep_xorLists p h (by simp) (by simp)

/-- Zero data is the sum of zero data with itself, and so is its remainder. -/
theorem rsrem_replicate_zero (n k : Nat) : rsrem p (List.replicate n 0) k = List.replicate k 0 := by
  have hdouble := rsrem_xorLists p k (rfl : (List.replicate n (0 : Byte)).length = _)
  rwa [xorLists_self, xorLists_self, List.length_replicate, rsrem_length] at hdouble

end

/-- Settles O41: a round is linear, and with it the remainder. -/
theorem remainderIsLinear : Obligations.RemainderIsLinear := fun p =>
  ⟨fun _ _ k => rsrem_xorLists p k, rsrem_length p, rsrem_replicate_zero p⟩

/-! ### Values of polynomials -/

theorem byte_zero_xor (a : Byte) : 0 ^^^ a = a := BitVec.zero_xor

theorem byte_xor_zero (a : Byte) : a ^^^ 0 = a := BitVec.xor_zero

/-- The value of a polynomial with one more coefficient, for the power 0. -/
theorem evalPoly_concat (x c : Byte) (d : List Byte) : evalPoly x (d ++ [c]) = gmul standard (evalPoly x d) x ^^^ c := by
  rw [evalPoly, List.foldl_append]
  rfl

/-- Horner's rule from a value `a` on adds `a` times the power of the point that stands above the coefficients. -/
theorem foldl_horner (i : Nat) (a : Byte) (d : List Byte) :
    d.foldl (fun acc c => gmul standard acc (gexp standard i) ^^^ c) a =
      gmul standard a (gexp standard (i * d.length)) ^^^ evalPoly (gexp standard i) d := by
  induction d generalizing a with
  | nil => exact ((byte_xor_zero _).trans (gmul_one_right standard a)).symm
  | cons c d ih =>
    rw [evalPoly, List.foldl_cons, List.foldl_cons, ih, ih, gmul_zero_left, byte_zero_xor, gmul_xor_left, gmul_assoc,
      ← gexp_add, List.length_cons, Nat.mul_succ, Nat.add_comm, BitVec.xor_assoc]

theorem evalPoly_append (i : Nat) (d e : List Byte) : evalPoly (gexp standard i) (d ++ e) =
    gmul standard (evalPoly (gexp standard i) d) (gexp standard (i * e.length)) ^^^ evalPoly (gexp standard i) e := by
  rw [evalPoly, List.foldl_append, foldl_horner]
  rfl

theorem evalPoly_cons (i : Nat) (c : Byte) (d : List Byte) : evalPoly (gexp standard i) (c :: d) =
    gmul standard c (gexp standard (i * d.length)) ^^^ evalPoly (gexp standard i) d := by
  rw [evalPoly, List.foldl_cons, foldl_horner, gmul_zero_left, byte_zero_xor]

theorem evalPoly_replicate_zero (x : Byte) (n : Nat) : evalPoly x (List.replicate n 0) = 0 := by
  induction n with
  | zero => rfl
  | succ n ih => rw [List.replicate_succ', evalPoly_concat, ih, gmul_zero_left, byte_zero_xor]

/-! ### The generator polynomials vanish at their roots -/

/-- The value of the sum of a polynomial times `x` plus `c` and the polynomial times `r`. -/
theorem evalPoly_shiftedSum (x r c : Byte) (g : List Byte) :
    evalPoly x (List.zipWith (· ^^^ ·) (c :: g) (g.map (gmul standard r) ++ [0])).reverse =
      gmul standard (x ^^^ r) (evalPoly x g.reverse) ^^^ c := by
  induction g generalizing c with
  | nil =>
    have hzero : gmul standard (x ^^^ r) (evalPoly x []) = gmul standard 0 x := by
      rw [gmul_zero_left]
      exact gmul_zero_right standard _
    exact congrArg₂ (· ^^^ ·) hzero.symm (byte_xor_zero c)
  | cons y g ih =>
    rw [List.map_cons, List.cons_append, List.zipWith_cons_cons, List.reverse_cons, evalPoly_concat, ih,
      List.reverse_cons, evalPoly_concat, gmul_xor_left, gmul_assoc, gmul_xor_right _ (x ^^^ r), gmul_xor_left _ x r y,
      gmul_comm _ y x]
    ac_rfl

/-- The value of a polynomial times `x + r`. -/
theorem evalPoly_mulByRoot (x r : Byte) (g : List Byte) :
    evalPoly x (mulByRoot standard g r).reverse = gmul standard (x ^^^ r) (evalPoly x g.reverse) := by
  rw [mulByRoot, evalPoly_shiftedSum, byte_xor_zero]

/-- The roots are the powers from `ALPHA^0` on. -/
theorem standard_root (k : Nat) : gexp standard (standard.GENROOT0 + k) = gexp standard k :=
  congrArg (gexp standard) (Nat.zero_add k)

theorem evalPoly_gen_root {k i : Nat} (h : i < k) : evalPoly (gexp standard i) (gen standard k).reverse = 0 := by
  induction k with
  | zero => exact absurd h i.not_lt_zero
  | succ k ih =>
    rw [gen, evalPoly_mulByRoot, standard_root]
    rcases Nat.lt_succ_iff_lt_or_eq.mp h with hlt | rfl
    · rw [ih hlt, gmul_zero_right]
    · rw [BitVec.xor_self]
      exact gmul_zero_left _ _

/-- The constant term is the product of the roots. -/
theorem genCoefficient_constant (k : Nat) : genCoefficient standard k 0 = gexp standard (k * (k - 1) / 2) := by
  induction k with
  | zero => rfl
  | succ k ih =>
    rw [genCoefficient_succ, if_pos rfl, byte_zero_xor, standard_root, ih, ← gexp_add, Nat.triangle_succ, Nat.add_comm]

/-- Settles O39: `gen(k + 1)` is `gen(k)` times `x + ALPHA^k`, in its values and in its constant term. -/
theorem generatorRootsAndConstantTerm : Obligations.GeneratorRootsAndConstantTerm :=
  ⟨fun _ _ => evalPoly_gen_root, fun k => by rw [gexp_mod, genCoefficient_constant]⟩

/-! ### Codewords -/

/-- The value of the sum of a polynomial and a multiple of one of the same length. -/
theorem evalPoly_zipWith_feedback (i : Nat) (f : Byte) {a fb : List Byte} (h : a.length = fb.length) :
    evalPoly (gexp standard i) (List.zipWith (fun c g => c ^^^ gmul standard g f) a fb) =
      evalPoly (gexp standard i) a ^^^ gmul standard (evalPoly (gexp standard i) fb) f := by
  induction a generalizing fb with
  | nil =>
    obtain rfl := List.eq_nil_of_length_eq_zero h.symm
    exact ((byte_zero_xor _).trans (gmul_zero_left standard f)).symm
  | cons c a ih =>
    cases fb with
    | nil => cases h
    | cons g fb =>
      have hlen : a.length = fb.length := Nat.succ.inj h
      rw [List.zipWith_cons_cons, evalPoly_cons, evalPoly_cons, evalPoly_cons, ih hlen, List.length_zipWith, hlen,
        Nat.min_self, gmul_xor_left, gmul_xor_left, gmul_assoc, gmul_assoc, gmul_comm _ f]
      ac_rfl

/-- `gen(k)` is monic (R147): the coefficients below the leading 1 are the feedback. -/
theorem gen_reverse (p : Params) (k : Nat) : (gen p k).reverse = 1 :: feedback p k := by
  have hlt : k < (gen p k).length := by simp
  have hleading : (gen p k)[k] = 1 := by
    rw [← genCoefficient_leading p k, genCoefficient, List.getD_eq_getElem _ _ hlt]
  have hsplit : gen p k = (gen p k).take k ++ [1] := by
    rw [← hleading, List.take_append_getElem, List.take_of_length_le (by simp)]
  conv_lhs => rw [hsplit, List.reverse_append]
  rfl

/-- At a root the coefficients below the leading 1 come to the power of degree `k`. -/
theorem evalPoly_feedback {k i : Nat} (h : i < k) :
    evalPoly (gexp standard i) (feedback standard k) = gexp standard (i * k) := by
  have hroot := evalPoly_gen_root h
  rw [gen_reverse, evalPoly_cons, gmul_one_left, feedback_length] at hroot
  exact (BitVec.xor_eq_zero_iff.mp hroot).symm

/-- At a root of `gen(k)` one round multiplies the remainder by the point and adds the codeword taken in, times the
power of degree `k`. -/
theorem evalPoly_rsStep {k i : Nat} (h : i < k) (c : Byte) {r : List Byte} (hr : r.length = k) :
    evalPoly (gexp standard i) (rsStep standard (feedback standard k) r c) =
      gmul standard (evalPoly (gexp standard i) r) (gexp standard i) ^^^ gmul standard c (gexp standard (i * k)) := by
  cases r with
  | nil =>
    subst hr
    exact absurd h i.not_lt_zero
  | cons r0 r =>
    have hlen : (r ++ [0]).length = (feedback standard k).length := by rw [feedback_length, ← hr]; simp
    have hpower : gexp standard (i * r.length + i) = gexp standard (i * k) := by
      rw [← hr, List.length_cons, Nat.mul_succ]
    calc evalPoly (gexp standard i) (rsStep standard (feedback standard k) (r0 :: r) c)
      _ = evalPoly (gexp standard i) (r ++ [0]) ^^^
            gmul standard (evalPoly (gexp standard i) (feedback standard k)) (c ^^^ r0) :=
          evalPoly_zipWith_feedback i (c ^^^ r0) hlen
      _ = gmul standard (evalPoly (gexp standard i) r) (gexp standard i) ^^^
            (gmul standard c (gexp standard (i * k)) ^^^ gmul standard r0 (gexp standard (i * k))) := by
          rw [evalPoly_concat, byte_xor_zero, evalPoly_feedback h, gmul_comm _ (gexp standard (i * k)), gmul_xor_left]
      _ = _ := by
          rw [evalPoly_cons, gmul_xor_left, gmul_assoc, ← gexp_add, hpower]
          ac_rfl

/-- At a root of `gen(k)` the remainder has the value of the data, times the power of degree `k`. -/
theorem evalPoly_rsrem {k i : Nat} (h : i < k) (d : List Byte) : evalPoly (gexp standard i) (rsrem standard d k) =
    gmul standard (evalPoly (gexp standard i) d) (gexp standard (i * k)) := by
  induction d using List.reverseRecOn with
  | nil => exact (evalPoly_replicate_zero _ k).trans (gmul_zero_left standard _).symm
  | append_singleton d c ih =>
    have hround : rsrem standard (d ++ [c]) k = rsStep standard (feedback standard k) (rsrem standard d k) c := by
      rw [rsrem, List.foldl_append]
      rfl
    rw [hround, evalPoly_rsStep h c (rsrem_length standard d k), ih, evalPoly_concat, gmul_xor_left, gmul_assoc,
      gmul_assoc, gmul_comm _ (gexp standard i)]

/-- Settles O40: at a root of `gen(K)` the data, shifted by the `K` places of the remainder, and the remainder have the
same value. -/
theorem codewordPolynomialVanishesAtTheRoots : Obligations.CodewordPolynomialVanishesAtTheRoots := by
  intro d k i _ _ h
  rw [evalPoly_append, evalPoly_rsrem h, rsrem_length]
  exact BitVec.xor_self

end Sys2Proof.Machine
end

section
/-! PROOFS. What a response can show of the buffers and the matrix (spec 20_memory.md section 5, 10_state.md section
9): the answer of a command depends on the buffer it reads out alone, and `ECC` and `ILV` write all valid entries. -/

namespace Sys2Proof.Machine

/-! ### The answer of a command -/

/-- What a command responds where it is legal: a fault, or the value it completes with. -/
def answerOf (p : Params) (i : Instr) (s : Block) : Except FaultCode Word := (bodyOf p i s).map Prod.snd

/-- The response an answer is given as (30_encoding.md R93). -/
def responseOf : Except FaultCode Word → Response
  | .ok v => ⟨true, v⟩
  | .error _ => ⟨false, 0⟩

theorem perform_response (p : Params) (i : Instr) (s : Block) : (perform i (bodyOf p i) s).2 =
    if legalIn i s.phase = true then responseOf (answerOf p i s) else ⟨false, 0⟩ := by
  rcases perform_cases i (bodyOf p i) s with
    ⟨t, v, hlegal, hbody, e⟩ | ⟨c, hlegal, hbody, e⟩ | ⟨hillegal, e⟩
  · rw [e, if_pos hlegal, answerOf, hbody]
    rfl
  · rw [e, if_pos hlegal, answerOf, hbody, fail_response]
    rfl
  · rw [e, if_neg (Bool.eq_false_iff.mp hillegal), fail_response]

/-- The block with other contents of its buffers and matrix. -/
def Block.withContents (s : Block) (d e o : Buffer) (q : Matrix) : Block :=
  { s with dbuf := d, ebuf := e, obuf := o, mod := q }

/-- The commands whose checks or response look at the matrix (44_mask_scorer.md, 45_readout.md). -/
def LooksAtMatrix : Instr → Prop
  | .mset _ _ _ _ | .score | .rdm _ _ _ => True
  | _ => False

theorem appendBits_answer (v w : Nat) (s : Block) (d e o : Buffer) (q : Matrix) :
    (appendBits v w (s.withContents d e o q)).map Prod.snd = (appendBits v w s).map Prod.snd := by
  have hfits : fits (s.withContents d e o q) w = fits s w := rfl
  rw [appendBits, appendBits, hfits]
  split_ifs <;> rfl

/-- The answer of a command depends on no buffer but the one it reads out, and on the matrix only if it looks at it. -/
theorem answerOf_withContents (p : Params) (i : Instr) {s : Block} {d e o : Buffer} {q : Matrix}
    (hd : ∀ idx, i = .rdd idx → d = s.dbuf) (he : ∀ idx, i = .rde idx → e = s.ebuf)
    (ho : ∀ idx, i = .rdo idx → o = s.obuf) (hq : LooksAtMatrix i → q = s.mod) :
    answerOf p i (s.withContents d e o q) = answerOf p i s := by
  cases i with
  | nop | rst | pfin | ecc | ilv | gfmul | gfexp => rfl
  | pbyte c0 => exact appendBits_answer _ _ _ _ _ _ _
  | putb | pnum1 | pnum2 | pnum3 =>
    simp only [answerOf, bodyOf, putbBody, pnum1Body, pnum2Body, pnum3Body, apply_ite (Except.map Prod.snd),
      appendBits_answer]
  | cfg | gfdiv | gflog | genc =>
    simp only [answerOf, bodyOf, cfgBody, gfdivBody, gflogBody, gencBody, apply_ite (Except.map Prod.snd)]
    rfl
  | paln1 c0 =>
    simp only [answerOf, bodyOf, paln1Body]
    cases alnumValue p c0 with
    | none => rfl
    | some => exact appendBits_answer _ _ _ _ _ _ _
  | paln2 c0 c1 =>
    simp only [answerOf, bodyOf, paln2Body]
    cases alnumValue p c0 <;> cases alnumValue p c1
    case some.some => exact appendBits_answer _ _ _ _ _ _ _
    all_goals rfl
  | phdr mode count =>
    simp only [answerOf, bodyOf, phdrBody]
    cases modeOfIndicator p mode with
    | none => rfl
    | some m =>
      simp only [apply_ite (Except.map Prod.snd)]
      rfl
  | rdr addr =>
    have hread : readRegister (s.withContents d e o q) addr = readRegister s addr := rfl
    simp only [answerOf, bodyOf, rdrBody, hread]
    cases readRegister s addr <;> rfl
  | rdd idx =>
    obtain rfl := hd idx rfl
    simp only [answerOf, bodyOf, rddBody, readEntry, apply_ite (Except.map Prod.snd)]
    rfl
  | rde idx =>
    obtain rfl := he idx rfl
    simp only [answerOf, bodyOf, rdeBody, readEntry, apply_ite (Except.map Prod.snd)]
    rfl
  | rdo idx =>
    obtain rfl := ho idx rfl
    simp only [answerOf, bodyOf, rdoBody, readEntry, apply_ite (Except.map Prod.snd)]
    rfl
  | rdm | score =>
    obtain rfl := hq trivial
    simp only [answerOf, bodyOf, rdmBody, scoreBody, apply_ite (Except.map Prod.snd)]
    rfl
  | mset row col tag dark =>
    obtain rfl := hq trivial
    simp only [answerOf, bodyOf, msetBody, apply_ite (Except.map Prod.snd)]
    cases commandedTag tag with
    | none => rfl
    | some =>
      simp only [apply_ite (Except.map Prod.snd)]
      rfl

/-! ### Buffers that are not readable -/

/-- A command that looks at the matrix is legal only from `STREAMED` on (30_encoding.md R86). -/
theorem phase_of_looksAtMatrix {i : Instr} {q : Phase} (hlooks : LooksAtMatrix i) (hlegal : legalIn i q = true) :
    q = .streamed ∨ q = .masked := by
  cases i with
  | mset | score => exact .inl (eq_of_beq hlegal)
  | rdm => exact legalIn_rdm.mp hlegal
  | _ => exact hlooks.elim

theorem response_of_exec {i : Instr} {s t : State} (h : exec i s = .next t) :
    t.response = some (perform i (bodyOf standard i) s.toBlock).2 := by
  cases (exec_eq i s).symm.trans h
  rfl

/-- Other contents where the command, legal in this phase, does not look give the same response. -/
theorem response_withContents {i : Instr} {s s' t u : State} {d e o : Buffer} {q : Matrix}
    (hs' : s'.toBlock = s.toBlock.withContents d e o q)
    (hd : ∀ idx, legalIn (.rdd idx) s.phase = true → d = s.dbuf)
    (he : ∀ idx, legalIn (.rde idx) s.phase = true → e = s.ebuf)
    (ho : ∀ idx, legalIn (.rdo idx) s.phase = true → o = s.obuf)
    (hq : s.phase = .streamed ∨ s.phase = .masked → q = s.mod)
    (ht : exec i s = .next t) (hu : exec i s' = .next u) : u.response = t.response := by
  have hphase : (s.toBlock.withContents d e o q).phase = s.phase := rfl
  rw [response_of_exec ht, response_of_exec hu, hs', perform_response, perform_response, hphase]
  by_cases hlegal : legalIn i s.phase = true
  · rw [if_pos hlegal, if_pos hlegal, answerOf_withContents]
    · exact fun idx hi => hd idx (hi ▸ hlegal)
    · exact fun idx hi => he idx (hi ▸ hlegal)
    · exact fun idx hi => ho idx (hi ▸ hlegal)
    · exact fun hlooks => hq (phase_of_looksAtMatrix hlooks hlegal)
  · rw [if_neg hlegal, if_neg hlegal]

/-! ### Buffers that are overwritten -/

/-- A sequence that fits a buffer reads the same whatever the buffer held. -/
theorem readCodeword_writeCodewords_zero_congr {size i : Nat} {m m' : Buffer} {vs : List Byte}
    (hwf : Memory.wf 0 m = true) (hwf' : Memory.wf 0 m' = true) (hsize : vs.length ≤ size) (hi : i < vs.length) :
    readCodeword (writeCodewords size m 0 vs) i = readCodeword (writeCodewords size m' 0 vs) i :=
  (readCodeword_writeCodewords_zero hwf hsize (List.getElem?_eq_getElem hi)).trans
    (readCodeword_writeCodewords_zero hwf' hsize (List.getElem?_eq_getElem hi)).symm

/-- Settles O60: in the phases where a buffer is not readable no legal command reads it out or looks at it; `ECC` and
`ILV` write a sequence that is a function of other items over all valid entries. -/
theorem noResponseShowsUnproducedContents : Obligations.NoResponseShowsUnproducedContents := by
  refine ⟨fun i s t u m q ht => ⟨fun hphase hu => ?dbuf, fun hphase hu => ?ebuf,
    fun hstreamed hmasked => ⟨fun hu => ?obuf, fun hu => ?mod⟩⟩,
    fun s t u m hphase hsizes hcanonical hcanonical' ht hu i hi => ?ecc,
    fun s t u m hphase hsizes hsplit hcanonical hcanonical' ht hu i hi => ?ilv⟩
  case dbuf =>
    refine response_withContents (d := m) rfl (fun idx hlegal => ?_) (fun _ _ => rfl) (fun _ _ => rfl) (fun _ => rfl)
      ht hu
    rcases hphase with h | h | h <;> simp [h, legalIn] at hlegal
  case ebuf =>
    refine response_withContents (e := m) rfl (fun _ _ => rfl) (fun idx hlegal => ?_) (fun _ _ => rfl) (fun _ => rfl)
      ht hu
    rcases hphase with h | h | h | h <;> simp [h, legalIn] at hlegal
  case obuf =>
    refine response_withContents (o := m) rfl (fun _ _ => rfl) (fun _ _ => rfl) (fun idx hlegal => ?_) (fun _ => rfl)
      ht hu
    exact absurd (legalIn_rdo.mp hlegal) (not_or.mpr ⟨hstreamed, hmasked⟩)
  case mod =>
    refine response_withContents (q := q) rfl (fun _ _ => rfl) (fun _ _ => rfl) (fun _ _ => rfl) (fun hlate => ?_) ht hu
    exact absurd hlate (not_or.mpr ⟨hstreamed, hmasked⟩)
  case ecc =>
    obtain ⟨-, ⟨hwf, -⟩, -⟩ := hcanonical
    obtain ⟨-, ⟨hwf', -⟩, -⟩ := hcanonical'
    obtain ⟨-, hsize, -⟩ := hsizes
    cases (exec_completes (i := .ecc) (beq_of_eq hphase) rfl).symm.trans ht
    cases (exec_completes (i := .ecc) (s := { s with ebuf := m }) (beq_of_eq hphase) rfl).symm.trans hu
    have hlen := correctionCodewords_length standard s.toBlock
    simp only [give_toBlock, respond_block, codeBlocks_ebuf, correctionBuffer_eq]
    exact readCodeword_writeCodewords_zero_congr hwf' hwf (hlen.trans_le hsize) (hi.trans_eq hlen.symm)
  case ilv =>
    obtain ⟨-, -, ⟨hwf, -⟩, -⟩ := hcanonical
    obtain ⟨-, -, ⟨hwf', -⟩, -⟩ := hcanonical'
    obtain ⟨-, -, hsize, -⟩ := hsizes
    cases (exec_completes (i := .ilv) (beq_of_eq hphase) rfl).symm.trans ht
    cases (exec_completes (i := .ilv) (s := { s with obuf := m }) (beq_of_eq hphase) rfl).symm.trans hu
    have hlen := interleaved_length hsplit
    exact readCodeword_writeCodewords_zero_congr hwf' hwf (hlen.trans_le hsize) (hi.trans_eq hlen.symm)

end Sys2Proof.Machine
end

section
/-! PROOFS. The expansions of the pseudo-instructions (spec 30_encoding.md section 7): a list of packing commands
appends the bits of its fields one after another, and the commands of `MROW` load a row module by module. -/

namespace Sys2Proof.Machine

/-! ### The bits of fields -/

@[simp] theorem fieldBits_length (v w : Nat) : (fieldBits v w).length = w := by simp [fieldBits]

@[simp] theorem bitsOf_nil : bitsOf [] = [] := rfl

@[simp] theorem bitsOf_cons (v w : Nat) (fields : List (Nat × Nat)) :
    bitsOf ((v, w) :: fields) = fieldBits v w ++ bitsOf fields := rfl

theorem fieldBits_getD (v : Nat) {w j : Nat} (hj : j < w) : (fieldBits v w).getD j false = v.testBit (w - 1 - j) := by
  simp [fieldBits, hj]

/-- A field of `k` bits and one of `w` bits after it have the bits of one field of `k + w` bits. -/
theorem fieldBits_append (a k : Nat) {b w : Nat} (hb : b < 2 ^ w) :
    fieldBits a k ++ fieldBits b w = fieldBits (a * 2 ^ w + b) (k + w) := by
  rw [fieldBits, fieldBits, fieldBits, List.range_add, List.map_append, List.map_map]
  refine congrArg₂ (· ++ ·) (List.map_congr_left fun j hj => ?_) (List.map_congr_left fun j hj => ?_)
  · have hlt := List.mem_range.mp hj
    rw [Nat.mul_comm, Nat.testBit_two_pow_mul_add a hb, if_neg (by omega)]
    congr 1
    omega
  · have hlt := List.mem_range.mp hj
    rw [Function.comp_apply, Nat.mul_comm, Nat.testBit_two_pow_mul_add a hb, if_pos (by omega)]
    congr 1
    omega

/-! ### Lists of packing commands -/

theorem packsFields_nil (s : State) : PacksFields [] [] s := fun _ _ _ _ =>
  ⟨s, rfl, rfl, fun _ hj => absurd hj (Nat.not_lt_zero _), fun _ _ => rfl, rfl⟩

/-- What a list of commands appends is a matter of the bits of its fields alone. -/
theorem packsFields_congr {is : List Instr} {fields fields' : List (Nat × Nat)} {s : State}
    (hbits : bitsOf fields = bitsOf fields') (h : PacksFields is fields s) : PacksFields is fields' s := by
  rwa [PacksFields, ← hbits]

/-- A command that appends one field, before commands that append the others wherever they start. -/
theorem packsFields_cons {i : Instr} {v w : Nat} {is : List Instr} {fields : List (Nat × Nat)} {s : State}
    (hlegal : legalIn i .packing = true) (hbody : bodyOf standard i s.toBlock = appendBits v w s.toBlock)
    (hrest : ∀ t : State, PacksFields is fields t) : PacksFields (i :: is) ((v, w) :: fields) s := by
  intro hphase hcanonical hsizes hroom
  rw [bitsOf_cons, List.length_append, fieldBits_length] at hroom
  have ⟨⟨hwf, _⟩, _⟩ := hcanonical
  have hfit : s.bitlen.toNat + w ≤ 8 * s.dcap.toNat := by omega
  obtain ⟨hlen, hnew, hkept, -⟩ := appended_appendField v hwf (fits_iff.mpr hfit) hsizes.1
  have hexec : exec i s = .next (s.give (respond 0 (appendField v w s.toBlock))) :=
    exec_completes (hphase ▸ hlegal) (hbody.trans (appendBits_of_fit v hfit))
  obtain ⟨t, hrun, hlen', hnew', hkept', hframe⟩ := hrest (s.give (respond 0 (appendField v w s.toBlock))) hphase
    (memoriesCanonical_appendField v w hcanonical) hsizes (by
      rw [give_toBlock, respond_block, hlen]
      exact (Nat.add_assoc _ _ _).trans_le hroom)
  rw [give_toBlock, respond_block, hlen] at hlen' hnew' hkept'
  rw [bitsOf_cons, List.length_append, fieldBits_length]
  refine ⟨t, (execAll_cons hexec is).trans hrun, hlen'.trans (Nat.add_assoc _ _ _), fun j hj => ?_,
    fun q hq => ?_, ?_⟩
  · rcases Nat.lt_or_ge j w with hlt | hge
    · rw [hkept' _ (.inl (by omega)), hnew j hlt, List.getD_append _ _ _ _ (by simpa using hlt), fieldBits_getD v hlt]
    · obtain ⟨l, rfl⟩ := Nat.exists_eq_add_of_le hge
      rw [← Nat.add_assoc, hnew' l (by omega), List.getD_append_right _ _ _ _ (by simp), fieldBits_length,
        Nat.add_sub_cancel_left]
  · rw [hkept' q (by omega), hkept q (by omega)]
  · exact congrArg (fun u : State => { u with bitlen := s.bitlen, dbuf := s.dbuf, response := s.response }) hframe

/-- `PHDR` before commands that append their fields wherever they start (R125). -/
theorem packsFields_header {mode count w : Nat} {m : Mode} {is : List Instr} {fields : List (Nat × Nat)} {s : State}
    (hmode : modeOfIndicator standard mode = some m) (hw : CCIW m (tier s.ver.toNat) = w) (hcount : count < 2 ^ w)
    (hrest : ∀ t : State, PacksFields is fields t) :
    PacksFields (.phdr mode count :: is) ((mode, 4) :: (count, w) :: fields) s := by
  refine packsFields_congr ?_ (packsFields_cons (v := mode * 2 ^ w + count) (w := 4 + w) rfl ?_ hrest)
  · rw [bitsOf_cons, bitsOf_cons, bitsOf_cons, ← List.append_assoc, fieldBits_append mode 4 hcount]
  · exact (phdrBody_of_mode count hmode hw).trans (if_neg hcount.not_ge)

/-! ### Digits, characters and bytes -/

theorem bitsOf_digitFields_length (cs : List Nat) : (bitsOf (digitFields cs)).length = digitBits cs.length := by
  induction cs using digitFields.induct with
  | case1 c0 c1 c2 rest ih =>
    have hrest : (c0 :: c1 :: c2 :: rest).length % 3 = rest.length % 3 := Nat.add_mod_right rest.length 3
    rw [digitFields, bitsOf_cons, List.length_append, fieldBits_length, ih, digitBits, digitBits, hrest]
    simp only [List.length_cons]
    omega
  | case2 | case3 => simp [digitFields, digitBits]
  | case4 => rfl

theorem bitsOf_alnumFields_length (cs : List Nat) : (bitsOf (alnumFields cs)).length = alnumBits cs.length := by
  induction cs using alnumFields.induct with
  | case1 c0 c1 rest ih =>
    rw [alnumFields, bitsOf_cons, List.length_append, fieldBits_length, ih, alnumBits, alnumBits]
    simp only [List.length_cons]
    omega
  | case2 => simp [alnumFields, alnumBits]
  | case3 => rfl

theorem bitsOf_byteFields_length (cs : List Nat) : (bitsOf (byteFields cs)).length = 8 * cs.length := by
  induction cs with
  | nil => rfl
  | cons c cs ih =>
    rw [byteFields, List.map_cons, bitsOf_cons, List.length_append, fieldBits_length, ← byteFields, ih,
      List.length_cons]
    omega

theorem packsFields_pnums {cs : List Nat} (hcs : ∀ c ∈ cs, isDigit c = true) (s : State) :
    PacksFields (pnums cs) (digitFields cs) s := by
  induction cs using digitFields.induct generalizing s with
  | case1 c0 c1 c2 rest ih =>
    simp only [List.forall_mem_cons] at hcs
    obtain ⟨h0, h1, h2, hrest⟩ := hcs
    exact packsFields_cons rfl (if_pos (by rw [h0, h1, h2]; rfl)) (ih hrest)
  | case2 c0 c1 =>
    simp only [List.forall_mem_cons] at hcs
    obtain ⟨h0, h1, -⟩ := hcs
    exact packsFields_cons rfl (if_pos (by rw [h0, h1]; rfl)) packsFields_nil
  | case3 c0 => exact packsFields_cons rfl (if_pos (hcs c0 List.mem_cons_self)) packsFields_nil
  | case4 => exact packsFields_nil s

theorem packsFields_palns {cs : List Nat} (hcs : ∀ c ∈ cs, alnumValue standard c ≠ none) (s : State) :
    PacksFields (palns cs) (alnumFields cs) s := by
  induction cs using alnumFields.induct generalizing s with
  | case1 c0 c1 rest ih =>
    simp only [List.forall_mem_cons] at hcs
    obtain ⟨h0, h1, hrest⟩ := hcs
    exact packsFields_cons rfl ((paln2Body_eq ..).trans (if_neg (not_or.mpr ⟨h0, h1⟩))) (ih hrest)
  | case2 c0 =>
    exact packsFields_cons rfl ((paln1Body_eq ..).trans (if_neg (hcs c0 List.mem_cons_self))) packsFields_nil
  | case3 => exact packsFields_nil s

theorem packsFields_pbytes (cs : List Nat) (s : State) : PacksFields (pbytes cs) (byteFields cs) s := by
  induction cs generalizing s with
  | nil => exact packsFields_nil s
  | cons c cs ih => exact packsFields_cons rfl rfl ih

/-! ### `MROW` -/

/-- `MSET` loads a module that is not Reserved (R181). -/
theorem exec_mset {s : State} {row col tag : Nat} (dark : Bool) (hphase : s.phase = .streamed)
    (hrow : row < s.n.toNat) (hcol : col < s.n.toNat) (htag : tag = 1 ∨ tag = 2)
    (hfree : (readModule s.mod row col).tag ≠ .reserved) : exec (.mset row col tag dark) s =
      .next (s.give (respond 0 (loadModule row col ⟨if tag = 1 then .data else .reserved, dark⟩ s.toBlock))) :=
  exec_completes (beq_of_eq hphase) ((msetBody_of_operands dark hrow hcol htag).trans (if_neg hfree))

/-- What a character loads is a module that is set (30_encoding.md R92). -/
theorem mrowModule_eq_some {x : Char} {tag : Nat} {dark : Bool} (h : mrowModule x = some (tag, dark)) :
    (tag = 1 ∨ tag = 2) ∧ (⟨if tag = 1 then .data else .reserved, dark⟩ : Module) = moduleOfChar x := by
  unfold mrowModule at h
  split at h <;> cases h <;> simp [moduleOfChar]

/-- The line of a row is that of its first character and that of the rest. -/
theorem mrowFrom_cons {r c : Nat} {x : Char} {xs : List Char} {is : List Instr} (h : mrowFrom r c (x :: xs) = some is) :
    ∃ tag dark rest, mrowModule x = some (tag, dark) ∧ mrowFrom r (c + 1) xs = some rest ∧
      is = .mset r c tag dark :: rest := by
  rw [mrowFrom] at h
  split at h <;> cases h
  exact ⟨_, _, _, ‹_›, ‹_›, rfl⟩

theorem moduleOfChar_tag_ne_unset (x : Char) : (moduleOfChar x).tag ≠ .unset := by
  unfold moduleOfChar
  split_ifs <;> decide

/-- The commands of a row from column `c` on load its modules from there on. -/
theorem execAll_mrowFrom {r c : Nat} {xs : List Char} {is : List Instr} {s : State} (hphase : s.phase = .streamed)
    (hsizes : WithinSizes s.toBlock) (hr : r < s.n.toNat) (hlen : c + xs.length ≤ s.n.toNat)
    (hfree : ∀ c', c ≤ c' → c' < s.n.toNat → (readModule s.mod r c').tag ≠ .reserved)
    (h : mrowFrom r c xs = some is) :
    ∃ t : State, execAll is s = .next t ∧
      (∀ j, j < xs.length → readModule t.mod r (c + j) = moduleOfChar (xs.getD j '0')) ∧
      (∀ r' c', c' < 256 → r' ≠ r ∨ c' < c ∨ c + xs.length ≤ c' →
        readModule t.mod r' c' = readModule s.mod r' c') ∧
      { t with mod := s.mod, response := s.response } = s := by
  induction xs generalizing c is s with
  | nil =>
    cases h
    exact ⟨s, rfl, fun _ hj => absurd hj (Nat.not_lt_zero _), fun _ _ _ _ => rfl, rfl⟩
  | cons x xs ih =>
    obtain ⟨tag, dark, rest, hx, hrest, rfl⟩ := mrowFrom_cons h
    obtain ⟨htag, hmodule⟩ := mrowModule_eq_some hx
    rw [List.length_cons] at hlen
    have hn : s.n.toNat ≤ Config.NMAX := hsizes.2.2.2
    have hn8 := s.n.isLt
    have hexec := exec_mset dark hphase hr (show c < s.n.toNat by omega) htag (hfree c le_rfl (by omega))
    rw [hmodule] at hexec
    have hother {r' c' : Nat} (hc' : c' < 2 ^ 8) (hne : r' ≠ r ∨ c' ≠ c) :
        readModule (loadModule r c (moduleOfChar x) s.toBlock).mod r' c' = readModule s.mod r' c' := by
      refine readModule_write_ne s.mod _ fun ha => ?_
      obtain ⟨rfl, rfl⟩ := (moduleAddress_inj hc' (by omega)).mp ha
      omega
    have hfree' (c' : Nat) (hle : c + 1 ≤ c') (hlt : c' < s.n.toNat) :
        (readModule (loadModule r c (moduleOfChar x) s.toBlock).mod r c').tag ≠ .reserved := by
      rw [hother (by omega) (by omega)]
      exact hfree c' (by omega) hlt
    have hlen' : c + 1 + xs.length ≤ s.n.toNat := by omega
    obtain ⟨t, hrun, hloaded, hkept, hframe⟩ :=
      ih (s := s.give (respond 0 (loadModule r c (moduleOfChar x) s.toBlock))) hphase hsizes hr hlen' hfree' hrest
    refine ⟨t, (execAll_cons hexec rest).trans hrun, fun j hj => ?_, fun r' c' hc' hout => ?_, ?_⟩
    · cases j with
      | zero =>
        rw [hkept r (c + 0) (by omega) (by omega)]
        exact readModule_write_same_of_set s.mod (moduleOfChar_tag_ne_unset x) (by omega) (by omega)
      | succ j =>
        rw [List.length_cons] at hj
        rw [Nat.add_comm j, ← Nat.add_assoc, hloaded j (by omega), Nat.add_comm 1, List.getD_cons_succ]
    · rw [List.length_cons] at hout
      rw [hkept r' c' hc' (by omega)]
      exact hother hc' (by omega)
    · exact congrArg (fun u : State => { u with mod := s.mod, response := s.response }) hframe

/-- Settles O33: the commands of each expansion append the fields of their characters one after another, after the
header where there is one; those of `MROW` load their modules one after another. -/
theorem pseudoInstructionsPackTheirCharacters : Obligations.PseudoInstructionsPackTheirCharacters := by
  refine ⟨fun s cs hcs => ?digits, fun s cs hcs => ?characters, fun s cs => ?bytes,
    fun s r xs is hphase hsizes hr hlen hfree h => ?row⟩
  case digits =>
    have hdigits : ∀ c ∈ cs, isDigit c = true := fun c hc => isDigit_iff.mpr (hcs c hc)
    exact ⟨bitsOf_digitFields_length cs, packsFields_pnums hdigits s,
      fun hcount => packsFields_header rfl rfl hcount (packsFields_pnums hdigits)⟩
  case characters =>
    exact ⟨bitsOf_alnumFields_length cs, packsFields_palns hcs s,
      fun hcount => packsFields_header rfl rfl hcount (packsFields_palns hcs)⟩
  case bytes =>
    exact ⟨bitsOf_byteFields_length cs, packsFields_pbytes cs s,
      fun hcount => packsFields_header rfl rfl hcount (packsFields_pbytes cs)⟩
  case row =>
    obtain ⟨t, hrun, hloaded, hkept, hframe⟩ :=
      execAll_mrowFrom (c := 0) hphase hsizes hr (by omega) (fun c _ => hfree c) h
    refine ⟨t, hrun, fun c hc => ?_, fun r' c hc hout => hkept r' c hc (by omega), hframe⟩
    have hread := hloaded c (by omega)
    rwa [Nat.zero_add] at hread

end Sys2Proof.Machine
end
